-- ==== Sys2Proof/Word.lean ====
section
/-! DEFINITION. The word types of the hart and the plainest operations on them (00_scope.md R9, R10, R11). -/

namespace Sys2Proof

/-- A register or arithmetic value: "word" means 32 bits (00_scope.md R9). -/
abbrev Word := BitVec 32

/-- A byte (00_scope.md R9). -/
abbrev Byte := BitVec 8

/-- The 64-bit values: the counter and the timer compare register (10_state.md R24, R25). -/
abbrev DWord := BitVec 64

/-- A 5-bit index into `x0` to `x31` (30_encoding.md R121). -/
abbrev Reg := Fin 32

/-- A 12-bit CSR number (10_state.md R27). -/
abbrev CsrNum := BitVec 12

end Sys2Proof
end

