-- ==== Sys2Proof/Syntax.lean ====
section
/-! DEFINITION. The instructions: one constructor per row of spec/opcode_table.json (30_encoding.md R133), in the
table's order. A constructor keeps every operand field of its format, the ignored ones too, so that encoding loses
nothing. Immediates are kept as the raw field; `off` is the branch or jump offset with its zero bit 0. -/

namespace Sys2Proof

/-- The 68 instructions of 30_encoding.md R133. -/
inductive Instr where
  /-- R161. `imm20` is `ir[31:12]`. -/
  | lui (rd : Reg) (imm20 : BitVec 20)
  /-- R162 -/
  | auipc (rd : Reg) (imm20 : BitVec 20)
  /-- R201. `off` is the 21-bit `imm_J` before sign extension (R126). -/
  | jal (rd : Reg) (off : BitVec 21)
  /-- R202 -/
  | jalr (rd rs1 : Reg) (imm : BitVec 12)
  /-- R203. `off` is the 13-bit `imm_B` before sign extension (R124). -/
  | beq (rs1 rs2 : Reg) (off : BitVec 13)
  /-- R204 -/
  | bne (rs1 rs2 : Reg) (off : BitVec 13)
  /-- R205 -/
  | blt (rs1 rs2 : Reg) (off : BitVec 13)
  /-- R206 -/
  | bge (rs1 rs2 : Reg) (off : BitVec 13)
  /-- R207 -/
  | bltu (rs1 rs2 : Reg) (off : BitVec 13)
  /-- R208 -/
  | bgeu (rs1 rs2 : Reg) (off : BitVec 13)
  /-- R221 -/
  | lb (rd rs1 : Reg) (imm : BitVec 12)
  /-- R222 -/
  | lh (rd rs1 : Reg) (imm : BitVec 12)
  /-- R223 -/
  | lw (rd rs1 : Reg) (imm : BitVec 12)
  /-- R224 -/
  | lbu (rd rs1 : Reg) (imm : BitVec 12)
  /-- R225 -/
  | lhu (rd rs1 : Reg) (imm : BitVec 12)
  /-- R226. `rs2` is stored, `rs1` is the base. -/
  | sb (rs1 rs2 : Reg) (imm : BitVec 12)
  /-- R227 -/
  | sh (rs1 rs2 : Reg) (imm : BitVec 12)
  /-- R228 -/
  | sw (rs1 rs2 : Reg) (imm : BitVec 12)
  /-- R163 -/
  | addi (rd rs1 : Reg) (imm : BitVec 12)
  /-- R164 -/
  | slti (rd rs1 : Reg) (imm : BitVec 12)
  /-- R165 -/
  | sltiu (rd rs1 : Reg) (imm : BitVec 12)
  /-- R166 -/
  | xori (rd rs1 : Reg) (imm : BitVec 12)
  /-- R167 -/
  | ori (rd rs1 : Reg) (imm : BitVec 12)
  /-- R168 -/
  | andi (rd rs1 : Reg) (imm : BitVec 12)
  /-- R169 -/
  | slli (rd rs1 : Reg) (shamt : BitVec 5)
  /-- R170 -/
  | srli (rd rs1 : Reg) (shamt : BitVec 5)
  /-- R171 -/
  | srai (rd rs1 : Reg) (shamt : BitVec 5)
  /-- R172 -/
  | add (rd rs1 rs2 : Reg)
  /-- R173 -/
  | sub (rd rs1 rs2 : Reg)
  /-- R174 -/
  | sll (rd rs1 rs2 : Reg)
  /-- R175 -/
  | slt (rd rs1 rs2 : Reg)
  /-- R176 -/
  | sltu (rd rs1 rs2 : Reg)
  /-- R177 -/
  | xor (rd rs1 rs2 : Reg)
  /-- R178 -/
  | srl (rd rs1 rs2 : Reg)
  /-- R179 -/
  | sra (rd rs1 rs2 : Reg)
  /-- R180 -/
  | or (rd rs1 rs2 : Reg)
  /-- R181 -/
  | and (rd rs1 rs2 : Reg)
  /-- R229. Every field besides opcode and funct3 is ignored (R130). -/
  | fence (fm pred succ : BitVec 4) (rd rs1 : Reg)
  /-- R230. Every field besides opcode and funct3 is ignored (R130). -/
  | fenceI (imm : BitVec 12) (rd rs1 : Reg)
  /-- R297 -/
  | ecall
  /-- R298 -/
  | ebreak
  /-- R241 -/
  | mul (rd rs1 rs2 : Reg)
  /-- R242 -/
  | mulh (rd rs1 rs2 : Reg)
  /-- R243 -/
  | mulhsu (rd rs1 rs2 : Reg)
  /-- R244 -/
  | mulhu (rd rs1 rs2 : Reg)
  /-- R245 -/
  | div (rd rs1 rs2 : Reg)
  /-- R246 -/
  | divu (rd rs1 rs2 : Reg)
  /-- R247 -/
  | rem (rd rs1 rs2 : Reg)
  /-- R248 -/
  | remu (rd rs1 rs2 : Reg)
  /-- R261. `aq` and `rl` are accepted and ignored (R128, R260). -/
  | lrW (aq rl : Bool) (rd rs1 : Reg)
  /-- R262 -/
  | scW (aq rl : Bool) (rd rs1 rs2 : Reg)
  /-- R263 -/
  | amoswapW (aq rl : Bool) (rd rs1 rs2 : Reg)
  /-- R264 -/
  | amoaddW (aq rl : Bool) (rd rs1 rs2 : Reg)
  /-- R265 -/
  | amoxorW (aq rl : Bool) (rd rs1 rs2 : Reg)
  /-- R266 -/
  | amoandW (aq rl : Bool) (rd rs1 rs2 : Reg)
  /-- R267 -/
  | amoorW (aq rl : Bool) (rd rs1 rs2 : Reg)
  /-- R268 -/
  | amominW (aq rl : Bool) (rd rs1 rs2 : Reg)
  /-- R269 -/
  | amomaxW (aq rl : Bool) (rd rs1 rs2 : Reg)
  /-- R270 -/
  | amominuW (aq rl : Bool) (rd rs1 rs2 : Reg)
  /-- R271 -/
  | amomaxuW (aq rl : Bool) (rd rs1 rs2 : Reg)
  /-- R291 -/
  | csrrw (rd rs1 : Reg) (csr : CsrNum)
  /-- R292 -/
  | csrrs (rd rs1 : Reg) (csr : CsrNum)
  /-- R293 -/
  | csrrc (rd rs1 : Reg) (csr : CsrNum)
  /-- R294. `uimm` is `ir[19:15]` (R129). -/
  | csrrwi (rd : Reg) (uimm : BitVec 5) (csr : CsrNum)
  /-- R295 -/
  | csrrsi (rd : Reg) (uimm : BitVec 5) (csr : CsrNum)
  /-- R296 -/
  | csrrci (rd : Reg) (uimm : BitVec 5) (csr : CsrNum)
  /-- R301 -/
  | mret
  /-- R302 -/
  | wfi
deriving DecidableEq, Repr

end Sys2Proof
end

