-- ==== Sys2Proof/Decode.lean ====
section
/-! DEFINITION. Decoding and encoding (30_encoding.md). The decoder is the 68-row mask/match table of R133; the
encoder is written from the formats of R121 to R130 and the opcode and function fields of R133. -/

namespace Sys2Proof

/-- Why a decode rejects: the word matches no row of the table (30_encoding.md R132, R135), or there are fewer than
the four bytes every instruction has (R120). -/
inductive DecodeError where
  | illegal
  | truncated
deriving DecidableEq, Repr

/-! ## The fields of an instruction word (00_scope.md R11; 30_encoding.md R121 to R130) -/

/-- `rd = ir[11:7]` -/
def rdOf (w : Word) : Reg := (w.extractLsb' 7 5).toFin

/-- `rs1 = ir[19:15]` -/
def rs1Of (w : Word) : Reg := (w.extractLsb' 15 5).toFin

/-- `rs2 = ir[24:20]` -/
def rs2Of (w : Word) : Reg := (w.extractLsb' 20 5).toFin

/-- `ir[31:20]`, the field of `imm_I` (R122). -/
def immIOf (w : Word) : BitVec 12 := w.extractLsb' 20 12

/-- `{ir[31:25], ir[11:7]}`, the field of `imm_S` (R123). -/
def immSOf (w : Word) : BitVec 12 := w.extractLsb' 25 7 ++ w.extractLsb' 7 5

/-- `{ir[31], ir[7], ir[30:25], ir[11:8], 0}`, the field of `imm_B` (R124). -/
def offBOf (w : Word) : BitVec 13 :=
  w.extractLsb' 31 1 ++ w.extractLsb' 7 1 ++ w.extractLsb' 25 6 ++ w.extractLsb' 8 4 ++ 0#1

/-- `ir[31:12]`, the field of `imm_U` (R125). -/
def immUOf (w : Word) : BitVec 20 := w.extractLsb' 12 20

/-- `{ir[31], ir[19:12], ir[20], ir[30:21], 0}`, the field of `imm_J` (R126). -/
def offJOf (w : Word) : BitVec 21 :=
  w.extractLsb' 31 1 ++ w.extractLsb' 12 8 ++ w.extractLsb' 20 1 ++ w.extractLsb' 21 10 ++ 0#1

/-- `shamt = ir[24:20]` (R127). -/
def shamtOf (w : Word) : BitVec 5 := w.extractLsb' 20 5

/-- `csr = ir[31:20]` (R129). -/
def csrOf (w : Word) : CsrNum := w.extractLsb' 20 12

/-- `uimm = ir[19:15]` (R129). -/
def uimmOf (w : Word) : BitVec 5 := w.extractLsb' 15 5

/-- `aq = ir[26]` (R128). -/
def aqOf (w : Word) : Bool := w.getLsbD 26

/-- `rl = ir[25]` (R128). -/
def rlOf (w : Word) : Bool := w.getLsbD 25

/-- `fm = ir[31:28]` (R130). -/
def fmOf (w : Word) : BitVec 4 := w.extractLsb' 28 4

/-- The predecessor set, `ir[27:24]` (R130). -/
def predOf (w : Word) : BitVec 4 := w.extractLsb' 24 4

/-- The successor set, `ir[23:20]` (R130). -/
def succOf (w : Word) : BitVec 4 := w.extractLsb' 20 4

/-! ## The table (30_encoding.md R133) -/

/-- A row of the opcode table: a word `w` selects it when `w & mask = pat` (R132). -/
structure Row where
  mnemonic : String
  mask : Word
  pat : Word
  operands : Word → Instr

/-- The row's test on a word (R132). -/
def Row.selects (r : Row) (w : Word) : Bool := w &&& r.mask == r.pat

/-- Rows of 30_encoding.md R133: LUI, AUIPC, JAL, JALR. -/
def rowsUpperAndJumps : List Row :=
  [ ⟨"LUI", 0x0000007F#32, 0x00000037#32, fun w => .lui (rdOf w) (immUOf w)⟩,
    ⟨"AUIPC", 0x0000007F#32, 0x00000017#32, fun w => .auipc (rdOf w) (immUOf w)⟩,
    ⟨"JAL", 0x0000007F#32, 0x0000006F#32, fun w => .jal (rdOf w) (offJOf w)⟩,
    ⟨"JALR", 0x0000707F#32, 0x00000067#32, fun w => .jalr (rdOf w) (rs1Of w) (immIOf w)⟩ ]

/-- Rows of 30_encoding.md R133: BRANCH. -/
def rowsBranch : List Row :=
  [ ⟨"BEQ", 0x0000707F#32, 0x00000063#32, fun w => .beq (rs1Of w) (rs2Of w) (offBOf w)⟩,
    ⟨"BNE", 0x0000707F#32, 0x00001063#32, fun w => .bne (rs1Of w) (rs2Of w) (offBOf w)⟩,
    ⟨"BLT", 0x0000707F#32, 0x00004063#32, fun w => .blt (rs1Of w) (rs2Of w) (offBOf w)⟩,
    ⟨"BGE", 0x0000707F#32, 0x00005063#32, fun w => .bge (rs1Of w) (rs2Of w) (offBOf w)⟩,
    ⟨"BLTU", 0x0000707F#32, 0x00006063#32, fun w => .bltu (rs1Of w) (rs2Of w) (offBOf w)⟩,
    ⟨"BGEU", 0x0000707F#32, 0x00007063#32, fun w => .bgeu (rs1Of w) (rs2Of w) (offBOf w)⟩ ]

/-- Rows of 30_encoding.md R133: LOAD and STORE. -/
def rowsLoadStore : List Row :=
  [ ⟨"LB", 0x0000707F#32, 0x00000003#32, fun w => .lb (rdOf w) (rs1Of w) (immIOf w)⟩,
    ⟨"LH", 0x0000707F#32, 0x00001003#32, fun w => .lh (rdOf w) (rs1Of w) (immIOf w)⟩,
    ⟨"LW", 0x0000707F#32, 0x00002003#32, fun w => .lw (rdOf w) (rs1Of w) (immIOf w)⟩,
    ⟨"LBU", 0x0000707F#32, 0x00004003#32, fun w => .lbu (rdOf w) (rs1Of w) (immIOf w)⟩,
    ⟨"LHU", 0x0000707F#32, 0x00005003#32, fun w => .lhu (rdOf w) (rs1Of w) (immIOf w)⟩,
    ⟨"SB", 0x0000707F#32, 0x00000023#32, fun w => .sb (rs1Of w) (rs2Of w) (immSOf w)⟩,
    ⟨"SH", 0x0000707F#32, 0x00001023#32, fun w => .sh (rs1Of w) (rs2Of w) (immSOf w)⟩,
    ⟨"SW", 0x0000707F#32, 0x00002023#32, fun w => .sw (rs1Of w) (rs2Of w) (immSOf w)⟩ ]

/-- Rows of 30_encoding.md R133: OP-IMM. -/
def rowsOpImm : List Row :=
  [ ⟨"ADDI", 0x0000707F#32, 0x00000013#32, fun w => .addi (rdOf w) (rs1Of w) (immIOf w)⟩,
    ⟨"SLTI", 0x0000707F#32, 0x00002013#32, fun w => .slti (rdOf w) (rs1Of w) (immIOf w)⟩,
    ⟨"SLTIU", 0x0000707F#32, 0x00003013#32, fun w => .sltiu (rdOf w) (rs1Of w) (immIOf w)⟩,
    ⟨"XORI", 0x0000707F#32, 0x00004013#32, fun w => .xori (rdOf w) (rs1Of w) (immIOf w)⟩,
    ⟨"ORI", 0x0000707F#32, 0x00006013#32, fun w => .ori (rdOf w) (rs1Of w) (immIOf w)⟩,
    ⟨"ANDI", 0x0000707F#32, 0x00007013#32, fun w => .andi (rdOf w) (rs1Of w) (immIOf w)⟩,
    ⟨"SLLI", 0xFE00707F#32, 0x00001013#32, fun w => .slli (rdOf w) (rs1Of w) (shamtOf w)⟩,
    ⟨"SRLI", 0xFE00707F#32, 0x00005013#32, fun w => .srli (rdOf w) (rs1Of w) (shamtOf w)⟩,
    ⟨"SRAI", 0xFE00707F#32, 0x40005013#32, fun w => .srai (rdOf w) (rs1Of w) (shamtOf w)⟩ ]

/-- Rows of 30_encoding.md R133: OP, funct7 0000000 and 0100000. -/
def rowsOp : List Row :=
  [ ⟨"ADD", 0xFE00707F#32, 0x00000033#32, fun w => .add (rdOf w) (rs1Of w) (rs2Of w)⟩,
    ⟨"SUB", 0xFE00707F#32, 0x40000033#32, fun w => .sub (rdOf w) (rs1Of w) (rs2Of w)⟩,
    ⟨"SLL", 0xFE00707F#32, 0x00001033#32, fun w => .sll (rdOf w) (rs1Of w) (rs2Of w)⟩,
    ⟨"SLT", 0xFE00707F#32, 0x00002033#32, fun w => .slt (rdOf w) (rs1Of w) (rs2Of w)⟩,
    ⟨"SLTU", 0xFE00707F#32, 0x00003033#32, fun w => .sltu (rdOf w) (rs1Of w) (rs2Of w)⟩,
    ⟨"XOR", 0xFE00707F#32, 0x00004033#32, fun w => .xor (rdOf w) (rs1Of w) (rs2Of w)⟩,
    ⟨"SRL", 0xFE00707F#32, 0x00005033#32, fun w => .srl (rdOf w) (rs1Of w) (rs2Of w)⟩,
    ⟨"SRA", 0xFE00707F#32, 0x40005033#32, fun w => .sra (rdOf w) (rs1Of w) (rs2Of w)⟩,
    ⟨"OR", 0xFE00707F#32, 0x00006033#32, fun w => .or (rdOf w) (rs1Of w) (rs2Of w)⟩,
    ⟨"AND", 0xFE00707F#32, 0x00007033#32, fun w => .and (rdOf w) (rs1Of w) (rs2Of w)⟩ ]

/-- Rows of 30_encoding.md R133: MISC-MEM. -/
def rowsFence : List Row :=
  [ ⟨"FENCE", 0x0000707F#32, 0x0000000F#32, fun w => .fence (fmOf w) (predOf w) (succOf w) (rdOf w) (rs1Of w)⟩,
    ⟨"FENCE.I", 0x0000707F#32, 0x0000100F#32, fun w => .fenceI (immIOf w) (rdOf w) (rs1Of w)⟩ ]

/-- Rows of 30_encoding.md R133: OP, funct7 0000001. -/
def rowsMulDiv : List Row :=
  [ ⟨"MUL", 0xFE00707F#32, 0x02000033#32, fun w => .mul (rdOf w) (rs1Of w) (rs2Of w)⟩,
    ⟨"MULH", 0xFE00707F#32, 0x02001033#32, fun w => .mulh (rdOf w) (rs1Of w) (rs2Of w)⟩,
    ⟨"MULHSU", 0xFE00707F#32, 0x02002033#32, fun w => .mulhsu (rdOf w) (rs1Of w) (rs2Of w)⟩,
    ⟨"MULHU", 0xFE00707F#32, 0x02003033#32, fun w => .mulhu (rdOf w) (rs1Of w) (rs2Of w)⟩,
    ⟨"DIV", 0xFE00707F#32, 0x02004033#32, fun w => .div (rdOf w) (rs1Of w) (rs2Of w)⟩,
    ⟨"DIVU", 0xFE00707F#32, 0x02005033#32, fun w => .divu (rdOf w) (rs1Of w) (rs2Of w)⟩,
    ⟨"REM", 0xFE00707F#32, 0x02006033#32, fun w => .rem (rdOf w) (rs1Of w) (rs2Of w)⟩,
    ⟨"REMU", 0xFE00707F#32, 0x02007033#32, fun w => .remu (rdOf w) (rs1Of w) (rs2Of w)⟩ ]

/-- Rows of 30_encoding.md R133: AMO. -/
def rowsAtomic : List Row :=
  [ ⟨"LR.W", 0xF9F0707F#32, 0x1000202F#32, fun w => .lrW (aqOf w) (rlOf w) (rdOf w) (rs1Of w)⟩,
    ⟨"SC.W", 0xF800707F#32, 0x1800202F#32, fun w => .scW (aqOf w) (rlOf w) (rdOf w) (rs1Of w) (rs2Of w)⟩,
    ⟨"AMOSWAP.W", 0xF800707F#32, 0x0800202F#32, fun w => .amoswapW (aqOf w) (rlOf w) (rdOf w) (rs1Of w) (rs2Of w)⟩,
    ⟨"AMOADD.W", 0xF800707F#32, 0x0000202F#32, fun w => .amoaddW (aqOf w) (rlOf w) (rdOf w) (rs1Of w) (rs2Of w)⟩,
    ⟨"AMOXOR.W", 0xF800707F#32, 0x2000202F#32, fun w => .amoxorW (aqOf w) (rlOf w) (rdOf w) (rs1Of w) (rs2Of w)⟩,
    ⟨"AMOAND.W", 0xF800707F#32, 0x6000202F#32, fun w => .amoandW (aqOf w) (rlOf w) (rdOf w) (rs1Of w) (rs2Of w)⟩,
    ⟨"AMOOR.W", 0xF800707F#32, 0x4000202F#32, fun w => .amoorW (aqOf w) (rlOf w) (rdOf w) (rs1Of w) (rs2Of w)⟩,
    ⟨"AMOMIN.W", 0xF800707F#32, 0x8000202F#32, fun w => .amominW (aqOf w) (rlOf w) (rdOf w) (rs1Of w) (rs2Of w)⟩,
    ⟨"AMOMAX.W", 0xF800707F#32, 0xA000202F#32, fun w => .amomaxW (aqOf w) (rlOf w) (rdOf w) (rs1Of w) (rs2Of w)⟩,
    ⟨"AMOMINU.W", 0xF800707F#32, 0xC000202F#32, fun w => .amominuW (aqOf w) (rlOf w) (rdOf w) (rs1Of w) (rs2Of w)⟩,
    ⟨"AMOMAXU.W", 0xF800707F#32, 0xE000202F#32, fun w => .amomaxuW (aqOf w) (rlOf w) (rdOf w) (rs1Of w) (rs2Of w)⟩ ]

/-- Rows of 30_encoding.md R133: SYSTEM. -/
def rowsSystem : List Row :=
  [ ⟨"ECALL", 0xFFFFFFFF#32, 0x00000073#32, fun _ => .ecall⟩,
    ⟨"EBREAK", 0xFFFFFFFF#32, 0x00100073#32, fun _ => .ebreak⟩,
    ⟨"CSRRW", 0x0000707F#32, 0x00001073#32, fun w => .csrrw (rdOf w) (rs1Of w) (csrOf w)⟩,
    ⟨"CSRRS", 0x0000707F#32, 0x00002073#32, fun w => .csrrs (rdOf w) (rs1Of w) (csrOf w)⟩,
    ⟨"CSRRC", 0x0000707F#32, 0x00003073#32, fun w => .csrrc (rdOf w) (rs1Of w) (csrOf w)⟩,
    ⟨"CSRRWI", 0x0000707F#32, 0x00005073#32, fun w => .csrrwi (rdOf w) (uimmOf w) (csrOf w)⟩,
    ⟨"CSRRSI", 0x0000707F#32, 0x00006073#32, fun w => .csrrsi (rdOf w) (uimmOf w) (csrOf w)⟩,
    ⟨"CSRRCI", 0x0000707F#32, 0x00007073#32, fun w => .csrrci (rdOf w) (uimmOf w) (csrOf w)⟩,
    ⟨"MRET", 0xFFFFFFFF#32, 0x30200073#32, fun _ => .mret⟩,
    ⟨"WFI", 0xFFFFFFFF#32, 0x10500073#32, fun _ => .wfi⟩ ]

/-- The 68 rows of 30_encoding.md R133. -/
def rows : List Row :=
  rowsUpperAndJumps ++ rowsBranch ++ rowsLoadStore ++ rowsOpImm ++ rowsOp ++ rowsFence ++ rowsMulDiv ++
    rowsAtomic ++ rowsSystem

/-- Decoding of a 32-bit word, total (30_encoding.md R132). -/
def decodeWord (w : Word) : Except DecodeError Instr :=
  match rows.find? (fun r => r.selects w) with
  | some r => .ok (r.operands w)
  | none => .error .illegal

/-- The word four bytes make, the first at the lowest address (little-endian, 20_memory.md R72, R74). -/
def wordOfBytes (b0 b1 b2 b3 : Byte) : Word := b3 ++ b2 ++ b1 ++ b0

/-- Byte `i` of a word, byte 0 the least significant. -/
def byteOf (w : Word) (i : Nat) : Byte := w.extractLsb' (8 * i) 8

/-- Decoding of bytes in address order: an instruction is exactly four bytes (30_encoding.md R120). -/
def decode : List Byte → Except DecodeError (Instr × List Byte)
  | b0 :: b1 :: b2 :: b3 :: rest =>
    match decodeWord (wordOfBytes b0 b1 b2 b3) with
    | .ok i => .ok (i, rest)
    | .error e => .error e
  | _ => .error .truncated

/-- The instruction the decoder reads from an instruction whose bits are `w`, numbered as the opcode table numbers
them; bits at and above `nbits` are 0. -/
def decodeTableWord (nbits w : Nat) : Option Instr :=
  let v : Word := BitVec.ofNat 32 (w % 2 ^ nbits)
  match decode [byteOf v 0, byteOf v 1, byteOf v 2, byteOf v 3] with
  | .ok (i, _) => some i
  | .error _ => none

/-! ## The encoder -/

/-- R format (30_encoding.md R121). -/
def encR (funct7 : BitVec 7) (rs2 rs1 : Reg) (funct3 : BitVec 3) (rd : Reg) (op : BitVec 7) : Word :=
  funct7 ++ (BitVec.ofFin rs2 : BitVec 5) ++ (BitVec.ofFin rs1 : BitVec 5) ++ funct3 ++
    (BitVec.ofFin rd : BitVec 5) ++ op

/-- I format (R121). -/
def encI (imm : BitVec 12) (rs1 : Reg) (funct3 : BitVec 3) (rd : Reg) (op : BitVec 7) : Word :=
  imm ++ (BitVec.ofFin rs1 : BitVec 5) ++ funct3 ++ (BitVec.ofFin rd : BitVec 5) ++ op

/-- S format (R121, R123). -/
def encS (imm : BitVec 12) (rs2 rs1 : Reg) (funct3 : BitVec 3) (op : BitVec 7) : Word :=
  imm.extractLsb' 5 7 ++ (BitVec.ofFin rs2 : BitVec 5) ++ (BitVec.ofFin rs1 : BitVec 5) ++ funct3 ++
    imm.extractLsb' 0 5 ++ op

/-- B format: `ir[31] = imm[12]`, `ir[30:25] = imm[10:5]`, `ir[11:8] = imm[4:1]`, `ir[7] = imm[11]` (R121). -/
def encB (off : BitVec 13) (rs2 rs1 : Reg) (funct3 : BitVec 3) (op : BitVec 7) : Word :=
  off.extractLsb' 12 1 ++ off.extractLsb' 5 6 ++ (BitVec.ofFin rs2 : BitVec 5) ++ (BitVec.ofFin rs1 : BitVec 5) ++
    funct3 ++ off.extractLsb' 1 4 ++ off.extractLsb' 11 1 ++ op

/-- U format (R121, R125). -/
def encU (imm20 : BitVec 20) (rd : Reg) (op : BitVec 7) : Word := imm20 ++ (BitVec.ofFin rd : BitVec 5) ++ op

/-- J format: `ir[31] = imm[20]`, `ir[30:21] = imm[10:1]`, `ir[20] = imm[11]`, `ir[19:12] = imm[19:12]` (R121). -/
def encJ (off : BitVec 21) (rd : Reg) (op : BitVec 7) : Word :=
  off.extractLsb' 20 1 ++ off.extractLsb' 1 10 ++ off.extractLsb' 11 1 ++ off.extractLsb' 12 8 ++
    (BitVec.ofFin rd : BitVec 5) ++ op

/-- I-shift sub-format (R127). -/
def encShift (funct7 : BitVec 7) (shamt : BitVec 5) (rs1 : Reg) (funct3 : BitVec 3) (rd : Reg) : Word :=
  funct7 ++ shamt ++ (BitVec.ofFin rs1 : BitVec 5) ++ funct3 ++ (BitVec.ofFin rd : BitVec 5) ++ 0b0010011#7

/-- R-atomic sub-format, funct3 `010` (R128). -/
def encAtomic (funct5 : BitVec 5) (aq rl : Bool) (rs2 rs1 rd : Reg) : Word :=
  funct5 ++ BitVec.ofBool aq ++ BitVec.ofBool rl ++ (BitVec.ofFin rs2 : BitVec 5) ++
    (BitVec.ofFin rs1 : BitVec 5) ++ 0b010#3 ++ (BitVec.ofFin rd : BitVec 5) ++ 0b0101111#7

/-- I-csr sub-format; `src` is `rs1` or `uimm` (R129). -/
def encCsr (csr : CsrNum) (src : BitVec 5) (funct3 : BitVec 3) (rd : Reg) : Word :=
  csr ++ src ++ funct3 ++ (BitVec.ofFin rd : BitVec 5) ++ 0b1110011#7

/-- I-fence sub-format, FENCE (R130). -/
def encFence (fm pred succ : BitVec 4) (rs1 rd : Reg) : Word :=
  fm ++ pred ++ succ ++ (BitVec.ofFin rs1 : BitVec 5) ++ 0b000#3 ++ (BitVec.ofFin rd : BitVec 5) ++ 0b0001111#7

/-- The word of an instruction. An ill-formed offset loses its bit 0. -/
def encode : Instr → Word
  | .lui rd imm => encU imm rd 0b0110111#7
  | .auipc rd imm => encU imm rd 0b0010111#7
  | .jal rd off => encJ off rd 0b1101111#7
  | .jalr rd rs1 imm => encI imm rs1 0b000#3 rd 0b1100111#7
  | .beq rs1 rs2 off => encB off rs2 rs1 0b000#3 0b1100011#7
  | .bne rs1 rs2 off => encB off rs2 rs1 0b001#3 0b1100011#7
  | .blt rs1 rs2 off => encB off rs2 rs1 0b100#3 0b1100011#7
  | .bge rs1 rs2 off => encB off rs2 rs1 0b101#3 0b1100011#7
  | .bltu rs1 rs2 off => encB off rs2 rs1 0b110#3 0b1100011#7
  | .bgeu rs1 rs2 off => encB off rs2 rs1 0b111#3 0b1100011#7
  | .lb rd rs1 imm => encI imm rs1 0b000#3 rd 0b0000011#7
  | .lh rd rs1 imm => encI imm rs1 0b001#3 rd 0b0000011#7
  | .lw rd rs1 imm => encI imm rs1 0b010#3 rd 0b0000011#7
  | .lbu rd rs1 imm => encI imm rs1 0b100#3 rd 0b0000011#7
  | .lhu rd rs1 imm => encI imm rs1 0b101#3 rd 0b0000011#7
  | .sb rs1 rs2 imm => encS imm rs2 rs1 0b000#3 0b0100011#7
  | .sh rs1 rs2 imm => encS imm rs2 rs1 0b001#3 0b0100011#7
  | .sw rs1 rs2 imm => encS imm rs2 rs1 0b010#3 0b0100011#7
  | .addi rd rs1 imm => encI imm rs1 0b000#3 rd 0b0010011#7
  | .slti rd rs1 imm => encI imm rs1 0b010#3 rd 0b0010011#7
  | .sltiu rd rs1 imm => encI imm rs1 0b011#3 rd 0b0010011#7
  | .xori rd rs1 imm => encI imm rs1 0b100#3 rd 0b0010011#7
  | .ori rd rs1 imm => encI imm rs1 0b110#3 rd 0b0010011#7
  | .andi rd rs1 imm => encI imm rs1 0b111#3 rd 0b0010011#7
  | .slli rd rs1 shamt => encShift 0b0000000#7 shamt rs1 0b001#3 rd
  | .srli rd rs1 shamt => encShift 0b0000000#7 shamt rs1 0b101#3 rd
  | .srai rd rs1 shamt => encShift 0b0100000#7 shamt rs1 0b101#3 rd
  | .add rd rs1 rs2 => encR 0b0000000#7 rs2 rs1 0b000#3 rd 0b0110011#7
  | .sub rd rs1 rs2 => encR 0b0100000#7 rs2 rs1 0b000#3 rd 0b0110011#7
  | .sll rd rs1 rs2 => encR 0b0000000#7 rs2 rs1 0b001#3 rd 0b0110011#7
  | .slt rd rs1 rs2 => encR 0b0000000#7 rs2 rs1 0b010#3 rd 0b0110011#7
  | .sltu rd rs1 rs2 => encR 0b0000000#7 rs2 rs1 0b011#3 rd 0b0110011#7
  | .xor rd rs1 rs2 => encR 0b0000000#7 rs2 rs1 0b100#3 rd 0b0110011#7
  | .srl rd rs1 rs2 => encR 0b0000000#7 rs2 rs1 0b101#3 rd 0b0110011#7
  | .sra rd rs1 rs2 => encR 0b0100000#7 rs2 rs1 0b101#3 rd 0b0110011#7
  | .or rd rs1 rs2 => encR 0b0000000#7 rs2 rs1 0b110#3 rd 0b0110011#7
  | .and rd rs1 rs2 => encR 0b0000000#7 rs2 rs1 0b111#3 rd 0b0110011#7
  | .fence fm pred succ rd rs1 => encFence fm pred succ rs1 rd
  | .fenceI imm rd rs1 => encI imm rs1 0b001#3 rd 0b0001111#7
  | .ecall => 0x00000073#32
  | .ebreak => 0x00100073#32
  | .mul rd rs1 rs2 => encR 0b0000001#7 rs2 rs1 0b000#3 rd 0b0110011#7
  | .mulh rd rs1 rs2 => encR 0b0000001#7 rs2 rs1 0b001#3 rd 0b0110011#7
  | .mulhsu rd rs1 rs2 => encR 0b0000001#7 rs2 rs1 0b010#3 rd 0b0110011#7
  | .mulhu rd rs1 rs2 => encR 0b0000001#7 rs2 rs1 0b011#3 rd 0b0110011#7
  | .div rd rs1 rs2 => encR 0b0000001#7 rs2 rs1 0b100#3 rd 0b0110011#7
  | .divu rd rs1 rs2 => encR 0b0000001#7 rs2 rs1 0b101#3 rd 0b0110011#7
  | .rem rd rs1 rs2 => encR 0b0000001#7 rs2 rs1 0b110#3 rd 0b0110011#7
  | .remu rd rs1 rs2 => encR 0b0000001#7 rs2 rs1 0b111#3 rd 0b0110011#7
  | .lrW aq rl rd rs1 => encAtomic 0b00010#5 aq rl 0 rs1 rd
  | .scW aq rl rd rs1 rs2 => encAtomic 0b00011#5 aq rl rs2 rs1 rd
  | .amoswapW aq rl rd rs1 rs2 => encAtomic 0b00001#5 aq rl rs2 rs1 rd
  | .amoaddW aq rl rd rs1 rs2 => encAtomic 0b00000#5 aq rl rs2 rs1 rd
  | .amoxorW aq rl rd rs1 rs2 => encAtomic 0b00100#5 aq rl rs2 rs1 rd
  | .amoandW aq rl rd rs1 rs2 => encAtomic 0b01100#5 aq rl rs2 rs1 rd
  | .amoorW aq rl rd rs1 rs2 => encAtomic 0b01000#5 aq rl rs2 rs1 rd
  | .amominW aq rl rd rs1 rs2 => encAtomic 0b10000#5 aq rl rs2 rs1 rd
  | .amomaxW aq rl rd rs1 rs2 => encAtomic 0b10100#5 aq rl rs2 rs1 rd
  | .amominuW aq rl rd rs1 rs2 => encAtomic 0b11000#5 aq rl rs2 rs1 rd
  | .amomaxuW aq rl rd rs1 rs2 => encAtomic 0b11100#5 aq rl rs2 rs1 rd
  | .csrrw rd rs1 csr => encCsr csr (BitVec.ofFin rs1) 0b001#3 rd
  | .csrrs rd rs1 csr => encCsr csr (BitVec.ofFin rs1) 0b010#3 rd
  | .csrrc rd rs1 csr => encCsr csr (BitVec.ofFin rs1) 0b011#3 rd
  | .csrrwi rd uimm csr => encCsr csr uimm 0b101#3 rd
  | .csrrsi rd uimm csr => encCsr csr uimm 0b110#3 rd
  | .csrrci rd uimm csr => encCsr csr uimm 0b111#3 rd
  | .mret => 0x30200073#32
  | .wfi => 0x10500073#32

end Sys2Proof
end

