-- ==== Sys2Proof/Config.lean ====
section
/-! DEFINITION. What the implementation fixes: the parameters of 00_scope.md R8 with their defaults, the fixed
addresses and constants, and the free values. -/

namespace Sys2Proof

/-- The OPEN parameters of 00_scope.md R8. They are fixed for one machine; State carries them so that every
statement holds for all of them (log entry 1). -/
structure Params where
  /-- `RAM_BASE`. -/
  ramBase : Word
  /-- `RAM_SIZE`, in bytes; a number, since bounds are tested over the unbounded integers (20_memory.md R71). -/
  ramSize : Nat
  /-- `DTB_PTR`, the value of `x11` at reset. -/
  dtbPtr : Word
  /-- `SYSCON_ADDR`. -/
  syscon : Word
  /-- `TIMERCMP_LO_ADDR`. -/
  timerCmpLo : Word
  /-- `TIMERCMP_HI_ADDR`. -/
  timerCmpHi : Word
  /-- `COUNTER_LO_ADDR`. -/
  counterLo : Word
  /-- `COUNTER_HI_ADDR`. -/
  counterHi : Word
deriving DecidableEq, Repr

namespace Config

/-- The UART data register, fixed (00_scope.md R8, 20_memory.md R82). -/
def uartData : Word := 0x10000000#32

/-- The UART line-status register, fixed (00_scope.md R8, 20_memory.md R82). -/
def uartLsr : Word := 0x10000005#32

/-- `MISA_VALUE`: 32 bits, extensions M, I, A (10_state.md R29; decision D9). -/
def misa : Word := 0x40001101#32

/-- `mhartid`: the one hart has number 0 (10_state.md R39). -/
def hartId : Word := 0x00000000#32

/-- The syscon value that asks for a restart (00_scope.md R8). -/
def restartCode : Word := 0x00007777#32

/-- The syscon value that asks for poweroff (00_scope.md R8). -/
def poweroffCode : Word := 0x00005555#32

/-- What a RAM byte that nothing has written reads as. DESIGN CHOICE, unsafe (log entry 6): the spec leaves RAM
to whatever the host loaded. -/
def unlistedByte : Byte := 0x00#8

/-- The default parameter values of 00_scope.md R8. `dtbPtr` has no default there: DESIGN CHOICE, unsafe
(log entry 2), `RAM_BASE + (RAM_SIZE - blob length)` of 70_reset_and_hazards.md R402 for a blob of length 0. -/
def defaultParams : Params where
  ramBase := 0x80000000#32
  ramSize := 0x04000000
  dtbPtr := 0x84000000#32
  syscon := 0x11100000#32
  timerCmpLo := 0x11004000#32
  timerCmpHi := 0x11004004#32
  counterLo := 0x1100BFF8#32
  counterHi := 0x1100BFFC#32

/-- The value register `r` holds after the `k`-th HOST.Reset made from a running machine, for the registers the
spec leaves "unspecified: any 32-bit value, not necessarily the same at two resets" (10_state.md R56;
93_implementation_defined.md U1). A free value: it has no body, so nothing can be proved of it (log entry 4). -/
opaque resetReg : Nat → Reg → Word

/-- The value of `resv_addr` after the `k`-th HOST.Reset (10_state.md R56; 93_implementation_defined.md U2). A free
value (log entry 4). -/
opaque resetResvAddr : Nat → Word

end Config

/-- "an access of n bytes at address a lies in RAM", over the unbounded integers (20_memory.md R71). -/
def Params.inRam (p : Params) (a : Word) (n : Nat) : Bool :=
  decide (p.ramBase.toNat ≤ a.toNat ∧ a.toNat - p.ramBase.toNat + n ≤ p.ramSize)

/-- The addresses of the register window (20_memory.md R82). -/
def Params.window (p : Params) : List Word :=
  [Config.uartData, Config.uartLsr, p.timerCmpLo, p.timerCmpHi, p.counterLo, p.counterHi, p.syscon]

/-- The constraints of 00_scope.md R8: `RAM_SIZE` a positive multiple of 4, `RAM_BASE + RAM_SIZE <= 2^32`, the
register addresses pairwise different and outside RAM. -/
def Params.legal (p : Params) : Bool :=
  decide (0 < p.ramSize) && decide (p.ramSize % 4 = 0) && decide (p.ramBase.toNat + p.ramSize ≤ 2 ^ 32) &&
    decide p.window.Nodup && p.window.all (fun a => !p.inRam a 1)

end Sys2Proof
end

