-- ==== Sys2Proof/Machine/State.lean ====
section
/-! DEFINITION. The state of the block as plain data (10_state.md R20), the reasons a step can stop, and the state
after reset (R56). -/

namespace Sys2Proof.Machine

/-- The result codes of a step call (60_exceptions.md R331: no other value is ever returned). -/
inductive ResultCode where
  /-- `0x00000000`: the budget is used up. -/
  | continue
  /-- `0x00000001`: WFI executed, or the hart was waiting. -/
  | sleep
  /-- `0x00000003`: a trap was taken. -/
  | trap
  /-- `0x00007777`: restart requested. -/
  | restart
  /-- `0x00005555`: poweroff requested. -/
  | poweroff
deriving DecidableEq, Repr

/-- The arguments of HOST.Step, both unsigned 32-bit numbers (60_exceptions.md R320). -/
structure StepArgs where
  elapsed : Word
  maxInstructions : Word
deriving DecidableEq, Repr

/-- One output event (60_exceptions.md R353). The text of the two print requests is the host's. -/
inductive OutEvent where
  | outByte (b : Byte)
  | printDec (v : Word)
  | printHex (v : Word)
deriving DecidableEq, Repr

/-- The one privilege mode (10_state.md R53). `priv` "is a constant of the model" (93_implementation_defined.md U14):
the type has no other value (log entry 10). -/
inductive Priv where
  /-- Machine mode, `0b11`. -/
  | machine
deriving DecidableEq, Repr

/-- A write of one piece of core state by the host between step calls (00_scope.md R5, R7). -/
inductive CoreWrite where
  | reg (r : Reg) (v : Word)
  | pc (v : Word)
  | counter (v : DWord)
  | timerCompare (v : DWord)
  | mstatus (v : Word)
  | mie (v : Word)
  | mtvec (v : Word)
  | mscratch (v : Word)
  | mepc (v : Word)
  | mcause (v : Word)
  | mtval (v : Word)
  | mip (v : Word)
  | wfi (b : Bool)
  | reservation (valid : Bool) (addr : Word)
deriving DecidableEq, Repr

/-- What the host does between step calls (00_scope.md R5, R6; 60_exceptions.md R360; log entries 8, 9). -/
inductive HostCmd where
  /-- HOST.Step (60_exceptions.md R320). -/
  | stepCall (a : StepArgs)
  /-- HOST.Reset (70_reset_and_hazards.md R400). -/
  | reset
  /-- Appends bytes to the console input queue (10_state.md R54). -/
  | feedInput (bs : List Byte)
  /-- Writes one byte of the memory image (20_memory.md R95). -/
  | writeRam (a : Word) (b : Byte)
  /-- Writes one piece of the core state (00_scope.md R7). -/
  | writeCore (w : CoreWrite)
deriving DecidableEq, Repr

/-- RAM: the bytes written, by guest physical address, strictly rising, none equal to what an unlisted address reads
as (10_state.md R55, 20_memory.md R71; log entry 6). -/
abbrev Memory := List Host.Cell

/-- The state of the block. The first part is 10_state.md R20, item by item; the last six fields are the model's
own (log entries 1, 4, 7, 8). -/
structure State where
  /-- `x[0]` to `x[31]` (R21). Read and written only through `State.x` and `State.setX`. -/
  regs : Vector Word 32
  /-- R23 -/
  pc : Word
  /-- `{cycle_high, cycle_low}` (R24). -/
  counter : DWord
  /-- `{timer_compare_high, timer_compare_low}` (R25). -/
  timerCompare : DWord
  /-- R28 -/
  mstatus : Word
  /-- R30 -/
  mie : Word
  /-- R31 -/
  mtvec : Word
  /-- R32 -/
  mscratch : Word
  /-- R33 -/
  mepc : Word
  /-- R34 -/
  mcause : Word
  /-- R35 -/
  mtval : Word
  /-- R36 -/
  mip : Word
  /-- R51 -/
  wfi : Bool
  /-- R53 -/
  priv : Priv
  /-- R52 -/
  resvValid : Bool
  /-- R52; meaningful only while `resvValid`. -/
  resvAddr : Word
  /-- R55 -/
  mem : Memory
  /-- The console input queue, head first (R54; 60_exceptions.md R350). -/
  consoleIn : List Byte
  /-- The console output log, oldest first (R54; 60_exceptions.md R353). -/
  consoleOut : List OutEvent
  /-- The parameters of 00_scope.md R8; no step changes them. -/
  params : Params
  /-- `some b`: a step call is in flight and may start `b` more instruction slots, `b = max_instructions - n` with
  the `n` of 60_exceptions.md R323. `none`: between calls. -/
  call : Option Word
  /-- The result code of the last call that ended; `none` before the first and while one is in flight. -/
  result : Option ResultCode
  /-- What the host does next, between calls, head first. -/
  hostQueue : List HostCmd
  /-- The call the host makes when its queue is empty. -/
  defaultCall : StepArgs
  /-- How many times HOST.Reset was applied: where the free values after a reset are taken. -/
  resets : Nat
deriving DecidableEq, Repr

/-- Why the machine stops with a fault. No instruction and no exception of the hart does: every exception is a next
state (60_exceptions.md R339, "the core never stops by itself"). -/
inductive Fault where
  /-- Raised by `step` when the host's next command writes a byte at an address the memory image does not have
  (10_state.md R55). Safe: the machine stops (log entry 9). -/
  | noSuchRamByte
deriving DecidableEq, Repr

/-- Why the machine gives no meaning. -/
inductive Refusal where
  /-- Raised by an arm of `exec` for an instruction without a meaning. Safe. No arm does. -/
  | notModelled (mnemonic : String)
  /-- Raised by `step` when the parameters break 00_scope.md R8 (93_implementation_defined.md U11, "refuse"). Safe
  (log entry 11). -/
  | illegalParameters
deriving DecidableEq, Repr

/-- `x10 = 0`, `x11 = DTB_PTR`, and the registers the spec leaves unspecified at 0 (10_state.md R56).
DESIGN CHOICE, unsafe (log entries 2, 3). -/
def State.resetRegs (p : Params) : Vector Word 32 :=
  (Vector.replicate 32 0x00000000#32).set 11 p.dtbPtr

/-- The machine right after reset (10_state.md R56, 70_reset_and_hazards.md R400), with the parameters at their
defaults, nothing loaded in RAM (log entry 6) and no host command queued (log entry 8). The console input queue and
output log start empty: DESIGN CHOICE, unsafe (log entry 14); the spec gives no initial content. -/
def State.reset : State where
  regs := State.resetRegs Config.defaultParams
  pc := Config.defaultParams.ramBase
  counter := 0
  timerCompare := 0
  mstatus := 0x00000000#32
  mie := 0x00000000#32
  mtvec := 0x00000000#32
  mscratch := 0x00000000#32
  mepc := 0x00000000#32
  mcause := 0x00000000#32
  mtval := 0x00000000#32
  mip := 0x00000000#32
  wfi := false
  priv := .machine
  resvValid := false
  resvAddr := 0x00000000#32
  mem := []
  consoleIn := []
  consoleOut := []
  params := Config.defaultParams
  call := none
  result := none
  hostQueue := []
  defaultCall := { elapsed := 0, maxInstructions := 1 }
  resets := 0

end Sys2Proof.Machine
end

