-- ==== Sys2Proof/Machine/Flags.lean ====
section
/-! DEFINITION. The status fields. The hardware has no condition codes (10_state.md R26); what it has are the fields of
`mstatus`, `mie` and `mip` the hardware itself reads or writes (R28, R30, R36), and these are their readings and
updates. -/

namespace Sys2Proof.Machine

/-- `v` with bit `k` replaced by `b`, every other bit kept. -/
def withBit (v : Word) (k : Nat) (b : Bool) : Word :=
  if b then v ||| (1#32 <<< k) else v &&& ~~~(1#32 <<< k)

/-- `mstatus.MIE`, bit 3 (R28). -/
def mstatusMie (m : Word) : Bool := m.getLsbD 3

/-- `mstatus.MPIE`, bit 7 (R28). -/
def mstatusMpie (m : Word) : Bool := m.getLsbD 7

/-- `mie.MTIE`, bit 7 (R30). -/
def mieMtie (m : Word) : Bool := m.getLsbD 7

/-- `mip.MTIP`, bit 7 (R36). -/
def mipMtip (m : Word) : Bool := m.getLsbD 7

/-- `MPP <- 0b11`, bits 12:11 (R28). -/
def withMppMachine (m : Word) : Word := withBit (withBit m 11 true) 12 true

/-- `mstatus` on trap entry: MPIE gets MIE, MIE gets 0, MPP gets machine (60_exceptions.md R336). -/
def mstatusTrapEntry (m : Word) : Word :=
  withMppMachine (withBit (withBit m 7 (mstatusMie m)) 3 false)

/-- `mstatus` on MRET: MIE gets MPIE, MPIE gets 1, MPP gets machine (45_system_csr.md R301). -/
def mstatusReturn (m : Word) : Word :=
  withMppMachine (withBit (withBit m 3 (mstatusMpie m)) 7 true)

/-- What a CSR write of `v` leaves in `mip`: `{v[31:8], mip[7], v[6:0]}` (10_state.md R36). -/
def mipCsrWrite (old v : Word) : Word :=
  v.extractLsb' 8 24 ++ old.extractLsb' 7 1 ++ v.extractLsb' 0 7

/-- What the timer sampling leaves in `mip` (60_exceptions.md R326). -/
def mipSampled (old : Word) (pending : Bool) : Word := withBit old 7 pending

end Sys2Proof.Machine
end

