-- ==== Sys2Proof/Machine/Operands.lean ====
section
/-! DEFINITION. Operand values: the immediates as the 32-bit values of 30_encoding.md R122 to R129, the register
operands (10_state.md R21, R22), the effective address (42_load_store.md R220), the shift count, and the access
widths (20_memory.md R78). -/

namespace Sys2Proof.Machine

/-- The value of `imm_I` and `imm_S`: 12 bits, sign-extended (30_encoding.md R122, R123). -/
def immValue (imm : BitVec 12) : Word := imm.signExtend 32

/-- The value of `imm_B`: 13 bits, sign-extended (R124). -/
def offBValue (off : BitVec 13) : Word := off.signExtend 32

/-- The value of `imm_U`: `{ir[31:12], 0x000}` (R125). -/
def immUValue (imm20 : BitVec 20) : Word := imm20 ++ 0x000#12

/-- The value of `imm_J`: 21 bits, sign-extended (R126). -/
def offJValue (off : BitVec 21) : Word := off.signExtend 32

/-- The value of `uimm`: 5 bits, zero-extended (R129). -/
def uimmValue (uimm : BitVec 5) : Word := uimm.zeroExtend 32

/-- "shifts use only the low 5 bits of the shift amount" (00_scope.md R10, 40_integer_computational.md R174). -/
def shiftCount (v : Word) : Nat := (v.extractLsb' 0 5).toNat

/-- A comparison as the 32-bit 0 or 1 (40_integer_computational.md R164). -/
def truthWord (b : Bool) : Word := if b then 1#32 else 0#32

/-- The access widths 1, 2, 4 (20_memory.md R78). -/
inductive Width where
  | byte
  | half
  | word
deriving DecidableEq, Repr

/-- The width in bytes. -/
def Width.bytes : Width → Nat
  | .byte => 1
  | .half => 2
  | .word => 4

/-- The width in bits, `8n`. -/
def Width.bits : Width → Nat
  | .byte => 8
  | .half => 16
  | .word => 32

/-- The sign extension of the low `8n` bits (00_scope.md R10 `sext_32`). -/
def Width.signExtend (w : Width) (m : Word) : Word := (m.setWidth w.bits).signExtend 32

/-- The zero extension of the low `8n` bits (00_scope.md R10 `zext_32`). -/
def Width.zeroExtend (w : Width) (m : Word) : Word := (m.setWidth w.bits).zeroExtend 32

/-- "A halfword access needs an address that is a multiple of 2, a word access a multiple of 4, a byte access any
address" (20_memory.md R75). -/
def Width.aligned (w : Width) (a : Word) : Bool := a.toNat % w.bytes == 0

/-- `x[i]`: `x[0]` gives 0 whatever is stored (10_state.md R21, 00_scope.md R12). -/
def State.x (s : State) (r : Reg) : Word := if r = 0 then 0x00000000#32 else s.regs[r]

/-- `x[i] <- v`: a write to `x0` is discarded (10_state.md R21, 00_scope.md R12). -/
def State.setX (s : State) (r : Reg) (v : Word) : State :=
  if r = 0 then s else { s with regs := s.regs.set r v }

/-- The effective address, base plus immediate modulo 2^32 (42_load_store.md R220, 20_memory.md R77). -/
def effAddr (s : State) (rs1 : Reg) (imm : BitVec 12) : Word := s.x rs1 + immValue imm

end Sys2Proof.Machine
end

