-- ==== Sys2Proof/Machine/Ops.lean ====
section
/-! DEFINITION. The named operations over the state: completing an instruction, memory, taking a trap and returning
from one, the load, store and atomic paths, the intercept controller's devices, the CSR file, and HOST.Reset. -/

namespace Sys2Proof.Machine

/-! ## Completing an instruction -/

/-- `pc <- pc + 4` modulo 2^32 (00_scope.md R12, 10_state.md R23). -/
def State.nextPc (s : State) : State := { s with pc := s.pc + 4 }

/-- `x[rd] <- v; pc <- pc + 4`: how most instructions end (00_scope.md R12). -/
def State.retire (s : State) (rd : Reg) (v : Word) : State := (s.setX rd v).nextPc

/-- The step call ends with result code `r` (60_exceptions.md R329, R331). -/
def State.endCall (s : State) (r : ResultCode) : State := { s with call := none, result := some r }

/-- The number of a result code (60_exceptions.md R331). -/
def ResultCode.code : ResultCode → Word
  | .continue => 0x00000000#32
  | .sleep => 0x00000001#32
  | .trap => 0x00000003#32
  | .restart => Config.restartCode
  | .poweroff => Config.poweroffCode

/-! ## Privilege and the packed flags -/

/-- The two bits of the mode (10_state.md R53). -/
def Priv.bits : Priv → BitVec 2
  | .machine => 0b11#2

/-- The packed view `{28 zero bits, resv_valid, priv, wfi}` (10_state.md R50; decision D34). -/
def State.extraflags (s : State) : Word :=
  0#28 ++ BitVec.ofBool s.resvValid ++ s.priv.bits ++ BitVec.ofBool s.wfi

/-! ## The counter -/

/-- `cycle_low = counter[31:0]` (10_state.md R24). -/
def cycleLow (c : DWord) : Word := c.extractLsb' 0 32

/-- `cycle_high = counter[63:32]` (10_state.md R24). -/
def cycleHigh (c : DWord) : Word := c.extractLsb' 32 32

/-- `counter <- counter + zext_64(v)`, one 64-bit addition (10_state.md R24). -/
def State.addCounter (s : State) (v : Word) : State := { s with counter := s.counter + v.zeroExtend 64 }

/-! ## Memory -/

/-- The byte at an address; one that nothing has written reads `Config.unlistedByte`. -/
def Memory.read : Memory → Nat → Byte
  | [], _ => Config.unlistedByte
  | (k, b) :: m, a => if a = k then b else Memory.read m a

/-- Writes one byte, keeping the canonical form. -/
def Memory.write : Memory → Nat → Byte → Memory
  | [], a, b => if b = Config.unlistedByte then [] else [(a, b)]
  | (k, c) :: m, a, b =>
    if a < k then (if b = Config.unlistedByte then (k, c) :: m else (a, b) :: (k, c) :: m)
    else if a = k then (if b = Config.unlistedByte then m else (a, b) :: m)
    else (k, c) :: Memory.write m a b

/-- The canonical form: addresses strictly rising, no entry equal to what an unlisted address reads as. -/
def Memory.wf : Memory → Bool
  | [] => true
  | (k, b) :: m => (b != Config.unlistedByte) && m.all (fun c => decide (k < c.1)) && Memory.wf m

/-- Every listed byte is a byte of RAM (10_state.md R55). -/
def Memory.within (p : Params) (m : Memory) : Bool :=
  m.all (fun c => decide (p.ramBase.toNat ≤ c.1 ∧ c.1 < p.ramBase.toNat + p.ramSize))

/-- `MemRead(a, n)`, little-endian, as a zero-extended word (20_memory.md R72). -/
def Memory.readLE (m : Memory) (a : Nat) : Width → Word
  | .byte => (m.read a).zeroExtend 32
  | .half => (m.read (a + 1) ++ m.read a).zeroExtend 32
  | .word => m.read (a + 3) ++ m.read (a + 2) ++ m.read (a + 1) ++ m.read a

/-- `MemWrite(a, n, v)`, little-endian, the low `8n` bits of `v` (20_memory.md R73). -/
def Memory.writeLE (m : Memory) (a : Nat) (v : Word) : Width → Memory
  | .byte => m.write a (byteOf v 0)
  | .half => (m.write a (byteOf v 0)).write (a + 1) (byteOf v 1)
  | .word => (((m.write a (byteOf v 0)).write (a + 1) (byteOf v 1)).write (a + 2) (byteOf v 2)).write (a + 3) (byteOf v 3)

/-- `InRam(a, n)` (20_memory.md R71). -/
def State.inRam (s : State) (a : Word) (w : Width) : Bool := s.params.inRam a w.bytes

/-- The value of `MemRead` at an address. -/
def State.memRead (s : State) (a : Word) (w : Width) : Word := s.mem.readLE a.toNat w

/-- The effect of `MemWrite` at an address. -/
def State.memWrite (s : State) (a : Word) (v : Word) (w : Width) : State :=
  { s with mem := s.mem.writeLE a.toNat v w }

/-! ## Exceptions, trap entry and return -/

/-- The synchronous exceptions (60_exceptions.md R332, 00_scope.md R13). -/
inductive Exception where
  | instrAddrMisaligned
  | instrAccessFault
  | illegalInstruction
  | breakpoint
  | loadAddrMisaligned
  | loadAccessFault
  | storeAddrMisaligned
  | storeAccessFault
  | ecallM
deriving DecidableEq, Repr

/-- The cause code of an exception, bit 31 clear (60_exceptions.md R332). -/
def Exception.code : Exception → Word
  | .instrAddrMisaligned => 0x00000000#32
  | .instrAccessFault => 0x00000001#32
  | .illegalInstruction => 0x00000002#32
  | .breakpoint => 0x00000003#32
  | .loadAddrMisaligned => 0x00000004#32
  | .loadAccessFault => 0x00000005#32
  | .storeAddrMisaligned => 0x00000006#32
  | .storeAccessFault => 0x00000007#32
  | .ecallM => 0x0000000B#32

/-- The cause of the machine timer interrupt (60_exceptions.md R333). -/
def timerCause : Word := 0x80000007#32

/-- `TrapVector(cause)` (60_exceptions.md R337). -/
def trapVector (mtvec cause : Word) : Word :=
  let base : Word := mtvec.extractLsb' 2 30 ++ 0b00#2
  if mtvec.extractLsb' 0 2 = 0b01#2 ∧ cause.getLsbD 31 = true then
    base + 4#32 * (cause.extractLsb' 0 31).zeroExtend 32
  else base

/-- `TakeTrap(cause, epc, tval)` (60_exceptions.md R336). -/
def takeTrap (cause epc tval : Word) (s : State) : State :=
  { s with
    mepc := epc
    mcause := cause
    mtval := tval
    mstatus := mstatusTrapEntry s.mstatus
    resvValid := false
    pc := trapVector s.mtvec cause }

/-- `raise E(tval)` inside an instruction slot: trap entry with the address of the raising instruction, and the call
ends with code 3 (60_exceptions.md R329). The post-execute hook is the identity (R345; log entry 13). -/
def raise (e : Exception) (tval : Word) (s : State) : State :=
  (takeTrap e.code s.pc tval s).endCall .trap

/-- MRET's return: `pc` gets all 32 bits of `mepc`, the status is unstacked (45_system_csr.md R301). -/
def trapReturn (s : State) : State := { s with pc := s.mepc, mstatus := mstatusReturn s.mstatus }

/-! ## Console devices -/

/-- Appends one event to the output log (60_exceptions.md R353). -/
def State.emit (s : State) (e : OutEvent) : State := { s with consoleOut := s.consoleOut ++ [e] }

/-- `InputReady()` (60_exceptions.md R350). -/
def State.inputReady (s : State) : Bool := !s.consoleIn.isEmpty

/-- The bytes a string print emits from offset address `a`, at most `fuel` of them: up to the first zero byte
(60_exceptions.md R355). -/
def stringBytes (m : Memory) : Nat → Nat → List Byte
  | 0, _ => []
  | fuel + 1, a => if m.read a = 0x00#8 then [] else m.read a :: stringBytes m fuel (a + 1)

/-- `PrintStr(v)`: the scan starts at offset `v - RAM_BASE` and is bounded by `RAM_SIZE` (60_exceptions.md R355). -/
def printStr (v : Word) (s : State) : State :=
  if v.toNat < s.params.ramBase.toNat then s
  else
    { s with
      consoleOut := s.consoleOut ++
        (stringBytes s.mem (s.params.ramSize - (v.toNat - s.params.ramBase.toNat)) v.toNat).map .outByte }

/-! ## The data load path -/

/-- Loads from the core's own registers; `none` when `a` is not one of them (20_memory.md R83). -/
def coreLoad (a : Word) (s : State) : Option Word :=
  if a = s.params.timerCmpLo then some (s.timerCompare.extractLsb' 0 32)
  else if a = s.params.timerCmpHi then some (s.timerCompare.extractLsb' 32 32)
  else if a = s.params.counterLo then some (cycleLow s.counter)
  else if a = s.params.counterHi then some (cycleHigh s.counter)
  else if a = s.params.syscon then some 0x00000000#32
  else none

/-- The next input byte zero-extended, consumed; `none` when no input is available (60_exceptions.md R350). -/
def inputByte (s : State) : Option (Word × State) :=
  match s.consoleIn with
  | [] => none
  | b :: bs => some (b.zeroExtend 32, { s with consoleIn := bs })

/-- `ControlLoad(a)`; `none` is NotClaimed (20_memory.md R85). -/
def controlLoad (a : Word) (s : State) : Option (Word × State) :=
  if a = Config.uartLsr then some (0x00000060#32 ||| truthWord s.inputReady, s)
  else if a = Config.uartData then some ((inputByte s).getD (0x00000000#32, s))
  else none

/-- What the load path answers (20_memory.md R80): a claimed value with the state after the read's side effect, a
memory value, or an exception. -/
inductive LoadOutcome where
  | claimed (v : Word) (s : State)
  | mem (m : Word)
  | raised (e : Exception)
deriving DecidableEq, Repr

/-- `Load(a, n)` (20_memory.md R80): core registers, intercept controller, alignment, bounds, RAM. -/
def load (w : Width) (a : Word) (s : State) : LoadOutcome :=
  match coreLoad a s with
  | some v => .claimed v s
  | none =>
    match controlLoad a s with
    | some (v, t) => .claimed v t
    | none =>
      if !w.aligned a then .raised .loadAddrMisaligned
      else if !s.inRam a w then .raised .loadAccessFault
      else .mem (s.memRead a w)

/-- A load instruction: a claimed value is written unextended, a memory value through `ext`
(42_load_store.md R220, R221 to R225). -/
def loadInto (w : Width) (ext : Word → Word) (rd : Reg) (a : Word) (s : State) : State :=
  match load w a s with
  | .claimed v t => t.retire rd v
  | .mem m => s.retire rd (ext m)
  | .raised e => raise e a s

/-! ## The data store path -/

/-- What the store path answers (20_memory.md R81): the store is done, it is done and requests a halt, or an
exception. -/
inductive StoreOutcome where
  | done (s : State)
  | halt (r : ResultCode) (s : State)
  | raised (e : Exception)
deriving DecidableEq, Repr

/-- Stores to the core's own registers; `none` when `a` is not one of them (20_memory.md R83). -/
def coreStore (a v : Word) (s : State) : Option StoreOutcome :=
  if a = s.params.timerCmpLo then some (.done { s with timerCompare := s.timerCompare.extractLsb' 32 32 ++ v })
  else if a = s.params.timerCmpHi then some (.done { s with timerCompare := v ++ s.timerCompare.extractLsb' 0 32 })
  else if a = s.params.counterLo then some (.done s)
  else if a = s.params.counterHi then some (.done s)
  else if a = s.params.syscon then
    if v = Config.restartCode then some (.halt .restart s)
    else if v = Config.poweroffCode then some (.halt .poweroff s)
    else some (.done s)
  else none

/-- `ControlStore(a, v)`; `none` is not claimed (20_memory.md R84). -/
def controlStore (a v : Word) (s : State) : Option State :=
  if a = Config.uartData then some (s.emit (.outByte (byteOf v 0))) else none

/-- `Store(a, n, v)` (20_memory.md R81). -/
def store (w : Width) (a v : Word) (s : State) : StoreOutcome :=
  match coreStore a v s with
  | some o => o
  | none =>
    match controlStore a v s with
    | some t => .done t
    | none =>
      if !w.aligned a then .raised .storeAddrMisaligned
      else if !s.inRam a w then .raised .storeAccessFault
      else .done (s.memWrite a v w)

/-- A store instruction; a halt request completes the store and then ends the call (20_memory.md R83,
60_exceptions.md R329). -/
def storeFrom (w : Width) (a v : Word) (s : State) : State :=
  match store w a v s with
  | .done t => t.nextPc
  | .halt r t => t.nextPc.endCall r
  | .raised e => raise e a s

/-! ## The atomics' path -/

/-- Which exceptions an atomic's address check raises: as a load for LR.W, as a store for the others
(20_memory.md R87). -/
inductive AtomicKind where
  | load
  | store
deriving DecidableEq, Repr

/-- `AtomicCheck(a, kind)`; `none` when it passes (20_memory.md R87). -/
def atomicCheck (kind : AtomicKind) (a : Word) (s : State) : Option Exception :=
  if !Width.word.aligned a then
    some (match kind with | .load => .loadAddrMisaligned | .store => .storeAddrMisaligned)
  else if !s.inRam a .word then
    some (match kind with | .load => .loadAccessFault | .store => .storeAccessFault)
  else none

/-- The AMO sequencer: check, read, write `f(t, v)`, `rd` gets the old word (44_atomics.md R272). -/
def amo (f : Word → Word → Word) (rd rs1 rs2 : Reg) (s : State) : State :=
  let a := s.x rs1
  let v := s.x rs2
  match atomicCheck .store a s with
  | some e => raise e a s
  | none => (s.memWrite a (f (s.memRead a .word) v) .word).retire rd (s.memRead a .word)

/-! ## The CSR file -/

/-- `CustomCsrRead(n)` (60_exceptions.md R351). -/
def customCsrRead (n : CsrNum) (s : State) : Word × State :=
  if n = 0x140#12 then (inputByte s).getD (0xFFFFFFFF#32, s) else (0x00000000#32, s)

/-- `CsrRead(n)`: the value, and the state after the read's side effect (10_state.md R44). -/
def csrRead (n : CsrNum) (s : State) : Word × State :=
  match n with
  | 0x300#12 => (s.mstatus, s)
  | 0x301#12 => (Config.misa, s)
  | 0x304#12 => (s.mie, s)
  | 0x305#12 => (s.mtvec, s)
  | 0x340#12 => (s.mscratch, s)
  | 0x341#12 => (s.mepc, s)
  | 0x342#12 => (s.mcause, s)
  | 0x343#12 => (s.mtval, s)
  | 0x344#12 => (s.mip, s)
  | 0xC00#12 => (cycleLow s.counter, s)
  | 0xC80#12 => (cycleHigh s.counter, s)
  | 0xF14#12 => (Config.hartId, s)
  | n => customCsrRead n s

/-- `CustomCsrWrite(n, v)` (60_exceptions.md R352). -/
def customCsrWrite (n : CsrNum) (v : Word) (s : State) : State :=
  match n with
  | 0x136#12 => s.emit (.printDec v)
  | 0x137#12 => s.emit (.printHex v)
  | 0x138#12 => printStr v s
  | 0x139#12 => s.emit (.outByte (byteOf v 0))
  | _ => s

/-- `CsrWrite(n, v)` (10_state.md R45). -/
def csrWrite (n : CsrNum) (v : Word) (s : State) : State :=
  match n with
  | 0x300#12 => { s with mstatus := v }
  | 0x301#12 => s
  | 0x304#12 => { s with mie := v }
  | 0x305#12 => { s with mtvec := v }
  | 0x340#12 => { s with mscratch := v }
  | 0x341#12 => { s with mepc := v }
  | 0x342#12 => { s with mcause := v }
  | 0x343#12 => { s with mtval := v }
  | 0x344#12 => { s with mip := mipCsrWrite s.mip v }
  | 0xC00#12 => s
  | 0xC80#12 => s
  | 0xF14#12 => s
  | n => customCsrWrite n v s

/-- The common rule of the six CSR instructions: read, operate, write, `rd` gets the old value; both accesses always
happen (45_system_csr.md R290). -/
def csrAccess (op : Word → Word → Word) (rd : Reg) (n : CsrNum) (src : Word) (s : State) : State :=
  let r := csrRead n s
  (csrWrite n (op r.1 src) r.2).retire rd r.1

/-! ## HOST.Reset -/

/-- The registers after a HOST.Reset of a running machine: `x10 = 0`, `x11 = DTB_PTR`, the others free values
(10_state.md R56, 70_reset_and_hazards.md R400; log entry 4). -/
def hostResetRegs (k : Nat) (p : Params) : Vector Word 32 :=
  (((Vector.ofFn (Config.resetReg k)).set 0 0x00000000#32).set 10 Config.hartId).set 11 p.dtbPtr

/-- HOST.Reset: RAM, the console and the parameters are left alone (70_reset_and_hazards.md R400, R405). -/
def hostReset (s : State) : State :=
  { s with
    regs := hostResetRegs s.resets s.params
    pc := s.params.ramBase
    counter := 0
    timerCompare := 0
    mstatus := 0x00000000#32
    mie := 0x00000000#32
    mtvec := 0x00000000#32
    mscratch := 0x00000000#32
    mepc := 0x00000000#32
    mcause := 0x00000000#32
    mtval := 0x00000000#32
    mip := 0x00000000#32
    wfi := false
    priv := .machine
    resvValid := false
    resvAddr := Config.resetResvAddr s.resets
    resets := s.resets + 1 }

/-- A host write of one piece of the core state (00_scope.md R5, R7). -/
def coreWrite (w : CoreWrite) (s : State) : State :=
  match w with
  | .reg r v => s.setX r v
  | .pc v => { s with pc := v }
  | .counter v => { s with counter := v }
  | .timerCompare v => { s with timerCompare := v }
  | .mstatus v => { s with mstatus := v }
  | .mie v => { s with mie := v }
  | .mtvec v => { s with mtvec := v }
  | .mscratch v => { s with mscratch := v }
  | .mepc v => { s with mepc := v }
  | .mcause v => { s with mcause := v }
  | .mtval v => { s with mtval := v }
  | .mip v => { s with mip := v }
  | .wfi b => { s with wfi := b }
  | .reservation valid addr => { s with resvValid := valid, resvAddr := addr }

end Sys2Proof.Machine
end

