-- ==== Sys2Proof/Machine/Atomics.lean ====
section
/-! DEFINITION. The atomic instructions (44_atomics.md R260 to R272). `aq` and `rl` have no effect (R260), so no meaning takes
them. -/

namespace Sys2Proof.Machine

open Host (Outcome)

/-- LR.W: loads the word and takes the reservation (R261). -/
def execLrW (rd rs1 : Reg) (s : State) : Outcome State Fault Refusal :=
  match atomicCheck .load (s.x rs1) s with
  | some e => .next (raise e (s.x rs1) s)
  | none => .next { s.retire rd (s.memRead (s.x rs1) .word) with resvValid := true, resvAddr := s.x rs1 }

/-- SC.W: stores and answers 0 when the reservation is held for exactly this address, else answers 1; clears the
reservation either way (R262). -/
def execScW (rd rs1 rs2 : Reg) (s : State) : Outcome State Fault Refusal :=
  match atomicCheck .store (s.x rs1) s with
  | some e => .next (raise e (s.x rs1) s)
  | none =>
    if s.resvValid = true ∧ s.resvAddr = s.x rs1 then
      .next { (s.memWrite (s.x rs1) (s.x rs2) .word).retire rd 0x00000000#32 with resvValid := false }
    else .next { s.retire rd 0x00000001#32 with resvValid := false }

/-- The signed minimum: `(t <s v) ? t : v` (R268). -/
def minSigned (t v : Word) : Word := if t.slt v then t else v

/-- The signed maximum: `(t <s v) ? v : t` (R269). -/
def maxSigned (t v : Word) : Word := if t.slt v then v else t

/-- The unsigned minimum: `(t <u v) ? t : v` (R270). -/
def minUnsigned (t v : Word) : Word := if t.ult v then t else v

/-- The unsigned maximum: `(t <u v) ? v : t` (R271). -/
def maxUnsigned (t v : Word) : Word := if t.ult v then v else t

/-- AMOSWAP.W: `f(t, v) = v` (R263). -/
def execAmoswapW (rd rs1 rs2 : Reg) (s : State) : Outcome State Fault Refusal :=
  .next (amo (fun _ v => v) rd rs1 rs2 s)

/-- AMOADD.W (R264). -/
def execAmoaddW (rd rs1 rs2 : Reg) (s : State) : Outcome State Fault Refusal :=
  .next (amo (fun t v => t + v) rd rs1 rs2 s)

/-- AMOXOR.W (R265). -/
def execAmoxorW (rd rs1 rs2 : Reg) (s : State) : Outcome State Fault Refusal :=
  .next (amo (fun t v => t ^^^ v) rd rs1 rs2 s)

/-- AMOAND.W (R266). -/
def execAmoandW (rd rs1 rs2 : Reg) (s : State) : Outcome State Fault Refusal :=
  .next (amo (fun t v => t &&& v) rd rs1 rs2 s)

/-- AMOOR.W (R267). -/
def execAmoorW (rd rs1 rs2 : Reg) (s : State) : Outcome State Fault Refusal :=
  .next (amo (fun t v => t ||| v) rd rs1 rs2 s)

/-- AMOMIN.W (R268). -/
def execAmominW (rd rs1 rs2 : Reg) (s : State) : Outcome State Fault Refusal :=
  .next (amo minSigned rd rs1 rs2 s)

/-- AMOMAX.W (R269). -/
def execAmomaxW (rd rs1 rs2 : Reg) (s : State) : Outcome State Fault Refusal :=
  .next (amo maxSigned rd rs1 rs2 s)

/-- AMOMINU.W (R270). -/
def execAmominuW (rd rs1 rs2 : Reg) (s : State) : Outcome State Fault Refusal :=
  .next (amo minUnsigned rd rs1 rs2 s)

/-- AMOMAXU.W (R271). -/
def execAmomaxuW (rd rs1 rs2 : Reg) (s : State) : Outcome State Fault Refusal :=
  .next (amo maxUnsigned rd rs1 rs2 s)

end Sys2Proof.Machine
end

