-- ==== Sys2Proof/Machine/ControlTransfer.lean ====
section
/-! DEFINITION. The control transfer instructions (41_control_transfer.md R200 to R209). A bad target is written to `pc` like any
other and raises at the next fetch (R200; decision D22). -/

namespace Sys2Proof.Machine

open Host (Outcome)

/-- JAL: link, then `pc + imm_J` (R201). -/
def execJal (rd : Reg) (off : BitVec 21) (s : State) : Outcome State Fault Refusal :=
  .next { s.setX rd (s.pc + 4) with pc := s.pc + offJValue off }

/-- JALR: the target is computed from the old register, bit 0 of the sum is cleared (R202). -/
def execJalr (rd rs1 : Reg) (imm : BitVec 12) (s : State) : Outcome State Fault Refusal :=
  .next { s.setX rd (s.pc + 4) with pc := effAddr s rs1 imm &&& 0xFFFFFFFE#32 }

/-- A branch: `pc + imm_B` when taken, else `pc + 4` (R203 to R208). -/
def branch (taken : Bool) (off : BitVec 13) (s : State) : State :=
  if taken then { s with pc := s.pc + offBValue off } else s.nextPc

/-- BEQ (R203). -/
def execBeq (rs1 rs2 : Reg) (off : BitVec 13) (s : State) : Outcome State Fault Refusal :=
  .next (branch (s.x rs1 == s.x rs2) off s)

/-- BNE (R204). -/
def execBne (rs1 rs2 : Reg) (off : BitVec 13) (s : State) : Outcome State Fault Refusal :=
  .next (branch (s.x rs1 != s.x rs2) off s)

/-- BLT, signed (R205). -/
def execBlt (rs1 rs2 : Reg) (off : BitVec 13) (s : State) : Outcome State Fault Refusal :=
  .next (branch ((s.x rs1).slt (s.x rs2)) off s)

/-- BGE, signed (R206). -/
def execBge (rs1 rs2 : Reg) (off : BitVec 13) (s : State) : Outcome State Fault Refusal :=
  .next (branch (!(s.x rs1).slt (s.x rs2)) off s)

/-- BLTU, unsigned (R207). -/
def execBltu (rs1 rs2 : Reg) (off : BitVec 13) (s : State) : Outcome State Fault Refusal :=
  .next (branch ((s.x rs1).ult (s.x rs2)) off s)

/-- BGEU, unsigned (R208). -/
def execBgeu (rs1 rs2 : Reg) (off : BitVec 13) (s : State) : Outcome State Fault Refusal :=
  .next (branch (!(s.x rs1).ult (s.x rs2)) off s)

end Sys2Proof.Machine
end

