-- ==== Sys2Proof/Machine/IntComp.lean ====
section
/-! DEFINITION. The integer computational instructions (40_integer_computational.md R160 to R182): none raises, every one
ends with `pc <- pc + 4`. -/

namespace Sys2Proof.Machine

open Host (Outcome)

/-- LUI: `x[rd] <- imm_U` (R161). -/
def execLui (rd : Reg) (imm20 : BitVec 20) (s : State) : Outcome State Fault Refusal :=
  .next (s.retire rd (immUValue imm20))

/-- AUIPC: `x[rd] <- pc + imm_U`, the `pc` of the instruction itself (R162). -/
def execAuipc (rd : Reg) (imm20 : BitVec 20) (s : State) : Outcome State Fault Refusal :=
  .next (s.retire rd (s.pc + immUValue imm20))

/-- ADDI: `x[rs1] + imm_I` modulo 2^32 (R163). -/
def execAddi (rd rs1 : Reg) (imm : BitVec 12) (s : State) : Outcome State Fault Refusal :=
  .next (s.retire rd (s.x rs1 + immValue imm))

/-- SLTI: signed comparison (R164). -/
def execSlti (rd rs1 : Reg) (imm : BitVec 12) (s : State) : Outcome State Fault Refusal :=
  .next (s.retire rd (truthWord ((s.x rs1).slt (immValue imm))))

/-- SLTIU: unsigned comparison with the sign-extended immediate (R165). -/
def execSltiu (rd rs1 : Reg) (imm : BitVec 12) (s : State) : Outcome State Fault Refusal :=
  .next (s.retire rd (truthWord ((s.x rs1).ult (immValue imm))))

/-- XORI (R166). -/
def execXori (rd rs1 : Reg) (imm : BitVec 12) (s : State) : Outcome State Fault Refusal :=
  .next (s.retire rd (s.x rs1 ^^^ immValue imm))

/-- ORI (R167). -/
def execOri (rd rs1 : Reg) (imm : BitVec 12) (s : State) : Outcome State Fault Refusal :=
  .next (s.retire rd (s.x rs1 ||| immValue imm))

/-- ANDI (R168). -/
def execAndi (rd rs1 : Reg) (imm : BitVec 12) (s : State) : Outcome State Fault Refusal :=
  .next (s.retire rd (s.x rs1 &&& immValue imm))

/-- SLLI (R169). -/
def execSlli (rd rs1 : Reg) (shamt : BitVec 5) (s : State) : Outcome State Fault Refusal :=
  .next (s.retire rd (s.x rs1 <<< shamt.toNat))

/-- SRLI: zeros enter (R170). -/
def execSrli (rd rs1 : Reg) (shamt : BitVec 5) (s : State) : Outcome State Fault Refusal :=
  .next (s.retire rd (s.x rs1 >>> shamt.toNat))

/-- SRAI: copies of bit 31 enter (R171). -/
def execSrai (rd rs1 : Reg) (shamt : BitVec 5) (s : State) : Outcome State Fault Refusal :=
  .next (s.retire rd ((s.x rs1).sshiftRight shamt.toNat))

/-- ADD (R172). -/
def execAdd (rd rs1 rs2 : Reg) (s : State) : Outcome State Fault Refusal :=
  .next (s.retire rd (s.x rs1 + s.x rs2))

/-- SUB (R173). -/
def execSub (rd rs1 rs2 : Reg) (s : State) : Outcome State Fault Refusal :=
  .next (s.retire rd (s.x rs1 - s.x rs2))

/-- SLL: the count is the low 5 bits of `x[rs2]` (R174). -/
def execSll (rd rs1 rs2 : Reg) (s : State) : Outcome State Fault Refusal :=
  .next (s.retire rd (s.x rs1 <<< shiftCount (s.x rs2)))

/-- SLT: signed comparison (R175). -/
def execSlt (rd rs1 rs2 : Reg) (s : State) : Outcome State Fault Refusal :=
  .next (s.retire rd (truthWord ((s.x rs1).slt (s.x rs2))))

/-- SLTU: unsigned comparison (R176). -/
def execSltu (rd rs1 rs2 : Reg) (s : State) : Outcome State Fault Refusal :=
  .next (s.retire rd (truthWord ((s.x rs1).ult (s.x rs2))))

/-- XOR (R177). -/
def execXor (rd rs1 rs2 : Reg) (s : State) : Outcome State Fault Refusal :=
  .next (s.retire rd (s.x rs1 ^^^ s.x rs2))

/-- SRL (R178). -/
def execSrl (rd rs1 rs2 : Reg) (s : State) : Outcome State Fault Refusal :=
  .next (s.retire rd (s.x rs1 >>> shiftCount (s.x rs2)))

/-- SRA (R179). -/
def execSra (rd rs1 rs2 : Reg) (s : State) : Outcome State Fault Refusal :=
  .next (s.retire rd ((s.x rs1).sshiftRight (shiftCount (s.x rs2))))

/-- OR (R180). -/
def execOr (rd rs1 rs2 : Reg) (s : State) : Outcome State Fault Refusal :=
  .next (s.retire rd (s.x rs1 ||| s.x rs2))

/-- AND (R181). -/
def execAnd (rd rs1 rs2 : Reg) (s : State) : Outcome State Fault Refusal :=
  .next (s.retire rd (s.x rs1 &&& s.x rs2))

end Sys2Proof.Machine
end

