-- ==== Sys2Proof/Machine/LoadStore.lean ====
section
/-! DEFINITION. Loads, stores and fences (42_load_store.md R220 to R230) over the paths of 20_memory.md R80 and R81. -/

namespace Sys2Proof.Machine

open Host (Outcome)

/-- LB (R221). -/
def execLb (rd rs1 : Reg) (imm : BitVec 12) (s : State) : Outcome State Fault Refusal :=
  .next (loadInto .byte Width.byte.signExtend rd (effAddr s rs1 imm) s)

/-- LH (R222). -/
def execLh (rd rs1 : Reg) (imm : BitVec 12) (s : State) : Outcome State Fault Refusal :=
  .next (loadInto .half Width.half.signExtend rd (effAddr s rs1 imm) s)

/-- LW (R223). -/
def execLw (rd rs1 : Reg) (imm : BitVec 12) (s : State) : Outcome State Fault Refusal :=
  .next (loadInto .word id rd (effAddr s rs1 imm) s)

/-- LBU (R224). -/
def execLbu (rd rs1 : Reg) (imm : BitVec 12) (s : State) : Outcome State Fault Refusal :=
  .next (loadInto .byte Width.byte.zeroExtend rd (effAddr s rs1 imm) s)

/-- LHU (R225). -/
def execLhu (rd rs1 : Reg) (imm : BitVec 12) (s : State) : Outcome State Fault Refusal :=
  .next (loadInto .half Width.half.zeroExtend rd (effAddr s rs1 imm) s)

/-- SB (R226). -/
def execSb (rs1 rs2 : Reg) (imm : BitVec 12) (s : State) : Outcome State Fault Refusal :=
  .next (storeFrom .byte (effAddr s rs1 imm) (s.x rs2) s)

/-- SH (R227). -/
def execSh (rs1 rs2 : Reg) (imm : BitVec 12) (s : State) : Outcome State Fault Refusal :=
  .next (storeFrom .half (effAddr s rs1 imm) (s.x rs2) s)

/-- SW (R228). -/
def execSw (rs1 rs2 : Reg) (imm : BitVec 12) (s : State) : Outcome State Fault Refusal :=
  .next (storeFrom .word (effAddr s rs1 imm) (s.x rs2) s)

/-- FENCE: `pc <- pc + 4`, nothing else, whatever its fields hold (R229). -/
def execFence (s : State) : Outcome State Fault Refusal :=
  .next s.nextPc

/-- FENCE.I: `pc <- pc + 4`, nothing else (R230). -/
def execFenceI (s : State) : Outcome State Fault Refusal :=
  .next s.nextPc

end Sys2Proof.Machine
end

