-- ==== Sys2Proof/Machine/MulDiv.lean ====
section
/-! DEFINITION. Multiply and divide (43_muldiv.md R240 to R248): computed exactly over the integers and narrowed at the end. None
raises. -/

namespace Sys2Proof.Machine

open Host (Outcome)

/-- The high half of a product taken as a 64-bit two's-complement value, `P[63:32]` (R240). -/
def productHigh (p : Int) : Word := (BitVec.ofInt 64 p).extractLsb' 32 32

/-- The signed quotient with its two corner cases; rounds toward zero (R245). -/
def divSigned (a b : Word) : Word :=
  if b = 0x00000000#32 then 0xFFFFFFFF#32
  else if a = 0x80000000#32 ∧ b = 0xFFFFFFFF#32 then 0x80000000#32
  else BitVec.ofInt 32 (a.toInt.tdiv b.toInt)

/-- The unsigned quotient (R246). -/
def divUnsigned (a b : Word) : Word :=
  if b = 0x00000000#32 then 0xFFFFFFFF#32 else BitVec.ofNat 32 (a.toNat / b.toNat)

/-- The signed remainder (R247). -/
def remSigned (a b : Word) : Word :=
  if b = 0x00000000#32 then a
  else if a = 0x80000000#32 ∧ b = 0xFFFFFFFF#32 then 0x00000000#32
  else BitVec.ofInt 32 (a.toInt - b.toInt * a.toInt.tdiv b.toInt)

/-- The unsigned remainder (R248). -/
def remUnsigned (a b : Word) : Word :=
  if b = 0x00000000#32 then a else BitVec.ofNat 32 (a.toNat % b.toNat)

/-- MUL: the low half (R241). -/
def execMul (rd rs1 rs2 : Reg) (s : State) : Outcome State Fault Refusal :=
  .next (s.retire rd (s.x rs1 * s.x rs2))

/-- MULH: signed by signed (R242). -/
def execMulh (rd rs1 rs2 : Reg) (s : State) : Outcome State Fault Refusal :=
  .next (s.retire rd (productHigh ((s.x rs1).toInt * (s.x rs2).toInt)))

/-- MULHSU: `rs1` signed, `rs2` unsigned (R243). -/
def execMulhsu (rd rs1 rs2 : Reg) (s : State) : Outcome State Fault Refusal :=
  .next (s.retire rd (productHigh ((s.x rs1).toInt * ((s.x rs2).toNat : Int))))

/-- MULHU: unsigned by unsigned (R244). -/
def execMulhu (rd rs1 rs2 : Reg) (s : State) : Outcome State Fault Refusal :=
  .next (s.retire rd (productHigh (((s.x rs1).toNat : Int) * ((s.x rs2).toNat : Int))))

/-- DIV (R245). -/
def execDiv (rd rs1 rs2 : Reg) (s : State) : Outcome State Fault Refusal :=
  .next (s.retire rd (divSigned (s.x rs1) (s.x rs2)))

/-- DIVU (R246). -/
def execDivu (rd rs1 rs2 : Reg) (s : State) : Outcome State Fault Refusal :=
  .next (s.retire rd (divUnsigned (s.x rs1) (s.x rs2)))

/-- REM (R247). -/
def execRem (rd rs1 rs2 : Reg) (s : State) : Outcome State Fault Refusal :=
  .next (s.retire rd (remSigned (s.x rs1) (s.x rs2)))

/-- REMU (R248). -/
def execRemu (rd rs1 rs2 : Reg) (s : State) : Outcome State Fault Refusal :=
  .next (s.retire rd (remUnsigned (s.x rs1) (s.x rs2)))

end Sys2Proof.Machine
end

