-- ==== Sys2Proof/Machine/System.lean ====
section
/-! DEFINITION. CSR access, environment, trap return and wait (45_system_csr.md R290 to R303). -/

namespace Sys2Proof.Machine

open Host (Outcome)

/-- CSRRW: `new = src` (R291). -/
def execCsrrw (rd rs1 : Reg) (csr : CsrNum) (s : State) : Outcome State Fault Refusal :=
  .next (csrAccess (fun _ src => src) rd csr (s.x rs1) s)

/-- CSRRS: `new = old | src` (R292). -/
def execCsrrs (rd rs1 : Reg) (csr : CsrNum) (s : State) : Outcome State Fault Refusal :=
  .next (csrAccess (fun old src => old ||| src) rd csr (s.x rs1) s)

/-- CSRRC: `new = old & ~src` (R293). -/
def execCsrrc (rd rs1 : Reg) (csr : CsrNum) (s : State) : Outcome State Fault Refusal :=
  .next (csrAccess (fun old src => old &&& ~~~src) rd csr (s.x rs1) s)

/-- CSRRWI (R294). -/
def execCsrrwi (rd : Reg) (uimm : BitVec 5) (csr : CsrNum) (s : State) : Outcome State Fault Refusal :=
  .next (csrAccess (fun _ src => src) rd csr (uimmValue uimm) s)

/-- CSRRSI (R295). -/
def execCsrrsi (rd : Reg) (uimm : BitVec 5) (csr : CsrNum) (s : State) : Outcome State Fault Refusal :=
  .next (csrAccess (fun old src => old ||| src) rd csr (uimmValue uimm) s)

/-- CSRRCI (R296). -/
def execCsrrci (rd : Reg) (uimm : BitVec 5) (csr : CsrNum) (s : State) : Outcome State Fault Refusal :=
  .next (csrAccess (fun old src => old &&& ~~~src) rd csr (uimmValue uimm) s)

/-- ECALL: `raise EcallM(0)` (R297). -/
def execEcall (s : State) : Outcome State Fault Refusal :=
  .next (raise .ecallM 0x00000000#32 s)

/-- EBREAK: `raise Breakpoint(0)` (R298). -/
def execEbreak (s : State) : Outcome State Fault Refusal :=
  .next (raise .breakpoint 0x00000000#32 s)

/-- MRET (R301). -/
def execMret (s : State) : Outcome State Fault Refusal :=
  .next (trapReturn s)

/-- The WFI credit of a call that ends in this slot: what is left of the budget after the slot's own count
(60_exceptions.md R330). Outside a call there is no budget to credit (log entry 7). -/
def wfiCredit (s : State) : Word := s.call.getD 0x00000000#32

/-- WFI: `wfi <- 1; pc <- pc + 4`, and the step call ends with code 1 after the credit (R302, 60_exceptions.md
R330). -/
def execWfi (s : State) : Outcome State Fault Refusal :=
  .next ({ (s.addCounter (wfiCredit s)).nextPc with wfi := true }.endCall .sleep)

end Sys2Proof.Machine
end

