-- ==== Sys2Proof/Machine/Driver.lean ====
section
/-! DEFINITION. The step driver (60_exceptions.md R320 to R331, R346): time accounting, timer sampling, interrupt
check, slot accounting, fetch and execute, the end of a call, and the host's commands between calls. -/

namespace Sys2Proof.Machine

open Host (Outcome)

/-- `SampleTimer()` (60_exceptions.md R326). -/
def sampleTimer (s : State) : State :=
  if s.timerCompare.toNat ≤ s.counter.toNat then { s with mip := mipSampled s.mip true, wfi := false }
  else { s with mip := mipSampled s.mip false }

/-- The interrupt check's condition (60_exceptions.md R327). -/
def interruptTaken (s : State) : Bool := mipMtip s.mip && mieMtie s.mie && mstatusMie s.mstatus

/-- Interrupt entry: no instruction of the slot is fetched, `mepc` gets `pc`, the call ends with code 3
(60_exceptions.md R327). -/
def takeInterrupt (s : State) : State := (takeTrap timerCause s.pc 0x00000000#32 s).endCall .trap

/-- `Fetch(a)` with `a = pc`: alignment, then bounds, then RAM (20_memory.md R76). -/
def fetch (s : State) : Except Exception Word :=
  if !Width.word.aligned s.pc then .error .instrAddrMisaligned
  else if !s.inRam s.pc .word then .error .instrAccessFault
  else .ok (s.memRead s.pc .word)

/-- `ExecuteOne()` (60_exceptions.md R328): a fetch exception has `mtval = pc`, an illegal word `mtval = 0`
(R332, R335). -/
def executeOne (s : State) : Outcome State Fault Refusal :=
  match fetch s with
  | .error e => .next (raise e s.pc s)
  | .ok w =>
    match decodeWord w with
    | .ok i => exec i s
    | .error _ => .next (raise .illegalInstruction 0x00000000#32 s)

/-- Slot accounting: `n <- n + 1; counter <- counter + 1` (60_exceptions.md R325), with `b` slots left before. -/
def beginSlot (b : Word) (s : State) : State := { s with call := some (b - 1#32), counter := s.counter + 1 }

/-- The budget test at the top of the loop, made as soon as the slot before it completes: a call with no slot left
returns 0 (60_exceptions.md R324; log entry 7). -/
def settle (s : State) : State := if s.call = some 0x00000000#32 then s.endCall .continue else s

/-- One turn of the driver's loop with `b` slots left (60_exceptions.md R323). -/
def slot (b : Word) (s : State) : Outcome State Fault Refusal :=
  if b = 0x00000000#32 then .next (s.endCall .continue)
  else if interruptTaken (sampleTimer s) then .next (takeInterrupt (sampleTimer s))
  else
    match executeOne (beginSlot b (sampleTimer s)) with
    | .next t => .next (settle t)
    | .fault f => .fault f
    | .refused r => .refused r

/-- The start of a step call: time accounting, timer sampling, and the answer of a waiting hart
(60_exceptions.md R321, R322, R330). -/
def openCall (a : StepArgs) (s : State) : State :=
  let t := sampleTimer { s.addCounter a.elapsed with result := none }
  if t.wfi then (t.addCounter a.maxInstructions).endCall .sleep else { t with call := some a.maxInstructions }

/-- The next turn of the loop of the call in flight; nothing when the call has ended. -/
def continueCall (s : State) : Outcome State Fault Refusal :=
  match s.call with
  | none => .next s
  | some b => slot b s

/-- What one command of the host does between calls (00_scope.md R5; log entries 8, 9). A step call also runs its
first turn. -/
def hostAct (c : HostCmd) (s : State) : Outcome State Fault Refusal :=
  match c with
  | .stepCall a => continueCall (openCall a s)
  | .reset => .next (hostReset s)
  | .feedInput bs => .next { s with consoleIn := s.consoleIn ++ bs }
  | .writeRam a b => if s.inRam a .byte then .next (s.memWrite a (b.zeroExtend 32) .byte) else .fault .noSuchRamByte
  | .writeCore w => .next (coreWrite w s)

/-- The move of the host between calls: the head of its queue, or its default call. -/
def hostMove (s : State) : Outcome State Fault Refusal :=
  match s.hostQueue with
  | [] => hostAct (.stepCall s.defaultCall) s
  | c :: rest => hostAct c { s with hostQueue := rest }

/-- Turns of the loop until the call in flight ends, at most `fuel`. -/
def runCall : Nat → State → Outcome State Fault Refusal
  | 0, s => .next s
  | fuel + 1, s =>
    match s.call with
    | none => .next s
    | some b =>
      match slot b s with
      | .next t => runCall fuel t
      | .fault f => .fault f
      | .refused r => .refused r

/-- `Step(elapsed_time_units, max_instructions)` whole (60_exceptions.md R346): the state when the call has returned,
its result code in `result`. A call has at most `max_instructions` turns, and one when that is 0. -/
def stepCall (a : StepArgs) (s : State) : Outcome State Fault Refusal :=
  runCall (a.maxInstructions.toNat + 1) (openCall a s)

end Sys2Proof.Machine
end

