-- ==== Sys2Proof/Machine/Step.lean ====
section
/-! DEFINITION. The step of the machine, and where a program word is placed for it. -/

namespace Sys2Proof.Machine

/-- One step: a turn of the call in flight (at most one instruction), or between calls the host's next move, a step
call with its first turn (log entries 7, 8). Parameters that break 00_scope.md R8 are refused (log entry 11). -/
def step (s : State) : Host.Outcome State Fault Refusal :=
  if s.params.legal then
    match s.call with
    | some b => slot b s
    | none => hostMove s
  else .refused .illegalParameters

/-- `s` with the instruction whose bits are `w` stored at `pc`, where the next slot fetches. In a state that is ready
to execute (legal parameters, `pc` aligned and in RAM, no interrupt to take, not waiting, a call in flight or made
next), as `State.reset` is, the next step fetches and runs exactly it. -/
def State.withFetchWord (s : State) (nbits w : Nat) : State :=
  s.memWrite s.pc (BitVec.ofNat 32 (w % 2 ^ nbits)) .word

end Sys2Proof.Machine
end

