-- ==== Sys2Proof/Safety.lean ====
section
/-! DEFINITION. The terms claims are made in: the invariant of the machine, what an instruction writes and what it leaves
alone, a trap taken, and which instruction may write what. They are written from the spec, not from the operations
of Machine/Ops.lean, wherever the two could differ. -/

namespace Sys2Proof.Machine

/-! ## The invariant -/

/-- What every state of a run meets: the parameters obey 00_scope.md R8; memory is canonical and lists only bytes of
RAM (10_state.md R55); nothing is stored for `x0` (R21); a call in flight has a slot left (60_exceptions.md R324),
runs no waiting hart (R322) and has no result yet. -/
structure State.Inv (s : State) : Prop where
  legal : s.params.legal = true
  memWf : Memory.wf s.mem = true
  memWithin : Memory.within s.params s.mem = true
  zeroStored : s.regs[0] = 0#32
  slotLeft : s.call ≠ some 0#32
  waiting : s.wfi = true → s.call = none
  noResult : s.call ≠ none → s.result = none

/-! ## What is written and what is kept -/

/-- "an access of n bytes at address a lies in RAM" (20_memory.md R71). -/
def InRamRange (s : State) (a : Word) (n : Nat) : Prop :=
  s.params.ramBase.toNat ≤ a.toNat ∧ a.toNat - s.params.ramBase.toNat + n ≤ s.params.ramSize

/-- Every general register reads as before but `rd`, which reads `v`; when `rd` is `x0` nothing is written
(10_state.md R21). -/
def RegWritten (s t : State) (rd : Reg) (v : Word) : Prop :=
  ∀ r, t.x r = if r = rd ∧ rd ≠ 0 then v else s.x r

/-- Everything but the general registers and `pc` is as before: every special register, the reservation, every byte
of memory, the console. -/
def SameButRegsPc (s t : State) : Prop := t = { s with regs := t.regs, pc := t.pc }

/-- `i` completes: `rd` gets `v`, `pc` gets `pc + 4`, nothing else changes. -/
def RetiresWith (i : Instr) (s : State) (rd : Reg) (v : Word) : Prop :=
  ∃ t, exec i s = .next t ∧ RegWritten s t rd v ∧ t.pc = s.pc + 4 ∧ SameButRegsPc s t

/-- The word at an address, little-endian (20_memory.md R72). -/
def wordAt (s : State) (a : Word) : Word :=
  s.mem.read (a.toNat + 3) ++ s.mem.read (a.toNat + 2) ++ s.mem.read (a.toNat + 1) ++ s.mem.read a.toNat

/-- The `n` bytes at `a` are those of `v`, lowest first, and every other byte of memory reads as before
(20_memory.md R73). -/
def BytesStored (s t : State) (a : Word) (n : Nat) (v : Word) : Prop :=
  (∀ k, k < n → t.mem.read (a.toNat + k) = v.extractLsb' (8 * k) 8) ∧
    ∀ b, b < a.toNat ∨ a.toNat + n ≤ b → t.mem.read b = s.mem.read b

/-- Trap entry, and the call ended with code 3, in full: every field written, every other field as before
(60_exceptions.md R336, R337, R329). -/
def TrapTaken (s t : State) (cause epc tval : Word) : Prop :=
  t.mepc = epc ∧ t.mcause = cause ∧ t.mtval = tval ∧
    (∀ k, k < 32 → t.mstatus.getLsbD k =
      if k = 12 ∨ k = 11 then true else if k = 7 then s.mstatus.getLsbD 3 else if k = 3 then false
      else s.mstatus.getLsbD k) ∧
    t.resvValid = false ∧
    t.pc = (if s.mtvec &&& 3#32 = 1#32 ∧ cause.getLsbD 31 = true
      then (s.mtvec &&& 0xFFFFFFFC#32) + 4#32 * (cause &&& 0x7FFFFFFF#32) else s.mtvec &&& 0xFFFFFFFC#32) ∧
    t.call = none ∧ t.result = some .trap ∧
    t = { s with mepc := t.mepc, mcause := t.mcause, mtval := t.mtval, mstatus := t.mstatus, resvValid := t.resvValid, pc := t.pc, call := t.call, result := t.result }

/-- `i` raises: the step ends in trap entry with the address of `i` in `mepc`, and `i` itself has no effect. -/
def Traps (i : Instr) (s : State) (cause tval : Word) : Prop :=
  ∃ t, exec i s = .next t ∧ TrapTaken s t cause s.pc tval

/-! ## Instructions by shape -/

/-- The word decodes to the instruction. -/
def EncodedAs (w : Word) (i : Instr) : Prop := decodeWord w = .ok i

/-- The five loads of one destination and address (42_load_store.md R221 to R225). -/
def loadsOf (rd rs1 : Reg) (imm : BitVec 12) : List Instr :=
  [.lb rd rs1 imm, .lh rd rs1 imm, .lw rd rs1 imm, .lbu rd rs1 imm, .lhu rd rs1 imm]

/-- The three stores of one source and address (42_load_store.md R226 to R228). -/
def storesOf (rs1 rs2 : Reg) (imm : BitVec 12) : List Instr :=
  [.sb rs1 rs2 imm, .sh rs1 rs2 imm, .sw rs1 rs2 imm]

/-- The nine AMOs with the value each stores, from the old word and `x[rs2]` (44_atomics.md R263 to R271). -/
def amosOf (aq rl : Bool) (rd rs1 rs2 : Reg) : List (Instr × (Word → Word → Word)) :=
  [ (.amoswapW aq rl rd rs1 rs2, fun _ v => v),
    (.amoaddW aq rl rd rs1 rs2, fun t v => t + v),
    (.amoxorW aq rl rd rs1 rs2, fun t v => t ^^^ v),
    (.amoandW aq rl rd rs1 rs2, fun t v => t &&& v),
    (.amoorW aq rl rd rs1 rs2, fun t v => t ||| v),
    (.amominW aq rl rd rs1 rs2, fun t v => if t.toInt < v.toInt then t else v),
    (.amomaxW aq rl rd rs1 rs2, fun t v => if t.toInt < v.toInt then v else t),
    (.amominuW aq rl rd rs1 rs2, fun t v => if t.toNat < v.toNat then t else v),
    (.amomaxuW aq rl rd rs1 rs2, fun t v => if t.toNat < v.toNat then v else t) ]

/-- The six CSR instructions on CSR `n` with the value each writes back, from the old value
(45_system_csr.md R291 to R296). -/
def csrForms (s : State) (rd rs1 : Reg) (uimm : BitVec 5) (n : CsrNum) : List (Instr × (Word → Word)) :=
  [ (.csrrw rd rs1 n, fun _ => s.x rs1),
    (.csrrs rd rs1 n, fun old => old ||| s.x rs1),
    (.csrrc rd rs1 n, fun old => old &&& ~~~(s.x rs1)),
    (.csrrwi rd uimm n, fun _ => uimm.zeroExtend 32),
    (.csrrsi rd uimm n, fun old => old ||| uimm.zeroExtend 32),
    (.csrrci rd uimm n, fun old => old &&& ~~~(uimm.zeroExtend 32)) ]

/-- The CSR numbers of the table of 10_state.md R27. -/
def recognisedCsrs : List CsrNum :=
  [ 0x300#12, 0x301#12, 0x304#12, 0x305#12, 0x340#12, 0x341#12, 0x342#12, 0x343#12, 0x344#12, 0xC00#12, 0xC80#12,
    0xF14#12, 0x136#12, 0x137#12, 0x138#12, 0x139#12, 0x140#12 ]

/-- The illegal words of 30_encoding.md R135, clause by clause. -/
def IllegalWord (w : Word) : Prop :=
  let opcode := w.extractLsb' 0 7
  let funct3 := w.extractLsb' 12 3
  let funct7 := w.extractLsb' 25 7
  let funct5 := w.extractLsb' 27 5
  opcode ∉ [0x37#7, 0x17#7, 0x6F#7, 0x67#7, 0x63#7, 0x03#7, 0x23#7, 0x13#7, 0x33#7, 0x0F#7, 0x2F#7, 0x73#7] ∨
  (opcode = 0x67#7 ∧ funct3 ≠ 0b000#3) ∨
  (opcode = 0x63#7 ∧ (funct3 = 0b010#3 ∨ funct3 = 0b011#3)) ∨
  (opcode = 0x03#7 ∧ (funct3 = 0b011#3 ∨ funct3 = 0b110#3 ∨ funct3 = 0b111#3)) ∨
  (opcode = 0x23#7 ∧ (funct3 = 0b011#3 ∨ 4 ≤ funct3.toNat)) ∨
  (opcode = 0x13#7 ∧ (funct3 = 0b001#3 ∧ funct7 ≠ 0b0000000#7 ∨
    funct3 = 0b101#3 ∧ funct7 ≠ 0b0000000#7 ∧ funct7 ≠ 0b0100000#7)) ∨
  (opcode = 0x33#7 ∧ (funct7 ∉ [0b0000000#7, 0b0100000#7, 0b0000001#7] ∨
    funct7 = 0b0100000#7 ∧ funct3 ≠ 0b000#3 ∧ funct3 ≠ 0b101#3)) ∨
  (opcode = 0x0F#7 ∧ funct3 ≠ 0b000#3 ∧ funct3 ≠ 0b001#3) ∨
  (opcode = 0x2F#7 ∧ (funct3 ≠ 0b010#3 ∨
    funct5 ∉ [0b00000#5, 0b00001#5, 0b00010#5, 0b00011#5, 0b00100#5, 0b01000#5, 0b01100#5, 0b10000#5, 0b10100#5, 0b11000#5, 0b11100#5] ∨
    funct5 = 0b00010#5 ∧ w.extractLsb' 20 5 ≠ 0b00000#5)) ∨
  (opcode = 0x73#7 ∧ (funct3 = 0b100#3 ∨
    funct3 = 0b000#3 ∧ w ∉ [0x00000073#32, 0x00100073#32, 0x10500073#32, 0x30200073#32]))

/-! ## Who may write what -/

/-- The general register an instruction's format names as its destination (10_state.md R22). -/
def destination : Instr → Option Reg
  | .lui rd _ | .auipc rd _ | .jal rd _ | .jalr rd _ _ => some rd
  | .beq _ _ _ | .bne _ _ _ | .blt _ _ _ | .bge _ _ _ | .bltu _ _ _ | .bgeu _ _ _ => none
  | .lb rd _ _ | .lh rd _ _ | .lw rd _ _ | .lbu rd _ _ | .lhu rd _ _ => some rd
  | .sb _ _ _ | .sh _ _ _ | .sw _ _ _ => none
  | .addi rd _ _ | .slti rd _ _ | .sltiu rd _ _ | .xori rd _ _ | .ori rd _ _ | .andi rd _ _ => some rd
  | .slli rd _ _ | .srli rd _ _ | .srai rd _ _ => some rd
  | .add rd _ _ | .sub rd _ _ | .sll rd _ _ | .slt rd _ _ | .sltu rd _ _ => some rd
  | .xor rd _ _ | .srl rd _ _ | .sra rd _ _ | .or rd _ _ | .and rd _ _ => some rd
  | .fence _ _ _ _ _ | .fenceI _ _ _ | .ecall | .ebreak | .mret | .wfi => none
  | .mul rd _ _ | .mulh rd _ _ | .mulhsu rd _ _ | .mulhu rd _ _ => some rd
  | .div rd _ _ | .divu rd _ _ | .rem rd _ _ | .remu rd _ _ => some rd
  | .lrW _ _ rd _ | .scW _ _ rd _ _ => some rd
  | .amoswapW _ _ rd _ _ | .amoaddW _ _ rd _ _ | .amoxorW _ _ rd _ _ | .amoandW _ _ rd _ _ => some rd
  | .amoorW _ _ rd _ _ | .amominW _ _ rd _ _ | .amomaxW _ _ rd _ _ => some rd
  | .amominuW _ _ rd _ _ | .amomaxuW _ _ rd _ _ => some rd
  | .csrrw rd _ _ | .csrrs rd _ _ | .csrrc rd _ _ => some rd
  | .csrrwi rd _ _ | .csrrsi rd _ _ | .csrrci rd _ _ => some rd

/-- The address a plain load reads (42_load_store.md R220). -/
def loadAddress (i : Instr) (s : State) : Option Word :=
  match i with
  | .lb _ rs1 imm | .lh _ rs1 imm | .lw _ rs1 imm | .lbu _ rs1 imm | .lhu _ rs1 imm =>
    some (s.x rs1 + imm.signExtend 32)
  | _ => none

/-- The address a plain store writes, and the width in bytes (42_load_store.md R220, R226 to R228). -/
def storeAddress (i : Instr) (s : State) : Option (Word × Nat) :=
  match i with
  | .sb rs1 _ imm => some (s.x rs1 + imm.signExtend 32, 1)
  | .sh rs1 _ imm => some (s.x rs1 + imm.signExtend 32, 2)
  | .sw rs1 _ imm => some (s.x rs1 + imm.signExtend 32, 4)
  | _ => none

/-- The address a store-conditional or an AMO writes a word to (44_atomics.md R260). -/
def atomicStoreAddress (i : Instr) (s : State) : Option Word :=
  match i with
  | .scW _ _ _ rs1 _ | .amoswapW _ _ _ rs1 _ | .amoaddW _ _ _ rs1 _ | .amoxorW _ _ _ rs1 _ => some (s.x rs1)
  | .amoandW _ _ _ rs1 _ | .amoorW _ _ _ rs1 _ | .amominW _ _ _ rs1 _ | .amomaxW _ _ _ rs1 _ => some (s.x rs1)
  | .amominuW _ _ _ rs1 _ | .amomaxuW _ _ _ rs1 _ => some (s.x rs1)
  | _ => none

/-- Where an instruction may store to memory, and how many bytes (20_memory.md R78). -/
def storedRange (i : Instr) (s : State) : Option (Word × Nat) :=
  match atomicStoreAddress i s with
  | some a => some (a, 4)
  | none => storeAddress i s

/-- The CSR a CSR instruction accesses (45_system_csr.md R290). -/
def csrAccessed : Instr → Option CsrNum
  | .csrrw _ _ n | .csrrs _ _ n | .csrrc _ _ n | .csrrwi _ _ n | .csrrsi _ _ n | .csrrci _ _ n => some n
  | _ => none

/-! ## A state about to run an instruction -/

/-- The next turn of the loop starts a slot: a call is in flight with `b` slots left, and no interrupt is to be taken
(60_exceptions.md R323 to R327). -/
structure SlotStarts (s : State) (b : Word) : Prop where
  legal : s.params.legal = true
  inFlight : s.call = some b
  budget : b ≠ 0#32
  noInterrupt : (decide (s.timerCompare.toNat ≤ s.counter.toNat) && s.mie.getLsbD 7 && s.mstatus.getLsbD 3) = false

/-- A slot starts, and the word at `pc` can be fetched (20_memory.md R76). -/
structure Executes (s : State) (b : Word) : Prop extends SlotStarts s b where
  aligned : s.pc.toNat % 4 = 0
  fetchable : InRamRange s s.pc 4

/-- Between calls, the host's next move is the call `a`, after which `rest` is queued (log entry 8). -/
def NextCall (s : State) (a : StepArgs) (rest : List HostCmd) : Prop :=
  s.call = none ∧ (s.hostQueue = .stepCall a :: rest ∨ s.hostQueue = [] ∧ rest = [] ∧ a = s.defaultCall)

/-- The state in which the slot's instruction runs: the timer sampled, the slot counted
(60_exceptions.md R325, R326). -/
def slotState (s : State) (b : Word) : State :=
  { s with
    mip := s.mip &&& 0xFFFFFF7F#32 ||| (if s.timerCompare.toNat ≤ s.counter.toNat then 0x00000080#32 else 0#32)
    wfi := s.wfi && decide (s.counter.toNat < s.timerCompare.toNat)
    counter := s.counter + 1
    call := some (b - 1#32) }

/-- `k` steps, `none` if one of them stops. -/
def stepsTo : Nat → State → Option State
  | 0, s => some s
  | k + 1, s =>
    match step s with
    | .next t => stepsTo k t
    | .fault _ => none
    | .refused _ => none

end Sys2Proof.Machine
end

