-- ==== Sys2Proof/Certificates/Slice0/Obligations.lean ====
section
/-! DEFINITION. The statements for the provers. -/

open Sys2Proof Sys2Proof.Machine

/-- For every well-formed instruction, with every operand at every value its encoding admits, the decoder reads from its
word exactly that instruction. (30_encoding.md sections 1 to 3) -/
def Obligations.EncodeThenDecode : Prop :=
  ∀ i : Instr, i.wf = true → decodeWord (encode i) = .ok i

/-- Whenever a word decodes, the instruction is well-formed and its encoding is that word: no bit of the word is lost,
and no two words decode to one instruction. (30_encoding.md sections 1 to 3) -/
def Obligations.DecodeThenEncode : Prop :=
  ∀ (w : Word) (i : Instr), decodeWord w = .ok i → i.wf = true ∧ encode i = w

/-- There are 68 rows. No word matches two of them. A word decodes to an instruction exactly when a row matches it and
reads that instruction from it, whatever the state. A slot whose word matches no row raises IllegalInstruction.
(R132) -/
def Obligations.DecodingIsTotalAndUnambiguous : Prop :=
  rows.length = 68 ∧
  ∀ w : Word,
    (rows.filter (fun r => r.selects w)).length ≤ 1 ∧
    (∀ i : Instr, decodeWord w = .ok i ↔ ∃ r ∈ rows, w &&& r.mask = r.pat ∧ r.operands w = i) ∧
    ((∀ r ∈ rows, w &&& r.mask ≠ r.pat) → ∀ (s : State) (b : Word), Executes s b → wordAt s s.pc = w →
      ∃ tval, step s = .next (raise .illegalInstruction tval (slotState s b)))

/-- A word is rejected by the decoder exactly when a clause of the spec's exhaustive list of illegal words holds of it.
The strict decode is the spec's own decision D4 (log entry 12). (30_encoding.md section 4 (decision D4)) -/
def Obligations.IllegalWordsAreTheOnesListed : Prop :=
  ∀ w : Word, decodeWord w = .error .illegal ↔ IllegalWord w

/-- The words of the spec's examples, one or more of each family, decode to the instructions the spec gives for them.
(95_test_vectors.md, 30_encoding.md section 3) -/
def Obligations.SampleWordsDecode : Prop :=
  EncodedAs 0x123452B7#32 (.lui 5 0x12345#20) ∧ EncodedAs 0xFFF30293#32 (.addi 5 6 0xFFF#12) ∧
  EncodedAs 0x41F35293#32 (.srai 5 6 31#5) ∧ EncodedAs 0x407302B3#32 (.sub 5 6 7) ∧
  EncodedAs 0x008000EF#32 (.jal 1 8#21) ∧ EncodedAs 0x004300E7#32 (.jalr 1 6 4#12) ∧
  EncodedAs 0xFE731CE3#32 (.bne 6 7 0x1FF8#13) ∧ EncodedAs 0xFFF30283#32 (.lb 5 6 0xFFF#12) ∧
  EncodedAs 0xFE732E23#32 (.sw 6 7 0xFFC#12) ∧ EncodedAs 0x0FF0000F#32 (.fence 0 0xF#4 0xF#4 0 0) ∧
  EncodedAs 0x027312B3#32 (.mulh 5 6 7) ∧ EncodedAs 0x187322AF#32 (.scW false false 5 6 7) ∧
  EncodedAs 0x340312F3#32 (.csrrw 5 6 0x340#12) ∧ EncodedAs 0x30200073#32 .mret

/-- In a state whose memory is canonical, writing a value at an address whose 1, 2 or 4 bytes lie in RAM leaves byte i
of the value at offset i, for each of those bytes, and every other byte of memory as it was. Nothing but memory
changes. (R73) -/
def Obligations.RamWriteStoresTheLowBytes : Prop :=
  ∀ (s : State) (a v : Word) (w : Width), Memory.wf s.mem = true → InRamRange s a w.bytes →
    BytesStored s (s.memWrite a v w) a w.bytes v ∧ s.memWrite a v w = { s with mem := (s.memWrite a v w).mem }

/-- After a word is written in RAM, reading it back at word, halfword and byte width gives the word, its halves and its
bytes, the least significant at the lowest address. Little-endian is the spec's own decision D1 (log entry 12).
(20_memory.md section 2 (decision D1)) -/
def Obligations.RamReadsAreLittleEndian : Prop :=
  ∀ (s : State) (a v : Word), s.params.legal = true → Memory.wf s.mem = true → InRamRange s a 4 →
    let t := s.memWrite a v .word
    t.memRead a .word = v ∧
    t.memRead a .half = (v.extractLsb' 0 16).zeroExtend 32 ∧ t.memRead (a + 2) .half = (v.extractLsb' 16 16).zeroExtend 32 ∧
    t.memRead a .byte = (v.extractLsb' 0 8).zeroExtend 32 ∧ t.memRead (a + 1) .byte = (v.extractLsb' 8 8).zeroExtend 32 ∧
    t.memRead (a + 2) .byte = (v.extractLsb' 16 8).zeroExtend 32 ∧ t.memRead (a + 3) .byte = (v.extractLsb' 24 8).zeroExtend 32

/-- When a slot of the call in flight starts, pc is a multiple of 4 in RAM and its four bytes decode to an instruction,
the step is that instruction's execution in the state with the timer sampled and the slot counted; and when that was
the call's last slot and the call has not ended otherwise, the call ends with code 0. One model step being one slot
is the model's choice (log entry 7). (60_exceptions.md section 1, 00_scope.md section 4) -/
def Obligations.StepRunsTheDecodedInstruction : Prop :=
  ∀ (s : State) (b : Word) (i : Instr), Executes s b →
    decode [s.mem.read s.pc.toNat, s.mem.read (s.pc.toNat + 1), s.mem.read (s.pc.toNat + 2), s.mem.read (s.pc.toNat + 3)] = .ok (i, []) →
    step s =
      match exec i (slotState s b) with
      | .next t => .next (if t.call = some 0#32 then { t with call := none, result := some .continue } else t)
      | .fault f => .fault f
      | .refused r => .refused r

/-- When a slot starts: a pc that is not a multiple of 4 takes trap 0 with mtval = pc, wherever it points; an aligned pc
whose word is not wholly in RAM takes trap 1 with mtval = pc; an illegal word takes trap 2 with mtval = 0. The order
and the codes are the spec's own decisions (log entry 12). (20_memory.md section 3 (decisions D21, D31),
60_exceptions.md section 2 (decisions D5, D8, D37)) -/
def Obligations.SlotThatCannotExecuteTraps : Prop :=
  ∀ (s : State) (b : Word),
    (SlotStarts s b → s.pc.toNat % 4 ≠ 0 → ∃ t, step s = .next t ∧ TrapTaken (slotState s b) t 0#32 s.pc s.pc) ∧
    (SlotStarts s b → s.pc.toNat % 4 = 0 → ¬ InRamRange s s.pc 4 →
      ∃ t, step s = .next t ∧ TrapTaken (slotState s b) t 1#32 s.pc s.pc) ∧
    (Executes s b → IllegalWord (wordAt s s.pc) → ∃ t, step s = .next t ∧ TrapTaken (slotState s b) t 2#32 s.pc 0#32)

/-- When the counter has reached the compare value and mie[7] and mstatus[3] are set, the next slot of a call takes the
trap 0x80000007 with mepc = pc and mtval = 0: mip[7] is set, the hart is awake, the slot is not counted and nothing
is fetched. The source and its timing are the spec's own decisions D14 and D37 (log entry 12). (60_exceptions.md
sections 1 and 2 (decisions D14, D37)) -/
def Obligations.TimerInterruptIsTakenBetweenInstructions : Prop :=
  ∀ (s : State) (b : Word), s.params.legal = true → s.call = some b → b ≠ 0#32 →
    s.timerCompare.toNat ≤ s.counter.toNat → s.mie.getLsbD 7 = true → s.mstatus.getLsbD 3 = true →
    ∃ t, step s = .next t ∧ TrapTaken { s with mip := s.mip ||| 0x00000080#32, wfi := false } t 0x80000007#32 s.pc 0#32

/-- When the host's next move is a step call: the counter first gets the elapsed time and the timer is sampled. If the
hart still waits, the call credits max_instructions and ends with code 1. Otherwise, with max_instructions = 0 it
ends with code 0, executing nothing and taking no trap; else the step is that of the call's first slot. The credit
and the order are the spec's own decisions; that one model step opens a call and runs its first slot is the model's
(log entry 7). (60_exceptions.md section 1 (decisions D15, D19, D29)) -/
def Obligations.OpeningAStepCall : Prop :=
  ∀ (s : State) (a : StepArgs) (rest : List HostCmd), s.params.legal = true → NextCall s a rest →
    let c := s.counter + a.elapsed.zeroExtend 64
    let pending := decide (s.timerCompare.toNat ≤ c.toNat)
    let u := { s with hostQueue := rest, counter := c, wfi := s.wfi && !pending, result := none, mip := s.mip &&& 0xFFFFFF7F#32 ||| (if pending then 0x00000080#32 else 0#32) }
    (u.wfi = true → step s = .next { u with counter := c + a.maxInstructions.zeroExtend 64, result := some .sleep }) ∧
    (u.wfi = false → a.maxInstructions = 0#32 → step s = .next { u with result := some .continue }) ∧
    (u.wfi = false → a.maxInstructions ≠ 0#32 → step s = step { u with call := some a.maxInstructions })

/-- Each of the eight instructions has the word its rule gives, and executes in every state: rd gets the value of its
rule (nothing when rd is x0), pc advances by 4, and nothing else changes; the sources are read before rd is written.
(R161, R162, R163, R164, R165, R166, R167, R168) -/
def Obligations.ImmediateInstructionResults : Prop :=
  ∀ (s : State) (rd rs1 : Reg) (imm : BitVec 12) (imm20 : BitVec 20),
    EncodedAs (imm20 ++ (BitVec.ofFin rd : BitVec 5) ++ 0b0110111#7) (.lui rd imm20) ∧
    EncodedAs (imm20 ++ (BitVec.ofFin rd : BitVec 5) ++ 0b0010111#7) (.auipc rd imm20) ∧
    EncodedAs (imm ++ (BitVec.ofFin rs1 : BitVec 5) ++ 0b000#3 ++ (BitVec.ofFin rd : BitVec 5) ++ 0b0010011#7) (.addi rd rs1 imm) ∧
    EncodedAs (imm ++ (BitVec.ofFin rs1 : BitVec 5) ++ 0b010#3 ++ (BitVec.ofFin rd : BitVec 5) ++ 0b0010011#7) (.slti rd rs1 imm) ∧
    EncodedAs (imm ++ (BitVec.ofFin rs1 : BitVec 5) ++ 0b011#3 ++ (BitVec.ofFin rd : BitVec 5) ++ 0b0010011#7) (.sltiu rd rs1 imm) ∧
    EncodedAs (imm ++ (BitVec.ofFin rs1 : BitVec 5) ++ 0b100#3 ++ (BitVec.ofFin rd : BitVec 5) ++ 0b0010011#7) (.xori rd rs1 imm) ∧
    EncodedAs (imm ++ (BitVec.ofFin rs1 : BitVec 5) ++ 0b110#3 ++ (BitVec.ofFin rd : BitVec 5) ++ 0b0010011#7) (.ori rd rs1 imm) ∧
    EncodedAs (imm ++ (BitVec.ofFin rs1 : BitVec 5) ++ 0b111#3 ++ (BitVec.ofFin rd : BitVec 5) ++ 0b0010011#7) (.andi rd rs1 imm) ∧
    RetiresWith (.lui rd imm20) s rd (imm20 ++ 0x000#12) ∧
    RetiresWith (.auipc rd imm20) s rd (s.pc + (imm20 ++ 0x000#12)) ∧
    RetiresWith (.addi rd rs1 imm) s rd (s.x rs1 + imm.signExtend 32) ∧
    RetiresWith (.slti rd rs1 imm) s rd (if (s.x rs1).toInt < (imm.signExtend 32).toInt then 1#32 else 0#32) ∧
    RetiresWith (.sltiu rd rs1 imm) s rd (if (s.x rs1).toNat < (imm.signExtend 32).toNat then 1#32 else 0#32) ∧
    RetiresWith (.xori rd rs1 imm) s rd (s.x rs1 ^^^ imm.signExtend 32) ∧
    RetiresWith (.ori rd rs1 imm) s rd (s.x rs1 ||| imm.signExtend 32) ∧
    RetiresWith (.andi rd rs1 imm) s rd (s.x rs1 &&& imm.signExtend 32)

/-- Each of the three instructions has the word its rule gives, and executes in every state: rd gets the shifted
register (nothing when rd is x0), pc advances by 4, and nothing else changes. (R169, R170, R171) -/
def Obligations.ShiftImmediateResults : Prop :=
  ∀ (s : State) (rd rs1 : Reg) (shamt : BitVec 5),
    EncodedAs (0b0000000#7 ++ shamt ++ (BitVec.ofFin rs1 : BitVec 5) ++ 0b001#3 ++ (BitVec.ofFin rd : BitVec 5) ++ 0b0010011#7) (.slli rd rs1 shamt) ∧
    EncodedAs (0b0000000#7 ++ shamt ++ (BitVec.ofFin rs1 : BitVec 5) ++ 0b101#3 ++ (BitVec.ofFin rd : BitVec 5) ++ 0b0010011#7) (.srli rd rs1 shamt) ∧
    EncodedAs (0b0100000#7 ++ shamt ++ (BitVec.ofFin rs1 : BitVec 5) ++ 0b101#3 ++ (BitVec.ofFin rd : BitVec 5) ++ 0b0010011#7) (.srai rd rs1 shamt) ∧
    RetiresWith (.slli rd rs1 shamt) s rd (s.x rs1 <<< shamt.toNat) ∧
    RetiresWith (.srli rd rs1 shamt) s rd (s.x rs1 >>> shamt.toNat) ∧
    RetiresWith (.srai rd rs1 shamt) s rd ((s.x rs1).sshiftRight shamt.toNat)

/-- Each of the ten instructions has the word its rule gives, and executes in every state: rd gets the value of its rule
(nothing when rd is x0), the shifts using only the low five bits of x[rs2], pc advances by 4, and nothing else
changes; the sources are read before rd is written. (R172, R173, R174, R175, R176, R177, R178, R179, R180, R181) -/
def Obligations.RegisterRegisterResults : Prop :=
  ∀ (s : State) (rd rs1 rs2 : Reg),
    EncodedAs (0b0000000#7 ++ (BitVec.ofFin rs2 : BitVec 5) ++ (BitVec.ofFin rs1 : BitVec 5) ++ 0b000#3 ++ (BitVec.ofFin rd : BitVec 5) ++ 0b0110011#7) (.add rd rs1 rs2) ∧
    EncodedAs (0b0100000#7 ++ (BitVec.ofFin rs2 : BitVec 5) ++ (BitVec.ofFin rs1 : BitVec 5) ++ 0b000#3 ++ (BitVec.ofFin rd : BitVec 5) ++ 0b0110011#7) (.sub rd rs1 rs2) ∧
    EncodedAs (0b0000000#7 ++ (BitVec.ofFin rs2 : BitVec 5) ++ (BitVec.ofFin rs1 : BitVec 5) ++ 0b001#3 ++ (BitVec.ofFin rd : BitVec 5) ++ 0b0110011#7) (.sll rd rs1 rs2) ∧
    EncodedAs (0b0000000#7 ++ (BitVec.ofFin rs2 : BitVec 5) ++ (BitVec.ofFin rs1 : BitVec 5) ++ 0b010#3 ++ (BitVec.ofFin rd : BitVec 5) ++ 0b0110011#7) (.slt rd rs1 rs2) ∧
    EncodedAs (0b0000000#7 ++ (BitVec.ofFin rs2 : BitVec 5) ++ (BitVec.ofFin rs1 : BitVec 5) ++ 0b011#3 ++ (BitVec.ofFin rd : BitVec 5) ++ 0b0110011#7) (.sltu rd rs1 rs2) ∧
    EncodedAs (0b0000000#7 ++ (BitVec.ofFin rs2 : BitVec 5) ++ (BitVec.ofFin rs1 : BitVec 5) ++ 0b100#3 ++ (BitVec.ofFin rd : BitVec 5) ++ 0b0110011#7) (.xor rd rs1 rs2) ∧
    EncodedAs (0b0000000#7 ++ (BitVec.ofFin rs2 : BitVec 5) ++ (BitVec.ofFin rs1 : BitVec 5) ++ 0b101#3 ++ (BitVec.ofFin rd : BitVec 5) ++ 0b0110011#7) (.srl rd rs1 rs2) ∧
    EncodedAs (0b0100000#7 ++ (BitVec.ofFin rs2 : BitVec 5) ++ (BitVec.ofFin rs1 : BitVec 5) ++ 0b101#3 ++ (BitVec.ofFin rd : BitVec 5) ++ 0b0110011#7) (.sra rd rs1 rs2) ∧
    EncodedAs (0b0000000#7 ++ (BitVec.ofFin rs2 : BitVec 5) ++ (BitVec.ofFin rs1 : BitVec 5) ++ 0b110#3 ++ (BitVec.ofFin rd : BitVec 5) ++ 0b0110011#7) (.or rd rs1 rs2) ∧
    EncodedAs (0b0000000#7 ++ (BitVec.ofFin rs2 : BitVec 5) ++ (BitVec.ofFin rs1 : BitVec 5) ++ 0b111#3 ++ (BitVec.ofFin rd : BitVec 5) ++ 0b0110011#7) (.and rd rs1 rs2) ∧
    RetiresWith (.add rd rs1 rs2) s rd (s.x rs1 + s.x rs2) ∧
    RetiresWith (.sub rd rs1 rs2) s rd (s.x rs1 - s.x rs2) ∧
    RetiresWith (.sll rd rs1 rs2) s rd (s.x rs1 <<< ((s.x rs2).toNat % 32)) ∧
    RetiresWith (.slt rd rs1 rs2) s rd (if (s.x rs1).toInt < (s.x rs2).toInt then 1#32 else 0#32) ∧
    RetiresWith (.sltu rd rs1 rs2) s rd (if (s.x rs1).toNat < (s.x rs2).toNat then 1#32 else 0#32) ∧
    RetiresWith (.xor rd rs1 rs2) s rd (s.x rs1 ^^^ s.x rs2) ∧
    RetiresWith (.srl rd rs1 rs2) s rd (s.x rs1 >>> ((s.x rs2).toNat % 32)) ∧
    RetiresWith (.sra rd rs1 rs2) s rd ((s.x rs1).sshiftRight ((s.x rs2).toNat % 32)) ∧
    RetiresWith (.or rd rs1 rs2) s rd (s.x rs1 ||| s.x rs2) ∧
    RetiresWith (.and rd rs1 rs2) s rd (s.x rs1 &&& s.x rs2)

/-- JAL and JALR have the words their rules give, and complete in every state, whatever the target: pc gets the target
of the rule, JALR computing it from the old register with bit 0 of the sum cleared, rd gets the address after the
jump (nothing when rd is x0), and nothing else changes. (R201, R202) -/
def Obligations.JumpResults : Prop :=
  ∀ (s : State) (rd rs1 : Reg) (imm : BitVec 12) (off : BitVec 21), off.getLsbD 0 = false →
    EncodedAs (off.extractLsb' 20 1 ++ off.extractLsb' 1 10 ++ off.extractLsb' 11 1 ++ off.extractLsb' 12 8 ++ (BitVec.ofFin rd : BitVec 5) ++ 0b1101111#7) (.jal rd off) ∧
    EncodedAs (imm ++ (BitVec.ofFin rs1 : BitVec 5) ++ 0b000#3 ++ (BitVec.ofFin rd : BitVec 5) ++ 0b1100111#7) (.jalr rd rs1 imm) ∧
    (∃ t, exec (.jal rd off) s = .next t ∧ RegWritten s t rd (s.pc + 4) ∧ t.pc = s.pc + off.signExtend 32 ∧ SameButRegsPc s t) ∧
    (∃ t, exec (.jalr rd rs1 imm) s = .next t ∧ RegWritten s t rd (s.pc + 4) ∧
      t.pc = (s.x rs1 + imm.signExtend 32) &&& 0xFFFFFFFE#32 ∧ SameButRegsPc s t)

/-- Each branch has the word its rule gives, and completes in every state: pc gets pc + imm_B when the comparison of its
rule holds and pc + 4 when it does not, and nothing else changes. (R203, R204, R205, R206, R207, R208) -/
def Obligations.BranchResults : Prop :=
  ∀ (s : State) (rs1 rs2 : Reg) (off : BitVec 13), off.getLsbD 0 = false →
    EncodedAs (off.extractLsb' 12 1 ++ off.extractLsb' 5 6 ++ (BitVec.ofFin rs2 : BitVec 5) ++ (BitVec.ofFin rs1 : BitVec 5) ++ 0b000#3 ++ off.extractLsb' 1 4 ++ off.extractLsb' 11 1 ++ 0b1100011#7) (.beq rs1 rs2 off) ∧
    EncodedAs (off.extractLsb' 12 1 ++ off.extractLsb' 5 6 ++ (BitVec.ofFin rs2 : BitVec 5) ++ (BitVec.ofFin rs1 : BitVec 5) ++ 0b001#3 ++ off.extractLsb' 1 4 ++ off.extractLsb' 11 1 ++ 0b1100011#7) (.bne rs1 rs2 off) ∧
    EncodedAs (off.extractLsb' 12 1 ++ off.extractLsb' 5 6 ++ (BitVec.ofFin rs2 : BitVec 5) ++ (BitVec.ofFin rs1 : BitVec 5) ++ 0b100#3 ++ off.extractLsb' 1 4 ++ off.extractLsb' 11 1 ++ 0b1100011#7) (.blt rs1 rs2 off) ∧
    EncodedAs (off.extractLsb' 12 1 ++ off.extractLsb' 5 6 ++ (BitVec.ofFin rs2 : BitVec 5) ++ (BitVec.ofFin rs1 : BitVec 5) ++ 0b101#3 ++ off.extractLsb' 1 4 ++ off.extractLsb' 11 1 ++ 0b1100011#7) (.bge rs1 rs2 off) ∧
    EncodedAs (off.extractLsb' 12 1 ++ off.extractLsb' 5 6 ++ (BitVec.ofFin rs2 : BitVec 5) ++ (BitVec.ofFin rs1 : BitVec 5) ++ 0b110#3 ++ off.extractLsb' 1 4 ++ off.extractLsb' 11 1 ++ 0b1100011#7) (.bltu rs1 rs2 off) ∧
    EncodedAs (off.extractLsb' 12 1 ++ off.extractLsb' 5 6 ++ (BitVec.ofFin rs2 : BitVec 5) ++ (BitVec.ofFin rs1 : BitVec 5) ++ 0b111#3 ++ off.extractLsb' 1 4 ++ off.extractLsb' 11 1 ++ 0b1100011#7) (.bgeu rs1 rs2 off) ∧
    exec (.beq rs1 rs2 off) s = .next { s with pc := if s.x rs1 = s.x rs2 then s.pc + off.signExtend 32 else s.pc + 4 } ∧
    exec (.bne rs1 rs2 off) s = .next { s with pc := if s.x rs1 ≠ s.x rs2 then s.pc + off.signExtend 32 else s.pc + 4 } ∧
    exec (.blt rs1 rs2 off) s = .next { s with pc := if (s.x rs1).toInt < (s.x rs2).toInt then s.pc + off.signExtend 32 else s.pc + 4 } ∧
    exec (.bge rs1 rs2 off) s = .next { s with pc := if (s.x rs2).toInt ≤ (s.x rs1).toInt then s.pc + off.signExtend 32 else s.pc + 4 } ∧
    exec (.bltu rs1 rs2 off) s = .next { s with pc := if (s.x rs1).toNat < (s.x rs2).toNat then s.pc + off.signExtend 32 else s.pc + 4 } ∧
    exec (.bgeu rs1 rs2 off) s = .next { s with pc := if (s.x rs2).toNat ≤ (s.x rs1).toNat then s.pc + off.signExtend 32 else s.pc + 4 }

/-- At an effective address x[rs1] + imm whose bytes lie in RAM and which is a multiple of the width, each load
completes: rd gets the little-endian value, sign- or zero-extended as the load says (nothing when rd is x0), pc
advances by 4, and nothing else changes. The byte order is the spec's own decision D1 (log entry 12).
(42_load_store.md sections 1 and 2, 20_memory.md section 5 (decision D1)) -/
def Obligations.LoadsFromRam : Prop :=
  ∀ (s : State) (rd rs1 : Reg) (imm : BitVec 12), s.params.legal = true →
    let a := s.x rs1 + imm.signExtend 32
    (InRamRange s a 1 → RetiresWith (.lb rd rs1 imm) s rd ((s.mem.read a.toNat).signExtend 32)) ∧
    (InRamRange s a 2 → a.toNat % 2 = 0 → RetiresWith (.lh rd rs1 imm) s rd ((s.mem.read (a.toNat + 1) ++ s.mem.read a.toNat).signExtend 32)) ∧
    (InRamRange s a 4 → a.toNat % 4 = 0 → RetiresWith (.lw rd rs1 imm) s rd (wordAt s a)) ∧
    (InRamRange s a 1 → RetiresWith (.lbu rd rs1 imm) s rd ((s.mem.read a.toNat).zeroExtend 32)) ∧
    (InRamRange s a 2 → a.toNat % 2 = 0 → RetiresWith (.lhu rd rs1 imm) s rd ((s.mem.read (a.toNat + 1) ++ s.mem.read a.toNat).zeroExtend 32))

/-- Each of the five loads, at any width, from a claimed address completes with the 32-bit value unextended in rd: the
timer compare and counter words, 0 from the syscon, 0x60 or 0x61 from the UART line status, and from the UART data
register the head of the input queue, which is consumed (also when rd is x0), or 0 when the queue is empty. pc
advances by 4 and nothing else changes. The addresses and values are the spec's own decisions (log entries 1, 12).
(20_memory.md section 5 (decisions D16, D17, D20, D30)) -/
def Obligations.LoadsFromTheRegisterWindow : Prop :=
  ∀ (s : State) (rd rs1 : Reg) (imm : BitVec 12), s.params.legal = true → ∀ i ∈ loadsOf rd rs1 imm,
    let a := s.x rs1 + imm.signExtend 32
    (a = s.params.timerCmpLo → RetiresWith i s rd (s.timerCompare.extractLsb' 0 32)) ∧
    (a = s.params.timerCmpHi → RetiresWith i s rd (s.timerCompare.extractLsb' 32 32)) ∧
    (a = s.params.counterLo → RetiresWith i s rd (s.counter.extractLsb' 0 32)) ∧
    (a = s.params.counterHi → RetiresWith i s rd (s.counter.extractLsb' 32 32)) ∧
    (a = s.params.syscon → RetiresWith i s rd 0#32) ∧
    (a = 0x10000005#32 → RetiresWith i s rd (if s.consoleIn = [] then 0x60#32 else 0x61#32)) ∧
    (a = 0x10000000#32 → s.consoleIn = [] → RetiresWith i s rd 0#32) ∧
    (∀ b bs, a = 0x10000000#32 → s.consoleIn = b :: bs →
      ∃ t, exec i s = .next t ∧ RegWritten s t rd (b.zeroExtend 32) ∧ t.pc = s.pc + 4 ∧ t = { s with regs := t.regs, pc := t.pc, consoleIn := bs })

/-- At an address the window does not claim: a load at an address that is not a multiple of its width takes trap 4,
wherever it points; an aligned one whose bytes do not all lie in RAM takes trap 5. mtval gets the address, and the
load itself has no effect. The order and the codes are the spec's own decisions (log entry 12). (42_load_store.md
section 1, 20_memory.md sections 3 and 5 (decisions D5, D20, D21)) -/
def Obligations.LoadsOutsideRamAndWindowTrap : Prop :=
  ∀ (s : State) (rd rs1 : Reg) (imm : BitVec 12),
    let a := s.x rs1 + imm.signExtend 32
    a ∉ s.params.window →
    (a.toNat % 2 ≠ 0 → Traps (.lh rd rs1 imm) s 4#32 a ∧ Traps (.lhu rd rs1 imm) s 4#32 a) ∧
    (a.toNat % 4 ≠ 0 → Traps (.lw rd rs1 imm) s 4#32 a) ∧
    (¬ InRamRange s a 1 → Traps (.lb rd rs1 imm) s 5#32 a ∧ Traps (.lbu rd rs1 imm) s 5#32 a) ∧
    (a.toNat % 2 = 0 → ¬ InRamRange s a 2 → Traps (.lh rd rs1 imm) s 5#32 a ∧ Traps (.lhu rd rs1 imm) s 5#32 a) ∧
    (a.toNat % 4 = 0 → ¬ InRamRange s a 4 → Traps (.lw rd rs1 imm) s 5#32 a)

/-- At an effective address x[rs1] + imm whose bytes lie in RAM and which is a multiple of the width, each store
completes: the low bytes of x[rs2] stand there, lowest first, every other byte of memory reads as before, pc
advances by 4, and nothing but memory and pc changes. (42_load_store.md sections 1 and 3, 20_memory.md sections 2
and 5) -/
def Obligations.StoresToRam : Prop :=
  ∀ (s : State) (rs1 rs2 : Reg) (imm : BitVec 12), s.params.legal = true → Memory.wf s.mem = true →
    ∀ i ∈ storesOf rs1 rs2 imm, ∀ (a : Word) (n : Nat), storeAddress i s = some (a, n) → a.toNat % n = 0 → InRamRange s a n →
      ∃ t, exec i s = .next t ∧ BytesStored s t a n (s.x rs2) ∧ t.pc = s.pc + 4 ∧ t = { s with mem := t.mem, pc := t.pc }

/-- Each of the three stores, at any width, to a claimed address completes with all 32 bits of x[rs2]: a timer compare
word is written; a counter address ignores the value; the UART data register emits the low byte; the syscon ends the
call with code 0x7777 or 0x5555 on exactly those values, the store complete, and ignores any other. pc advances by
4, no byte of memory changes, and nothing else changes. The addresses are the spec's own decisions (log entries 1,
12). (20_memory.md section 5 (decisions D16, D17, D20), 60_exceptions.md sections 3 and 4) -/
def Obligations.StoresToTheRegisterWindow : Prop :=
  ∀ (s : State) (rs1 rs2 : Reg) (imm : BitVec 12), s.params.legal = true → ∀ i ∈ storesOf rs1 rs2 imm,
    let a := s.x rs1 + imm.signExtend 32
    (a = s.params.timerCmpLo →
      exec i s = .next { s with pc := s.pc + 4, timerCompare := s.timerCompare.extractLsb' 32 32 ++ s.x rs2 }) ∧
    (a = s.params.timerCmpHi →
      exec i s = .next { s with pc := s.pc + 4, timerCompare := s.x rs2 ++ s.timerCompare.extractLsb' 0 32 }) ∧
    (a = s.params.counterLo ∨ a = s.params.counterHi → exec i s = .next { s with pc := s.pc + 4 }) ∧
    (a = 0x10000000#32 →
      exec i s = .next { s with pc := s.pc + 4, consoleOut := s.consoleOut ++ [.outByte ((s.x rs2).extractLsb' 0 8)] }) ∧
    (a = s.params.syscon → s.x rs2 = 0x00007777#32 →
      exec i s = .next { s with pc := s.pc + 4, call := none, result := some .restart }) ∧
    (a = s.params.syscon → s.x rs2 = 0x00005555#32 →
      exec i s = .next { s with pc := s.pc + 4, call := none, result := some .poweroff }) ∧
    (a = s.params.syscon → s.x rs2 ≠ 0x00007777#32 → s.x rs2 ≠ 0x00005555#32 → exec i s = .next { s with pc := s.pc + 4 })

/-- At an address the window does not claim for stores (the UART line status among them): a store at an address that is
not a multiple of its width takes trap 6, wherever it points; an aligned one whose bytes do not all lie in RAM takes
trap 7. mtval gets the address, and the store itself has no effect. The order and the codes are the spec's own
decisions (log entry 12). (42_load_store.md section 1, 20_memory.md sections 3 and 5 (decisions D5, D20, D21)) -/
def Obligations.StoresOutsideRamAndWindowTrap : Prop :=
  ∀ (s : State) (rs1 rs2 : Reg) (imm : BitVec 12), ∀ i ∈ storesOf rs1 rs2 imm, ∀ (a : Word) (n : Nat),
    storeAddress i s = some (a, n) → a ∉ s.params.window.erase 0x10000005#32 →
    (a.toNat % n ≠ 0 → Traps i s 6#32 a) ∧
    (a.toNat % n = 0 → ¬ InRamRange s a n → Traps i s 7#32 a)

/-- FENCE and FENCE.I, with every value of every field, complete in every state: pc advances by 4 and nothing else
changes, a non-zero rd field notwithstanding. That fences do nothing is the spec's own decision D24 (log entry 12).
(42_load_store.md section 4 (decision D24)) -/
def Obligations.FencesOnlyAdvancePc : Prop :=
  ∀ (s : State) (fm pred succ : BitVec 4) (imm : BitVec 12) (rd rs1 : Reg),
    exec (.fence fm pred succ rd rs1) s = .next { s with pc := s.pc + 4 } ∧
    exec (.fenceI imm rd rs1) s = .next { s with pc := s.pc + 4 }

/-- Each multiply has the word its rule gives, and executes in every state: rd gets the low half of the product, or the
high half of the signed, signed by unsigned, or unsigned product (nothing when rd is x0), pc advances by 4, and
nothing else changes. (R241, R242, R243, R244) -/
def Obligations.MultiplyResults : Prop :=
  ∀ (s : State) (rd rs1 rs2 : Reg),
    EncodedAs (0b0000001#7 ++ (BitVec.ofFin rs2 : BitVec 5) ++ (BitVec.ofFin rs1 : BitVec 5) ++ 0b000#3 ++ (BitVec.ofFin rd : BitVec 5) ++ 0b0110011#7) (.mul rd rs1 rs2) ∧
    EncodedAs (0b0000001#7 ++ (BitVec.ofFin rs2 : BitVec 5) ++ (BitVec.ofFin rs1 : BitVec 5) ++ 0b001#3 ++ (BitVec.ofFin rd : BitVec 5) ++ 0b0110011#7) (.mulh rd rs1 rs2) ∧
    EncodedAs (0b0000001#7 ++ (BitVec.ofFin rs2 : BitVec 5) ++ (BitVec.ofFin rs1 : BitVec 5) ++ 0b010#3 ++ (BitVec.ofFin rd : BitVec 5) ++ 0b0110011#7) (.mulhsu rd rs1 rs2) ∧
    EncodedAs (0b0000001#7 ++ (BitVec.ofFin rs2 : BitVec 5) ++ (BitVec.ofFin rs1 : BitVec 5) ++ 0b011#3 ++ (BitVec.ofFin rd : BitVec 5) ++ 0b0110011#7) (.mulhu rd rs1 rs2) ∧
    RetiresWith (.mul rd rs1 rs2) s rd (BitVec.ofNat 32 ((s.x rs1).toNat * (s.x rs2).toNat)) ∧
    RetiresWith (.mulh rd rs1 rs2) s rd (BitVec.ofInt 32 ((s.x rs1).toInt * (s.x rs2).toInt / 2 ^ 32)) ∧
    RetiresWith (.mulhsu rd rs1 rs2) s rd (BitVec.ofInt 32 ((s.x rs1).toInt * ((s.x rs2).toNat : Int) / 2 ^ 32)) ∧
    RetiresWith (.mulhu rd rs1 rs2) s rd (BitVec.ofNat 32 ((s.x rs1).toNat * (s.x rs2).toNat / 2 ^ 32))

/-- Each divide has the word its rule gives, and executes in every state, a zero divisor and the signed overflow
included: rd gets the quotient or remainder of its rule (nothing when rd is x0), pc advances by 4, and nothing else
changes. (R245, R246, R247, R248) -/
def Obligations.DivideResults : Prop :=
  ∀ (s : State) (rd rs1 rs2 : Reg),
    EncodedAs (0b0000001#7 ++ (BitVec.ofFin rs2 : BitVec 5) ++ (BitVec.ofFin rs1 : BitVec 5) ++ 0b100#3 ++ (BitVec.ofFin rd : BitVec 5) ++ 0b0110011#7) (.div rd rs1 rs2) ∧
    EncodedAs (0b0000001#7 ++ (BitVec.ofFin rs2 : BitVec 5) ++ (BitVec.ofFin rs1 : BitVec 5) ++ 0b101#3 ++ (BitVec.ofFin rd : BitVec 5) ++ 0b0110011#7) (.divu rd rs1 rs2) ∧
    EncodedAs (0b0000001#7 ++ (BitVec.ofFin rs2 : BitVec 5) ++ (BitVec.ofFin rs1 : BitVec 5) ++ 0b110#3 ++ (BitVec.ofFin rd : BitVec 5) ++ 0b0110011#7) (.rem rd rs1 rs2) ∧
    EncodedAs (0b0000001#7 ++ (BitVec.ofFin rs2 : BitVec 5) ++ (BitVec.ofFin rs1 : BitVec 5) ++ 0b111#3 ++ (BitVec.ofFin rd : BitVec 5) ++ 0b0110011#7) (.remu rd rs1 rs2) ∧
    RetiresWith (.div rd rs1 rs2) s rd
      (if s.x rs2 = 0#32 then 0xFFFFFFFF#32 else if s.x rs1 = 0x80000000#32 ∧ s.x rs2 = 0xFFFFFFFF#32 then 0x80000000#32 else BitVec.ofInt 32 ((s.x rs1).toInt.tdiv (s.x rs2).toInt)) ∧
    RetiresWith (.divu rd rs1 rs2) s rd
      (if s.x rs2 = 0#32 then 0xFFFFFFFF#32 else BitVec.ofNat 32 ((s.x rs1).toNat / (s.x rs2).toNat)) ∧
    RetiresWith (.rem rd rs1 rs2) s rd
      (if s.x rs2 = 0#32 then s.x rs1 else if s.x rs1 = 0x80000000#32 ∧ s.x rs2 = 0xFFFFFFFF#32 then 0#32 else BitVec.ofInt 32 ((s.x rs1).toInt - (s.x rs2).toInt * (s.x rs1).toInt.tdiv (s.x rs2).toInt)) ∧
    RetiresWith (.remu rd rs1 rs2) s rd
      (if s.x rs2 = 0#32 then s.x rs1 else BitVec.ofNat 32 ((s.x rs1).toNat % (s.x rs2).toNat))

/-- On any operands the eight instructions complete with values that satisfy the laws: high and low half together are
the 64-bit product, the low half being the same for every reading; dividend = divisor * quotient + remainder modulo
2^32, signed and unsigned; the signed remainder has the sign of the dividend and is smaller than the divisor, so the
quotient rounds toward zero; the unsigned quotient is the floor and the unsigned remainder the remainder; a zero
divisor gives all ones and the dividend; INT_MIN / -1 gives INT_MIN and 0. (R240) -/
def Obligations.MultiplyDivideLaws : Prop :=
  ∀ (s : State) (rd rs1 rs2 : Reg),
    let n := s.x rs1
    let d := s.x rs2
    ∃ lo hi hsu hu q r qu ru : Word,
      RetiresWith (.mul rd rs1 rs2) s rd lo ∧ RetiresWith (.mulh rd rs1 rs2) s rd hi ∧
      RetiresWith (.mulhsu rd rs1 rs2) s rd hsu ∧ RetiresWith (.mulhu rd rs1 rs2) s rd hu ∧
      RetiresWith (.div rd rs1 rs2) s rd q ∧ RetiresWith (.rem rd rs1 rs2) s rd r ∧
      RetiresWith (.divu rd rs1 rs2) s rd qu ∧ RetiresWith (.remu rd rs1 rs2) s rd ru ∧
      hi ++ lo = BitVec.ofInt 64 (n.toInt * d.toInt) ∧
      hsu ++ lo = BitVec.ofInt 64 (n.toInt * (d.toNat : Int)) ∧
      hu ++ lo = BitVec.ofNat 64 (n.toNat * d.toNat) ∧
      n = d * q + r ∧ n = d * qu + ru ∧
      (0 ≤ n.toInt → 0 ≤ r.toInt) ∧ (n.toInt ≤ 0 → r.toInt ≤ 0) ∧
      (d ≠ 0#32 → r.toInt.natAbs < d.toInt.natAbs) ∧
      (d ≠ 0#32 → qu.toNat = n.toNat / d.toNat ∧ ru.toNat = n.toNat % d.toNat) ∧
      (d ≠ 0#32 → ¬ (n = 0x80000000#32 ∧ d = 0xFFFFFFFF#32) → q.toInt = n.toInt.tdiv d.toInt) ∧
      (d = 0#32 → q = 0xFFFFFFFF#32 ∧ qu = 0xFFFFFFFF#32 ∧ r = n ∧ ru = n) ∧
      (n = 0x80000000#32 → d = 0xFFFFFFFF#32 → q = 0x80000000#32 ∧ r = 0#32)

/-- At an address x[rs1] that is a multiple of 4 and whose word lies in RAM, LR.W completes, whatever aq and rl are: rd
gets the word (nothing when rd is x0), the reservation is held for exactly that address, pc advances by 4, and
nothing else changes. (44_atomics.md section 2) -/
def Obligations.LoadReservedTakesTheReservation : Prop :=
  ∀ (s : State) (aq rl : Bool) (rd rs1 : Reg), (s.x rs1).toNat % 4 = 0 → InRamRange s (s.x rs1) 4 →
    ∃ t, exec (.lrW aq rl rd rs1) s = .next t ∧ RegWritten s t rd (wordAt s (s.x rs1)) ∧ t.pc = s.pc + 4 ∧
      t = { s with regs := t.regs, pc := t.pc, resvValid := true, resvAddr := s.x rs1 }

/-- At an address x[rs1] that is a multiple of 4 and whose word lies in RAM, SC.W completes, whatever aq and rl are.
With the reservation held for exactly that address it stores x[rs2] there, every other byte as before, and rd gets
0; otherwise no byte changes and rd gets 1. Either way the reservation is given up, pc advances by 4, and nothing
else changes. The success condition is the spec's own decision D23 (log entry 12). (44_atomics.md section 2
(decision D23)) -/
def Obligations.StoreConditionalSucceedsOnItsReservation : Prop :=
  ∀ (s : State) (aq rl : Bool) (rd rs1 rs2 : Reg), Memory.wf s.mem = true → (s.x rs1).toNat % 4 = 0 → InRamRange s (s.x rs1) 4 →
    ∃ t, exec (.scW aq rl rd rs1 rs2) s = .next t ∧ t.pc = s.pc + 4 ∧ t.resvValid = false ∧
      (s.resvValid = true ∧ s.resvAddr = s.x rs1 → RegWritten s t rd 0#32 ∧ BytesStored s t (s.x rs1) 4 (s.x rs2)) ∧
      (¬ (s.resvValid = true ∧ s.resvAddr = s.x rs1) → RegWritten s t rd 1#32 ∧ t.mem = s.mem) ∧
      t = { s with regs := t.regs, pc := t.pc, mem := t.mem, resvValid := t.resvValid }

/-- At an address x[rs1] that is a multiple of 4 and whose word lies in RAM, each AMO completes, whatever aq and rl are:
rd gets the old word (nothing when rd is x0), the word becomes the value of the AMO's function of the old word and
x[rs2], every other byte reads as before, pc advances by 4, and nothing else changes, the reservation included (the
spec's own decision D36, log entry 12). (44_atomics.md section 3 (decision D36)) -/
def Obligations.AmosReadModifyWrite : Prop :=
  ∀ (s : State) (aq rl : Bool) (rd rs1 rs2 : Reg), Memory.wf s.mem = true → (s.x rs1).toNat % 4 = 0 → InRamRange s (s.x rs1) 4 →
    ∀ p ∈ amosOf aq rl rd rs1 rs2, ∃ t, exec p.1 s = .next t ∧ RegWritten s t rd (wordAt s (s.x rs1)) ∧
      BytesStored s t (s.x rs1) 4 (p.2 (wordAt s (s.x rs1)) (s.x rs2)) ∧ t.pc = s.pc + 4 ∧
      t = { s with regs := t.regs, pc := t.pc, mem := t.mem }

/-- At an address that is not a multiple of 4, LR.W takes trap 4 and SC.W and the AMOs take trap 6; at a multiple of 4
whose word does not lie in RAM, the register window included, LR.W takes trap 5 and the others trap 7. mtval gets
the address, and the instruction itself has no effect. The codes and the bypass of the window are the spec's own
decisions (log entry 12). (44_atomics.md section 1, 20_memory.md section 5 (decisions D5, D21, D23)) -/
def Obligations.AtomicsAtBadAddressesTrap : Prop :=
  ∀ (s : State) (aq rl : Bool) (rd rs1 rs2 : Reg),
    ((s.x rs1).toNat % 4 ≠ 0 → Traps (.lrW aq rl rd rs1) s 4#32 (s.x rs1) ∧
      Traps (.scW aq rl rd rs1 rs2) s 6#32 (s.x rs1) ∧ ∀ p ∈ amosOf aq rl rd rs1 rs2, Traps p.1 s 6#32 (s.x rs1)) ∧
    ((s.x rs1).toNat % 4 = 0 → ¬ InRamRange s (s.x rs1) 4 → Traps (.lrW aq rl rd rs1) s 5#32 (s.x rs1) ∧
      Traps (.scW aq rl rd rs1 rs2) s 7#32 (s.x rs1) ∧ ∀ p ∈ amosOf aq rl rd rs1 rs2, Traps p.1 s 7#32 (s.x rs1))

/-- Each of the six CSR instructions on mstatus, mie, mtvec, mscratch, mepc, mcause, mtval completes in every state: rd
gets the old value (nothing when rd is x0), the CSR gets all 32 bits of the new one, computed from the old value and
the source read before rd is written, pc advances by 4, and nothing else changes; on mip likewise, but bit 7 keeps
its value. The numbers, the full-width storage and the read-only bit 7 are the spec's own decisions (log entry 12).
(45_system_csr.md section 1 (decision D25), 10_state.md section 6 (decisions D6, D7, D13, D14)) -/
def Obligations.CsrAccessToStorageCsrs : Prop :=
  ∀ (s : State) (rd rs1 : Reg) (uimm : BitVec 5) (n : CsrNum), ∀ p ∈ csrForms s rd rs1 uimm n,
    (n = 0x300#12 → ∃ t, exec p.1 s = .next t ∧ RegWritten s t rd s.mstatus ∧ t = { s with regs := t.regs, pc := s.pc + 4, mstatus := p.2 s.mstatus }) ∧
    (n = 0x304#12 → ∃ t, exec p.1 s = .next t ∧ RegWritten s t rd s.mie ∧ t = { s with regs := t.regs, pc := s.pc + 4, mie := p.2 s.mie }) ∧
    (n = 0x305#12 → ∃ t, exec p.1 s = .next t ∧ RegWritten s t rd s.mtvec ∧ t = { s with regs := t.regs, pc := s.pc + 4, mtvec := p.2 s.mtvec }) ∧
    (n = 0x340#12 → ∃ t, exec p.1 s = .next t ∧ RegWritten s t rd s.mscratch ∧ t = { s with regs := t.regs, pc := s.pc + 4, mscratch := p.2 s.mscratch }) ∧
    (n = 0x341#12 → ∃ t, exec p.1 s = .next t ∧ RegWritten s t rd s.mepc ∧ t = { s with regs := t.regs, pc := s.pc + 4, mepc := p.2 s.mepc }) ∧
    (n = 0x342#12 → ∃ t, exec p.1 s = .next t ∧ RegWritten s t rd s.mcause ∧ t = { s with regs := t.regs, pc := s.pc + 4, mcause := p.2 s.mcause }) ∧
    (n = 0x343#12 → ∃ t, exec p.1 s = .next t ∧ RegWritten s t rd s.mtval ∧ t = { s with regs := t.regs, pc := s.pc + 4, mtval := p.2 s.mtval }) ∧
    (n = 0x344#12 → ∃ t, exec p.1 s = .next t ∧ RegWritten s t rd s.mip ∧
      (∀ k, t.mip.getLsbD k = if k = 7 then s.mip.getLsbD 7 else (p.2 s.mip).getLsbD k) ∧
      t = { s with regs := t.regs, pc := s.pc + 4, mip := t.mip })

/-- Each of the six CSR instructions completes on misa, cycle, cycleh and mhartid with their value in rd, and on every
number outside the CSR table with 0 in rd; the write is dropped, no exception is raised, pc advances by 4, and
nothing else changes. The misa value and the dropped write are the spec's own decisions D9 and D25 (log entry 12).
(10_state.md section 6 (decisions D9, D25, D33)) -/
def Obligations.CsrAccessToConstantCsrs : Prop :=
  ∀ (s : State) (rd rs1 : Reg) (uimm : BitVec 5) (n : CsrNum), ∀ p ∈ csrForms s rd rs1 uimm n,
    (n = 0x301#12 → RetiresWith p.1 s rd 0x40001101#32) ∧
    (n = 0xC00#12 → RetiresWith p.1 s rd (s.counter.extractLsb' 0 32)) ∧
    (n = 0xC80#12 → RetiresWith p.1 s rd (s.counter.extractLsb' 32 32)) ∧
    (n = 0xF14#12 → RetiresWith p.1 s rd 0#32) ∧
    (n ∉ recognisedCsrs → RetiresWith p.1 s rd 0#32)

/-- Each of the six CSR instructions completes: on 0x136, 0x137 and 0x139 rd gets 0 and the value written (computed from
the old value 0) is emitted as a decimal print, a hex print or its low byte; on 0x140 rd gets the head of the input
queue, which is consumed, or 0xFFFFFFFF when the queue is empty, and the write is dropped. pc advances by 4 and
nothing else changes. That both accesses always happen is the spec's own decision D25, the form of the print events
D26 (log entry 12). (60_exceptions.md section 4 (decisions D25, D26)) -/
def Obligations.DebugCsrsPrintAndPoll : Prop :=
  ∀ (s : State) (rd rs1 : Reg) (uimm : BitVec 5) (n : CsrNum), ∀ p ∈ csrForms s rd rs1 uimm n,
    (n = 0x136#12 → ∃ t, exec p.1 s = .next t ∧ RegWritten s t rd 0#32 ∧
      t = { s with regs := t.regs, pc := s.pc + 4, consoleOut := s.consoleOut ++ [.printDec (p.2 0#32)] }) ∧
    (n = 0x137#12 → ∃ t, exec p.1 s = .next t ∧ RegWritten s t rd 0#32 ∧
      t = { s with regs := t.regs, pc := s.pc + 4, consoleOut := s.consoleOut ++ [.printHex (p.2 0#32)] }) ∧
    (n = 0x139#12 → ∃ t, exec p.1 s = .next t ∧ RegWritten s t rd 0#32 ∧
      t = { s with regs := t.regs, pc := s.pc + 4, consoleOut := s.consoleOut ++ [.outByte ((p.2 0#32).extractLsb' 0 8)] }) ∧
    (n = 0x140#12 → s.consoleIn = [] → RetiresWith p.1 s rd 0xFFFFFFFF#32) ∧
    (∀ b bs, n = 0x140#12 → s.consoleIn = b :: bs → ∃ t, exec p.1 s = .next t ∧ RegWritten s t rd (b.zeroExtend 32) ∧
      t = { s with regs := t.regs, pc := s.pc + 4, consoleIn := bs })

/-- Each of the six CSR instructions on 0x138 completes: with v the value written (computed from the old value 0), the
bytes of RAM from v on are emitted in order, as many as stand before the first zero byte or the end of RAM,
whichever comes first; none when v is below RAM or at or past its end. rd gets 0, pc advances by 4, and nothing else
changes. The bounds below RAM_BASE are the spec's own decision D26 (log entry 12). (60_exceptions.md section 4
(decision D26)) -/
def Obligations.StringPrintStopsAtZeroOrTheEndOfRam : Prop :=
  ∀ (s : State) (rd rs1 : Reg) (uimm : BitVec 5), ∀ p ∈ csrForms s rd rs1 uimm 0x138#12,
    let v := (p.2 0#32).toNat
    ∃ t k, exec p.1 s = .next t ∧ RegWritten s t rd 0#32 ∧
      t = { s with regs := t.regs, pc := s.pc + 4, consoleOut := s.consoleOut ++ (List.range k).map (fun j => OutEvent.outByte (s.mem.read (v + j))) } ∧
      (v < s.params.ramBase.toNat → k = 0) ∧
      (∀ j, j < k → v + j < s.params.ramBase.toNat + s.params.ramSize ∧ s.mem.read (v + j) ≠ 0#8) ∧
      (s.params.ramBase.toNat ≤ v → v + k < s.params.ramBase.toNat + s.params.ramSize → s.mem.read (v + k) = 0#8)

/-- The word 0x00000073 is ECALL, and it always raises: mcause gets 11, mtval 0, mepc the address of the ECALL itself,
pc the trap vector, and the call ends with code 3. No general register and no byte of memory changes, nor anything
else but mstatus and the reservation, which trap entry writes. (R297) -/
def Obligations.EcallTraps : Prop :=
  EncodedAs 0x00000073#32 .ecall ∧
  ∀ s : State, ∃ t, exec .ecall s = .next t ∧ t.mcause = 0x0000000B#32 ∧ t.mtval = 0#32 ∧ t.mepc = s.pc ∧
    t.pc = s.mtvec &&& 0xFFFFFFFC#32 ∧ t.call = none ∧ t.result = some .trap ∧
    t = { s with mepc := t.mepc, mcause := t.mcause, mtval := t.mtval, mstatus := t.mstatus, resvValid := t.resvValid, pc := t.pc, call := t.call, result := t.result }

/-- EBREAK takes trap 3 in every state, with mtval 0 and its own address in mepc, and has no other effect. The zero
mtval is the spec's own decision D8 (log entry 12). (45_system_csr.md section 2 (decision D8)) -/
def Obligations.EbreakTraps : Prop :=
  ∀ s : State, Traps .ebreak s 3#32 0#32

/-- Raising any of the nine exceptions, and taking the timer interrupt, is trap entry in full: mepc, mcause with the
code of the table, mtval; MPIE gets MIE, MIE gets 0, MPP gets machine, every other status bit kept; the reservation
dropped; pc at the vector (base, or base + 28 for the interrupt in vectored mode); the call ended with code 3; every
other field as before. Codes, stacking and vector are the spec's own decisions (log entry 12). (60_exceptions.md
section 2 (decisions D5, D7, D8, D12)) -/
def Obligations.TrapEntryFollowsTheTable : Prop :=
  ∀ (s : State) (tval : Word),
    TrapTaken s (raise .instrAddrMisaligned tval s) 0#32 s.pc tval ∧ TrapTaken s (raise .instrAccessFault tval s) 1#32 s.pc tval ∧
    TrapTaken s (raise .illegalInstruction tval s) 2#32 s.pc tval ∧ TrapTaken s (raise .breakpoint tval s) 3#32 s.pc tval ∧
    TrapTaken s (raise .loadAddrMisaligned tval s) 4#32 s.pc tval ∧ TrapTaken s (raise .loadAccessFault tval s) 5#32 s.pc tval ∧
    TrapTaken s (raise .storeAddrMisaligned tval s) 6#32 s.pc tval ∧ TrapTaken s (raise .storeAccessFault tval s) 7#32 s.pc tval ∧
    TrapTaken s (raise .ecallM tval s) 11#32 s.pc tval ∧ TrapTaken s (takeInterrupt s) 0x80000007#32 s.pc 0#32 ∧
    (s.mtvec &&& 3#32 = 1#32 → (takeInterrupt s).pc = (s.mtvec &&& 0xFFFFFFFC#32) + 28#32)

/-- MRET completes in every state: pc gets all 32 bits of mepc, MIE gets MPIE, MPIE gets 1, MPP gets machine, every
other bit of mstatus keeps its value, and nothing else changes, the mode and the reservation included. The
instruction is the spec's own decision D11 (log entry 12). (45_system_csr.md section 3 (decisions D10, D11, D13)) -/
def Obligations.MretReturns : Prop :=
  ∀ s : State, ∃ t, exec .mret s = .next t ∧ t.pc = s.mepc ∧
    (∀ k, k < 32 → t.mstatus.getLsbD k =
      if k = 12 ∨ k = 11 then true else if k = 7 then true else if k = 3 then s.mstatus.getLsbD 7 else s.mstatus.getLsbD k) ∧
    t = { s with pc := t.pc, mstatus := t.mstatus }

/-- WFI completes in every state: the hart waits, pc advances by 4, the call ends with code 1 and the counter is
credited with the slots the call has left (none outside a call: log entry 7); nothing else changes, mstatus, mie and
mip included. The wake rule and the amount of the credit are the spec's own decisions D19 and D15 (log entry 12).
(45_system_csr.md section 3 (decision D19), 60_exceptions.md section 1 (decision D15)) -/
def Obligations.WfiSleeps : Prop :=
  ∀ s : State, exec .wfi s = .next { s with wfi := true, pc := s.pc + 4, call := none, result := some .sleep, counter := s.counter + (s.call.getD 0#32).zeroExtend 64 }

/-- After reset pc is RAM_BASE, x0 and x10 read 0, x11 is DTB_PTR and the mode reads machine (the packed flags word is
6), in State.reset and after HOST.Reset of any state. The value of DTB_PTR in State.reset is the model's choice (log
entry 2). (70_reset_and_hazards.md section 1 (boot contract), 10_state.md section 9) -/
def Obligations.ResetBootContract : Prop :=
  ∀ (u : State), ∀ t ∈ [State.reset, hostReset u],
    t.pc = t.params.ramBase ∧ t.x 0 = 0#32 ∧ t.x 10 = 0#32 ∧ t.x 11 = t.params.dtbPtr ∧ t.priv.bits = 0b11#2 ∧ t.extraflags = 6#32

/-- After reset the counter, the timer compare, mstatus, mie, mip, mtvec, mscratch, mepc, mcause and mtval are 0, the
hart does not wait and no reservation is held. These values are the spec's own decision D27 (log entry 5).
(10_state.md section 9 (decision D27)) -/
def Obligations.ResetClearsTheRest : Prop :=
  ∀ (u : State), ∀ t ∈ [State.reset, hostReset u],
    t.counter = 0#64 ∧ t.timerCompare = 0#64 ∧ t.mstatus = 0#32 ∧ t.mie = 0#32 ∧ t.mip = 0#32 ∧ t.mtvec = 0#32 ∧
    t.mscratch = 0#32 ∧ t.mepc = 0#32 ∧ t.mcause = 0#32 ∧ t.mtval = 0#32 ∧ t.wfi = false ∧ t.resvValid = false

/-- When the host's next move between calls is HOST.Reset, the step answers the reset of the state, with the command
taken off the queue: pc, x0, x10 and x11 as the boot contract says, the CSRs, the counter and the timer compare 0,
the hart awake, no reservation; RAM, the input queue, the output log, the parameters and the rest of the host side
as before. That HOST.Reset is a command of a queue is the model's choice (log entry 8); the zero values are the
spec's own decision D27 (log entry 5). (70_reset_and_hazards.md section 1, 10_state.md section 9 (decision D27)) -/
def Obligations.HostResetLeavesRamAndConsoleAlone : Prop :=
  ∀ (s : State) (rest : List HostCmd), s.params.legal = true → s.call = none → s.hostQueue = .reset :: rest →
    ∃ t, step s = .next t ∧ t = hostReset { s with hostQueue := rest } ∧
    t.mem = s.mem ∧ t.consoleIn = s.consoleIn ∧ t.consoleOut = s.consoleOut ∧ t.params = s.params ∧
    t.hostQueue = rest ∧ t.defaultCall = s.defaultCall ∧ t.call = none ∧ t.result = s.result ∧
    t.pc = s.params.ramBase ∧ t.x 0 = 0#32 ∧ t.x 10 = 0#32 ∧ t.x 11 = s.params.dtbPtr ∧ t.priv.bits = 0b11#2 ∧
    t.mstatus = 0#32 ∧ t.mie = 0#32 ∧ t.mtvec = 0#32 ∧ t.mscratch = 0#32 ∧ t.mepc = 0#32 ∧ t.mcause = 0#32 ∧ t.mtval = 0#32 ∧
    t.mip = 0#32 ∧ t.counter = 0#64 ∧ t.timerCompare = 0#64 ∧ t.wfi = false ∧ t.resvValid = false

/-- State.reset meets the invariant every step keeps. The reset values the spec does not give are the model's choice
(log entries 2, 3, 6). (00_scope.md section 5, 10_state.md sections 2, 8 and 9) -/
def Obligations.ResetMeetsTheInvariant : Prop :=
  State.reset.Inv

/-- From any state that meets the invariant, a step that answers a next state answers one that meets it: legal
parameters, canonical memory that lists only bytes of RAM, nothing stored for x0, a call in flight with a slot left,
no result and no waiting hart. (00_scope.md section 5, 10_state.md sections 2 and 8, 60_exceptions.md section 1) -/
def Obligations.StepKeepsTheInvariant : Prop :=
  ∀ s t : State, s.Inv → step s = .next t → t.Inv

/-- A state with legal parameters always steps to a next state, whatever it holds, but for the one thing the model
refuses of its host: a queued write of a byte that RAM does not have (the model's choice, log entry 9).
(60_exceptions.md section 2 (trap return and nesting)) -/
def Obligations.StepNeverStops : Prop :=
  ∀ s : State, s.params.legal = true →
    (s.call = none → ∀ a b rest, s.hostQueue = .writeRam a b :: rest → InRamRange s a 1) → ∃ t, step s = .next t

/-- Every instruction completes in a next state. Whenever a step of a call in flight ends in a trap, it is either the
interrupt, with nothing executed, or an exception raised with no effect of the instruction at pc: apart from the
sampled timer, the slot count and what trap entry writes, the state is the one before the step, general registers,
memory, console, CSRs and reservation address included; mepc is the address of the instruction not executed. (R338) -/
def Obligations.TrapsArePrecise : Prop :=
  (∀ (i : Instr) (s : State), ∃ t, exec i s = .next t) ∧
  ∀ (s t : State) (b : Word), s.Inv → s.call = some b → step s = .next t → t.result = some .trap →
    TrapTaken { slotState s b with counter := s.counter } t timerCause s.pc 0#32 ∨
    ∃ (e : Exception) (tval : Word), TrapTaken (slotState s b) t e.code s.pc tval

/-- Whenever a general register reads differently after a step of a call in flight, the word at pc decodes to an
instruction whose destination it is, and the step did not end in a trap: trap entry, interrupt, driver and intercept
controller never write a general register. (10_state.md section 2) -/
def Obligations.OnlyTheDestinationRegisterIsWritten : Prop :=
  ∀ (s t : State) (b : Word) (r : Reg), s.Inv → s.call = some b → step s = .next t → t.x r ≠ s.x r →
    ∃ i, decodeWord (wordAt s s.pc) = .ok i ∧ destination i = some r ∧ r ≠ 0 ∧ t.result ≠ some .trap

/-- For every instruction and every state with canonical memory: a byte of memory that lies outside the range the
instruction stores to (computed from its operands; no range for an instruction that is no store, store-conditional
or AMO) reads the same in the next state. A step that ends in a trap changes no byte. (20_memory.md section 4,
42_load_store.md section 3, 44_atomics.md sections 2 and 3) -/
def Obligations.OnlyStoredBytesChange : Prop :=
  ∀ (i : Instr) (s t : State), Memory.wf s.mem = true → s.result = none → exec i s = .next t →
    (∀ b : Nat, (∀ a n, storedRange i s = some (a, n) → b < a.toNat ∨ a.toNat + n ≤ b) → t.mem.read b = s.mem.read b) ∧
    (t.result = some .trap → t.mem = s.mem)

/-- For every instruction and state: mie, mtvec and mscratch change only by a CSR instruction on that CSR; mepc, mcause
and mtval only so or by a trap; mstatus also by MRET; mip only by a CSR instruction on it, and bit 7 by no
instruction; the timer compare only by a store to one of its two addresses; the counter and the wait flag only by
WFI; the parameters and the host side never. (10_state.md sections 4, 6 and 8, 60_exceptions.md sections 1 to 3) -/
def Obligations.SpecialRegistersHaveTheseWriters : Prop :=
  ∀ (i : Instr) (s t : State), s.result = none → exec i s = .next t →
    (t.mie ≠ s.mie → csrAccessed i = some 0x304#12) ∧ (t.mtvec ≠ s.mtvec → csrAccessed i = some 0x305#12) ∧
    (t.mscratch ≠ s.mscratch → csrAccessed i = some 0x340#12) ∧
    (t.mepc ≠ s.mepc → csrAccessed i = some 0x341#12 ∨ t.result = some .trap) ∧
    (t.mcause ≠ s.mcause → csrAccessed i = some 0x342#12 ∨ t.result = some .trap) ∧
    (t.mtval ≠ s.mtval → csrAccessed i = some 0x343#12 ∨ t.result = some .trap) ∧
    (t.mstatus ≠ s.mstatus → csrAccessed i = some 0x300#12 ∨ i = .mret ∨ t.result = some .trap) ∧
    (t.mip ≠ s.mip → csrAccessed i = some 0x344#12) ∧ t.mip.getLsbD 7 = s.mip.getLsbD 7 ∧
    (t.timerCompare ≠ s.timerCompare →
      ∃ a n, storeAddress i s = some (a, n) ∧ (a = s.params.timerCmpLo ∨ a = s.params.timerCmpHi)) ∧
    (t.counter ≠ s.counter → i = .wfi) ∧ (t.wfi ≠ s.wfi → i = .wfi) ∧
    t.params = s.params ∧ t.hostQueue = s.hostQueue ∧ t.defaultCall = s.defaultCall ∧ t.resets = s.resets

/-- For every instruction and state: an instruction other than LR.W and SC.W that does not trap leaves the reservation
as it was, a store or an AMO to the reserved address included; SC.W and a trap leave none held; only LR.W can make
one held. That nothing else clears it is the spec's own decision D36 (log entry 12). (10_state.md section 8
(decision D36), 44_atomics.md section 2) -/
def Obligations.TheReservationHasTheseWriters : Prop :=
  ∀ (i : Instr) (s t : State), s.result = none → exec i s = .next t →
    ((∀ aq rl rd rs1, i ≠ .lrW aq rl rd rs1) → (∀ aq rl rd rs1 rs2, i ≠ .scW aq rl rd rs1 rs2) → t.result ≠ some .trap →
      t.resvValid = s.resvValid ∧ t.resvAddr = s.resvAddr) ∧
    (t.result = some .trap → t.resvValid = false) ∧
    (∀ aq rl rd rs1 rs2, i = .scW aq rl rd rs1 rs2 → t.resvValid = false) ∧
    (t.resvValid = true → s.resvValid = false → ∃ aq rl rd rs1, i = .lrW aq rl rd rs1)

/-- For every instruction and state: the output log is extended at its end, and only by a store to the UART data
register or a CSR instruction on a print CSR; the input queue loses at most its head, and only by a load from the
UART data register or a CSR instruction on 0x140. The form of the events and of the queue is the spec's own decision
(log entry 12). (60_exceptions.md section 4 (decisions D26, D30)) -/
def Obligations.TheConsoleHasTheseReadersAndWriters : Prop :=
  ∀ (i : Instr) (s t : State), exec i s = .next t →
    (∃ es, t.consoleOut = s.consoleOut ++ es ∧ (es ≠ [] →
      (∃ n, storeAddress i s = some (0x10000000#32, n)) ∨
        ∃ n ∈ [0x136#12, 0x137#12, 0x138#12, 0x139#12], csrAccessed i = some n)) ∧
    (t.consoleIn = s.consoleIn ∨ ∃ b, s.consoleIn = b :: t.consoleIn ∧
      (loadAddress i s = some 0x10000000#32 ∨ csrAccessed i = some 0x140#12))

/-- In a step of a call in flight with b slots left the counter does not move when the interrupt is taken, gets b when
the slot's WFI ends the call (its own slot and the credit of the rest), and otherwise 1, whether the instruction
completes or raises. The amounts are the spec's own decision D15 (log entry 12). (10_state.md section 4,
60_exceptions.md section 3 (decision D15)) -/
def Obligations.TheCounterMovesOnlyByTime : Prop :=
  ∀ (s t : State) (b : Word), s.Inv → s.call = some b → step s = .next t →
    t.counter = s.counter + (if interruptTaken (sampleTimer s) = true then 0#64 else if t.result = some .sleep then b.zeroExtend 64 else 1#64)

/-- For every instruction and state, replacing the stored word of register 0 by any other changes nothing in what the
instruction does: the next states differ in that stored word only. (10_state.md section 2) -/
def Obligations.StoredWordOfX0IsNeverRead : Prop :=
  ∀ (i : Instr) (s : State) (v : Word), ∃ t, exec i s = .next t ∧
    exec i { s with regs := s.regs.set 0 v } = .next { t with regs := t.regs.set 0 v }

/-- From a state that meets the invariant, in which the host's next move is the call a, at most max_instructions steps
(one when that is 0) reach exactly the state the step driver's whole algorithm gives, with the call ended and its
result code set. The granularity of a step is the model's choice (log entry 7). (60_exceptions.md section 1,
70_reset_and_hazards.md section 3) -/
def Obligations.StepCallIsIteratedSteps : Prop :=
  ∀ (s : State) (a : StepArgs) (rest : List HostCmd), s.Inv → NextCall s a rest →
    ∃ k t, 1 ≤ k ∧ k ≤ max 1 a.maxInstructions.toNat ∧ stepsTo k s = some t ∧
      stepCall a { s with hostQueue := rest } = .next t ∧ t.call = none ∧ t.result ≠ none

/-- A step call on any state between calls returns, with a result code, and moves the counter by the elapsed time plus
at most max_instructions; when it returns 0 or 1 by exactly max_instructions. The amounts are the spec's own
decision D15 (log entry 12). (60_exceptions.md sections 1 and 3 (decision D15)) -/
def Obligations.StepCallCounterTotal : Prop :=
  ∀ (s : State) (a : StepArgs), s.call = none → ∃ t n, stepCall a s = .next t ∧ t.call = none ∧ n ≤ a.maxInstructions.toNat ∧
    t.counter = s.counter + a.elapsed.zeroExtend 64 + BitVec.ofNat 64 n ∧
    (t.result = some .continue ∨ t.result = some .sleep → n = a.maxInstructions.toNat) ∧ t.result ≠ none
end

