-- ==== Sys2Proof/Laws/Decode.lean ====
section
/-! SUPPORT. The encoder's formats seen by the decoder: each field of a word built by a format is the field it was
built from, and the mask of a row keeps exactly the pinned fields. The rows are pairwise disjoint. -/

namespace Sys2Proof

/-- No two rows agree on the bits both pin (30_encoding.md R132). -/
theorem rows_pairwise_disjoint :
    rows.Pairwise (fun r r' => (r.pat ^^^ r'.pat) &&& (r.mask &&& r'.mask) ≠ 0#32) := by decide

/-- A word cannot meet two patterns that differ on a bit both masks pin. -/
theorem not_selects_both {r r' : Row} (h : (r.pat ^^^ r'.pat) &&& (r.mask &&& r'.mask) ≠ 0#32) {w : Word}
    (hr : r.selects w = true) : r'.selects w = false := by
  rw [Bool.eq_false_iff]
  intro hr'
  simp only [Row.selects, beq_iff_eq] at hr hr'
  apply h
  rw [← hr, ← hr']
  apply BitVec.eq_of_getLsbD_eq
  intro i hi
  simp only [BitVec.getLsbD_and, BitVec.getLsbD_xor, BitVec.getLsbD_zero]
  cases w.getLsbD i <;> cases r.mask.getLsbD i <;> cases r'.mask.getLsbD i <;> rfl

/-- The first row that selects a word is the only one, so the order of testing does not matter. -/
theorem find?_eq_of_selects {l : List Row}
    (hl : l.Pairwise (fun r r' => (r.pat ^^^ r'.pat) &&& (r.mask &&& r'.mask) ≠ 0#32)) {r : Row} (hr : r ∈ l)
    {w : Word} (h : r.selects w = true) : l.find? (fun r => r.selects w) = some r := by
  induction l with
  | nil => cases hr
  | cons d l ih =>
    obtain ⟨hd, hl⟩ := List.pairwise_cons.1 hl
    rcases List.mem_cons.1 hr with rfl | hr
    · simp [List.find?, h]
    · have : d.selects w = false := by
        by_contra hc
        have := not_selects_both (hd r hr) (Bool.eq_true_of_not_eq_false hc)
        simp [h] at this
      simp [List.find?, this, ih hl hr]

/-! ### R -/

theorem encR_and_mask (f7 : BitVec 7) (rs2 rs1 : Reg) (f3 : BitVec 3) (rd : Reg) (op : BitVec 7) :
    encR f7 rs2 rs1 f3 rd op &&& 0xFE00707F#32 = encR f7 0 0 f3 0 op := by
  apply BitVec.eq_of_getLsbD_eq
  intro i hi
  unfold encR
  simp only [BitVec.getLsbD_and, BitVec.getLsbD_append]
  interval_cases i <;> simp

@[simp] theorem rdOf_encR (f7 : BitVec 7) (rs2 rs1 : Reg) (f3 : BitVec 3) (rd : Reg) (op : BitVec 7) :
    rdOf (encR f7 rs2 rs1 f3 rd op) = rd := by
  have h : (encR f7 rs2 rs1 f3 rd op).extractLsb' 7 5 = (BitVec.ofFin rd : BitVec 5) := by
    apply BitVec.eq_of_getLsbD_eq
    intro i hi
    unfold encR
    simp only [BitVec.getLsbD_append, BitVec.getLsbD_extractLsb']
    interval_cases i <;> simp
  unfold rdOf
  rw [h]

@[simp] theorem rs1Of_encR (f7 : BitVec 7) (rs2 rs1 : Reg) (f3 : BitVec 3) (rd : Reg) (op : BitVec 7) :
    rs1Of (encR f7 rs2 rs1 f3 rd op) = rs1 := by
  have h : (encR f7 rs2 rs1 f3 rd op).extractLsb' 15 5 = (BitVec.ofFin rs1 : BitVec 5) := by
    apply BitVec.eq_of_getLsbD_eq
    intro i hi
    unfold encR
    simp only [BitVec.getLsbD_append, BitVec.getLsbD_extractLsb']
    interval_cases i <;> simp
  unfold rs1Of
  rw [h]

@[simp] theorem rs2Of_encR (f7 : BitVec 7) (rs2 rs1 : Reg) (f3 : BitVec 3) (rd : Reg) (op : BitVec 7) :
    rs2Of (encR f7 rs2 rs1 f3 rd op) = rs2 := by
  have h : (encR f7 rs2 rs1 f3 rd op).extractLsb' 20 5 = (BitVec.ofFin rs2 : BitVec 5) := by
    apply BitVec.eq_of_getLsbD_eq
    intro i hi
    unfold encR
    simp only [BitVec.getLsbD_append, BitVec.getLsbD_extractLsb']
    interval_cases i <;> simp
  unfold rs2Of
  rw [h]

/-! ### I -/

theorem encI_and_mask (imm : BitVec 12) (rs1 : Reg) (f3 : BitVec 3) (rd : Reg) (op : BitVec 7) :
    encI imm rs1 f3 rd op &&& 0x0000707F#32 = encI 0 0 f3 0 op := by
  apply BitVec.eq_of_getLsbD_eq
  intro i hi
  unfold encI
  simp only [BitVec.getLsbD_and, BitVec.getLsbD_append]
  interval_cases i <;> simp

@[simp] theorem rdOf_encI (imm : BitVec 12) (rs1 : Reg) (f3 : BitVec 3) (rd : Reg) (op : BitVec 7) :
    rdOf (encI imm rs1 f3 rd op) = rd := by
  have h : (encI imm rs1 f3 rd op).extractLsb' 7 5 = (BitVec.ofFin rd : BitVec 5) := by
    apply BitVec.eq_of_getLsbD_eq
    intro i hi
    unfold encI
    simp only [BitVec.getLsbD_append, BitVec.getLsbD_extractLsb']
    interval_cases i <;> simp
  unfold rdOf
  rw [h]

@[simp] theorem rs1Of_encI (imm : BitVec 12) (rs1 : Reg) (f3 : BitVec 3) (rd : Reg) (op : BitVec 7) :
    rs1Of (encI imm rs1 f3 rd op) = rs1 := by
  have h : (encI imm rs1 f3 rd op).extractLsb' 15 5 = (BitVec.ofFin rs1 : BitVec 5) := by
    apply BitVec.eq_of_getLsbD_eq
    intro i hi
    unfold encI
    simp only [BitVec.getLsbD_append, BitVec.getLsbD_extractLsb']
    interval_cases i <;> simp
  unfold rs1Of
  rw [h]

@[simp] theorem immIOf_encI (imm : BitVec 12) (rs1 : Reg) (f3 : BitVec 3) (rd : Reg) (op : BitVec 7) :
    immIOf (encI imm rs1 f3 rd op) = imm := by
  have h : (encI imm rs1 f3 rd op).extractLsb' 20 12 = imm := by
    apply BitVec.eq_of_getLsbD_eq
    intro i hi
    unfold encI
    simp only [BitVec.getLsbD_append, BitVec.getLsbD_extractLsb']
    interval_cases i <;> simp
  unfold immIOf
  rw [h]

/-! ### S -/

theorem encS_and_mask (imm : BitVec 12) (rs2 rs1 : Reg) (f3 : BitVec 3) (op : BitVec 7) :
    encS imm rs2 rs1 f3 op &&& 0x0000707F#32 = encS 0 0 0 f3 op := by
  apply BitVec.eq_of_getLsbD_eq
  intro i hi
  unfold encS
  simp only [BitVec.getLsbD_and, BitVec.getLsbD_append]
  interval_cases i <;> simp

@[simp] theorem rs1Of_encS (imm : BitVec 12) (rs2 rs1 : Reg) (f3 : BitVec 3) (op : BitVec 7) :
    rs1Of (encS imm rs2 rs1 f3 op) = rs1 := by
  have h : (encS imm rs2 rs1 f3 op).extractLsb' 15 5 = (BitVec.ofFin rs1 : BitVec 5) := by
    apply BitVec.eq_of_getLsbD_eq
    intro i hi
    unfold encS
    simp only [BitVec.getLsbD_append, BitVec.getLsbD_extractLsb']
    interval_cases i <;> simp
  unfold rs1Of
  rw [h]

@[simp] theorem rs2Of_encS (imm : BitVec 12) (rs2 rs1 : Reg) (f3 : BitVec 3) (op : BitVec 7) :
    rs2Of (encS imm rs2 rs1 f3 op) = rs2 := by
  have h : (encS imm rs2 rs1 f3 op).extractLsb' 20 5 = (BitVec.ofFin rs2 : BitVec 5) := by
    apply BitVec.eq_of_getLsbD_eq
    intro i hi
    unfold encS
    simp only [BitVec.getLsbD_append, BitVec.getLsbD_extractLsb']
    interval_cases i <;> simp
  unfold rs2Of
  rw [h]

@[simp] theorem immSOf_encS (imm : BitVec 12) (rs2 rs1 : Reg) (f3 : BitVec 3) (op : BitVec 7) :
    immSOf (encS imm rs2 rs1 f3 op) = imm := by
  apply BitVec.eq_of_getLsbD_eq
  intro i hi
  unfold immSOf encS
  simp only [BitVec.getLsbD_append, BitVec.getLsbD_extractLsb']
  interval_cases i <;> simp

/-! ### B -/

theorem encB_and_mask (off : BitVec 13) (rs2 rs1 : Reg) (f3 : BitVec 3) (op : BitVec 7) :
    encB off rs2 rs1 f3 op &&& 0x0000707F#32 = encB 0 0 0 f3 op := by
  apply BitVec.eq_of_getLsbD_eq
  intro i hi
  unfold encB
  simp only [BitVec.getLsbD_and, BitVec.getLsbD_append]
  interval_cases i <;> simp

@[simp] theorem rs1Of_encB (off : BitVec 13) (rs2 rs1 : Reg) (f3 : BitVec 3) (op : BitVec 7) :
    rs1Of (encB off rs2 rs1 f3 op) = rs1 := by
  have h : (encB off rs2 rs1 f3 op).extractLsb' 15 5 = (BitVec.ofFin rs1 : BitVec 5) := by
    apply BitVec.eq_of_getLsbD_eq
    intro i hi
    unfold encB
    simp only [BitVec.getLsbD_append, BitVec.getLsbD_extractLsb']
    interval_cases i <;> simp
  unfold rs1Of
  rw [h]

@[simp] theorem rs2Of_encB (off : BitVec 13) (rs2 rs1 : Reg) (f3 : BitVec 3) (op : BitVec 7) :
    rs2Of (encB off rs2 rs1 f3 op) = rs2 := by
  have h : (encB off rs2 rs1 f3 op).extractLsb' 20 5 = (BitVec.ofFin rs2 : BitVec 5) := by
    apply BitVec.eq_of_getLsbD_eq
    intro i hi
    unfold encB
    simp only [BitVec.getLsbD_append, BitVec.getLsbD_extractLsb']
    interval_cases i <;> simp
  unfold rs2Of
  rw [h]

@[simp] theorem offBOf_encB (off : BitVec 13) (rs2 rs1 : Reg) (f3 : BitVec 3) (op : BitVec 7) (h : off.getLsbD 0 = false) :
    offBOf (encB off rs2 rs1 f3 op) = off := by
  apply BitVec.eq_of_getLsbD_eq
  intro i hi
  unfold offBOf encB
  simp only [BitVec.getLsbD_append, BitVec.getLsbD_extractLsb']
  interval_cases i <;> simp [show off[0] = false from h]

/-! ### U -/

theorem encU_and_mask (imm20 : BitVec 20) (rd : Reg) (op : BitVec 7) :
    encU imm20 rd op &&& 0x0000007F#32 = encU 0 0 op := by
  apply BitVec.eq_of_getLsbD_eq
  intro i hi
  unfold encU
  simp only [BitVec.getLsbD_and, BitVec.getLsbD_append]
  interval_cases i <;> simp

@[simp] theorem rdOf_encU (imm20 : BitVec 20) (rd : Reg) (op : BitVec 7) :
    rdOf (encU imm20 rd op) = rd := by
  have h : (encU imm20 rd op).extractLsb' 7 5 = (BitVec.ofFin rd : BitVec 5) := by
    apply BitVec.eq_of_getLsbD_eq
    intro i hi
    unfold encU
    simp only [BitVec.getLsbD_append, BitVec.getLsbD_extractLsb']
    interval_cases i <;> simp
  unfold rdOf
  rw [h]

@[simp] theorem immUOf_encU (imm20 : BitVec 20) (rd : Reg) (op : BitVec 7) :
    immUOf (encU imm20 rd op) = imm20 := by
  have h : (encU imm20 rd op).extractLsb' 12 20 = imm20 := by
    apply BitVec.eq_of_getLsbD_eq
    intro i hi
    unfold encU
    simp only [BitVec.getLsbD_append, BitVec.getLsbD_extractLsb']
    interval_cases i <;> simp
  unfold immUOf
  rw [h]

/-! ### J -/

theorem encJ_and_mask (off : BitVec 21) (rd : Reg) (op : BitVec 7) :
    encJ off rd op &&& 0x0000007F#32 = encJ 0 0 op := by
  apply BitVec.eq_of_getLsbD_eq
  intro i hi
  unfold encJ
  simp only [BitVec.getLsbD_and, BitVec.getLsbD_append]
  interval_cases i <;> simp

@[simp] theorem rdOf_encJ (off : BitVec 21) (rd : Reg) (op : BitVec 7) :
    rdOf (encJ off rd op) = rd := by
  have h : (encJ off rd op).extractLsb' 7 5 = (BitVec.ofFin rd : BitVec 5) := by
    apply BitVec.eq_of_getLsbD_eq
    intro i hi
    unfold encJ
    simp only [BitVec.getLsbD_append, BitVec.getLsbD_extractLsb']
    interval_cases i <;> simp
  unfold rdOf
  rw [h]

@[simp] theorem offJOf_encJ (off : BitVec 21) (rd : Reg) (op : BitVec 7) (h : off.getLsbD 0 = false) :
    offJOf (encJ off rd op) = off := by
  apply BitVec.eq_of_getLsbD_eq
  intro i hi
  unfold offJOf encJ
  simp only [BitVec.getLsbD_append, BitVec.getLsbD_extractLsb']
  interval_cases i <;> simp [show off[0] = false from h]

/-! ### Shift -/

theorem encShift_and_mask (f7 : BitVec 7) (shamt : BitVec 5) (rs1 : Reg) (f3 : BitVec 3) (rd : Reg) :
    encShift f7 shamt rs1 f3 rd &&& 0xFE00707F#32 = encShift f7 0 0 f3 0 := by
  apply BitVec.eq_of_getLsbD_eq
  intro i hi
  unfold encShift
  simp only [BitVec.getLsbD_and, BitVec.getLsbD_append]
  interval_cases i <;> simp

@[simp] theorem rdOf_encShift (f7 : BitVec 7) (shamt : BitVec 5) (rs1 : Reg) (f3 : BitVec 3) (rd : Reg) :
    rdOf (encShift f7 shamt rs1 f3 rd) = rd := by
  have h : (encShift f7 shamt rs1 f3 rd).extractLsb' 7 5 = (BitVec.ofFin rd : BitVec 5) := by
    apply BitVec.eq_of_getLsbD_eq
    intro i hi
    unfold encShift
    simp only [BitVec.getLsbD_append, BitVec.getLsbD_extractLsb']
    interval_cases i <;> simp
  unfold rdOf
  rw [h]

@[simp] theorem rs1Of_encShift (f7 : BitVec 7) (shamt : BitVec 5) (rs1 : Reg) (f3 : BitVec 3) (rd : Reg) :
    rs1Of (encShift f7 shamt rs1 f3 rd) = rs1 := by
  have h : (encShift f7 shamt rs1 f3 rd).extractLsb' 15 5 = (BitVec.ofFin rs1 : BitVec 5) := by
    apply BitVec.eq_of_getLsbD_eq
    intro i hi
    unfold encShift
    simp only [BitVec.getLsbD_append, BitVec.getLsbD_extractLsb']
    interval_cases i <;> simp
  unfold rs1Of
  rw [h]

@[simp] theorem shamtOf_encShift (f7 : BitVec 7) (shamt : BitVec 5) (rs1 : Reg) (f3 : BitVec 3) (rd : Reg) :
    shamtOf (encShift f7 shamt rs1 f3 rd) = shamt := by
  have h : (encShift f7 shamt rs1 f3 rd).extractLsb' 20 5 = shamt := by
    apply BitVec.eq_of_getLsbD_eq
    intro i hi
    unfold encShift
    simp only [BitVec.getLsbD_append, BitVec.getLsbD_extractLsb']
    interval_cases i <;> simp
  unfold shamtOf
  rw [h]

/-! ### Atomic -/

theorem encAtomic_and_mask (f5 : BitVec 5) (aq rl : Bool) (rs2 rs1 rd : Reg) :
    encAtomic f5 aq rl rs2 rs1 rd &&& 0xF800707F#32 = encAtomic f5 false false 0 0 0 := by
  apply BitVec.eq_of_getLsbD_eq
  intro i hi
  unfold encAtomic
  simp only [BitVec.getLsbD_and, BitVec.getLsbD_append]
  interval_cases i <;> simp

@[simp] theorem aqOf_encAtomic (f5 : BitVec 5) (aq rl : Bool) (rs2 rs1 rd : Reg) :
    aqOf (encAtomic f5 aq rl rs2 rs1 rd) = aq := by
  unfold aqOf encAtomic
  simp only [BitVec.getLsbD_append]
  simp

@[simp] theorem rlOf_encAtomic (f5 : BitVec 5) (aq rl : Bool) (rs2 rs1 rd : Reg) :
    rlOf (encAtomic f5 aq rl rs2 rs1 rd) = rl := by
  unfold rlOf encAtomic
  simp only [BitVec.getLsbD_append]
  simp

@[simp] theorem rdOf_encAtomic (f5 : BitVec 5) (aq rl : Bool) (rs2 rs1 rd : Reg) :
    rdOf (encAtomic f5 aq rl rs2 rs1 rd) = rd := by
  have h : (encAtomic f5 aq rl rs2 rs1 rd).extractLsb' 7 5 = (BitVec.ofFin rd : BitVec 5) := by
    apply BitVec.eq_of_getLsbD_eq
    intro i hi
    unfold encAtomic
    simp only [BitVec.getLsbD_append, BitVec.getLsbD_extractLsb']
    interval_cases i <;> simp
  unfold rdOf
  rw [h]

@[simp] theorem rs1Of_encAtomic (f5 : BitVec 5) (aq rl : Bool) (rs2 rs1 rd : Reg) :
    rs1Of (encAtomic f5 aq rl rs2 rs1 rd) = rs1 := by
  have h : (encAtomic f5 aq rl rs2 rs1 rd).extractLsb' 15 5 = (BitVec.ofFin rs1 : BitVec 5) := by
    apply BitVec.eq_of_getLsbD_eq
    intro i hi
    unfold encAtomic
    simp only [BitVec.getLsbD_append, BitVec.getLsbD_extractLsb']
    interval_cases i <;> simp
  unfold rs1Of
  rw [h]

@[simp] theorem rs2Of_encAtomic (f5 : BitVec 5) (aq rl : Bool) (rs2 rs1 rd : Reg) :
    rs2Of (encAtomic f5 aq rl rs2 rs1 rd) = rs2 := by
  have h : (encAtomic f5 aq rl rs2 rs1 rd).extractLsb' 20 5 = (BitVec.ofFin rs2 : BitVec 5) := by
    apply BitVec.eq_of_getLsbD_eq
    intro i hi
    unfold encAtomic
    simp only [BitVec.getLsbD_append, BitVec.getLsbD_extractLsb']
    interval_cases i <;> simp
  unfold rs2Of
  rw [h]

/-! ### Csr -/

theorem encCsr_and_mask (csr : CsrNum) (src : BitVec 5) (f3 : BitVec 3) (rd : Reg) :
    encCsr csr src f3 rd &&& 0x0000707F#32 = encCsr 0 0 f3 0 := by
  apply BitVec.eq_of_getLsbD_eq
  intro i hi
  unfold encCsr
  simp only [BitVec.getLsbD_and, BitVec.getLsbD_append]
  interval_cases i <;> simp

@[simp] theorem rdOf_encCsr (csr : CsrNum) (src : BitVec 5) (f3 : BitVec 3) (rd : Reg) :
    rdOf (encCsr csr src f3 rd) = rd := by
  have h : (encCsr csr src f3 rd).extractLsb' 7 5 = (BitVec.ofFin rd : BitVec 5) := by
    apply BitVec.eq_of_getLsbD_eq
    intro i hi
    unfold encCsr
    simp only [BitVec.getLsbD_append, BitVec.getLsbD_extractLsb']
    interval_cases i <;> simp
  unfold rdOf
  rw [h]

@[simp] theorem rs1Of_encCsr (csr : CsrNum) (src : BitVec 5) (f3 : BitVec 3) (rd : Reg) :
    rs1Of (encCsr csr src f3 rd) = src.toFin := by
  have h : (encCsr csr src f3 rd).extractLsb' 15 5 = src := by
    apply BitVec.eq_of_getLsbD_eq
    intro i hi
    unfold encCsr
    simp only [BitVec.getLsbD_append, BitVec.getLsbD_extractLsb']
    interval_cases i <;> simp
  unfold rs1Of
  rw [h]

@[simp] theorem uimmOf_encCsr (csr : CsrNum) (src : BitVec 5) (f3 : BitVec 3) (rd : Reg) :
    uimmOf (encCsr csr src f3 rd) = src := by
  have h : (encCsr csr src f3 rd).extractLsb' 15 5 = src := by
    apply BitVec.eq_of_getLsbD_eq
    intro i hi
    unfold encCsr
    simp only [BitVec.getLsbD_append, BitVec.getLsbD_extractLsb']
    interval_cases i <;> simp
  unfold uimmOf
  rw [h]

@[simp] theorem csrOf_encCsr (csr : CsrNum) (src : BitVec 5) (f3 : BitVec 3) (rd : Reg) :
    csrOf (encCsr csr src f3 rd) = csr := by
  have h : (encCsr csr src f3 rd).extractLsb' 20 12 = csr := by
    apply BitVec.eq_of_getLsbD_eq
    intro i hi
    unfold encCsr
    simp only [BitVec.getLsbD_append, BitVec.getLsbD_extractLsb']
    interval_cases i <;> simp
  unfold csrOf
  rw [h]

/-! ### Fence -/

theorem encFence_and_mask (fm pred succ : BitVec 4) (rs1 rd : Reg) :
    encFence fm pred succ rs1 rd &&& 0x0000707F#32 = encFence 0 0 0 0 0 := by
  apply BitVec.eq_of_getLsbD_eq
  intro i hi
  unfold encFence
  simp only [BitVec.getLsbD_and, BitVec.getLsbD_append]
  interval_cases i <;> simp

@[simp] theorem fmOf_encFence (fm pred succ : BitVec 4) (rs1 rd : Reg) :
    fmOf (encFence fm pred succ rs1 rd) = fm := by
  have h : (encFence fm pred succ rs1 rd).extractLsb' 28 4 = fm := by
    apply BitVec.eq_of_getLsbD_eq
    intro i hi
    unfold encFence
    simp only [BitVec.getLsbD_append, BitVec.getLsbD_extractLsb']
    interval_cases i <;> simp
  unfold fmOf
  rw [h]

@[simp] theorem predOf_encFence (fm pred succ : BitVec 4) (rs1 rd : Reg) :
    predOf (encFence fm pred succ rs1 rd) = pred := by
  have h : (encFence fm pred succ rs1 rd).extractLsb' 24 4 = pred := by
    apply BitVec.eq_of_getLsbD_eq
    intro i hi
    unfold encFence
    simp only [BitVec.getLsbD_append, BitVec.getLsbD_extractLsb']
    interval_cases i <;> simp
  unfold predOf
  rw [h]

@[simp] theorem succOf_encFence (fm pred succ : BitVec 4) (rs1 rd : Reg) :
    succOf (encFence fm pred succ rs1 rd) = succ := by
  have h : (encFence fm pred succ rs1 rd).extractLsb' 20 4 = succ := by
    apply BitVec.eq_of_getLsbD_eq
    intro i hi
    unfold encFence
    simp only [BitVec.getLsbD_append, BitVec.getLsbD_extractLsb']
    interval_cases i <;> simp
  unfold succOf
  rw [h]

@[simp] theorem rdOf_encFence (fm pred succ : BitVec 4) (rs1 rd : Reg) :
    rdOf (encFence fm pred succ rs1 rd) = rd := by
  have h : (encFence fm pred succ rs1 rd).extractLsb' 7 5 = (BitVec.ofFin rd : BitVec 5) := by
    apply BitVec.eq_of_getLsbD_eq
    intro i hi
    unfold encFence
    simp only [BitVec.getLsbD_append, BitVec.getLsbD_extractLsb']
    interval_cases i <;> simp
  unfold rdOf
  rw [h]

@[simp] theorem rs1Of_encFence (fm pred succ : BitVec 4) (rs1 rd : Reg) :
    rs1Of (encFence fm pred succ rs1 rd) = rs1 := by
  have h : (encFence fm pred succ rs1 rd).extractLsb' 15 5 = (BitVec.ofFin rs1 : BitVec 5) := by
    apply BitVec.eq_of_getLsbD_eq
    intro i hi
    unfold encFence
    simp only [BitVec.getLsbD_append, BitVec.getLsbD_extractLsb']
    interval_cases i <;> simp
  unfold rs1Of
  rw [h]

end Sys2Proof
end

