-- ==== Sys2Proof/Laws/State.lean ====
section
/-! SUPPORT. The updates of State, field by field, so that no later proof unfolds a record update; and the register
file's read after write. -/

namespace Sys2Proof.Machine

variable (s : State)

/-! ### setX -/

@[simp] theorem setX_pc (r : Reg) (v : Word) : (s.setX r v).pc = s.pc := by
  unfold State.setX; split <;> rfl
@[simp] theorem setX_counter (r : Reg) (v : Word) : (s.setX r v).counter = s.counter := by
  unfold State.setX; split <;> rfl
@[simp] theorem setX_timerCompare (r : Reg) (v : Word) : (s.setX r v).timerCompare = s.timerCompare := by
  unfold State.setX; split <;> rfl
@[simp] theorem setX_mstatus (r : Reg) (v : Word) : (s.setX r v).mstatus = s.mstatus := by
  unfold State.setX; split <;> rfl
@[simp] theorem setX_mie (r : Reg) (v : Word) : (s.setX r v).mie = s.mie := by
  unfold State.setX; split <;> rfl
@[simp] theorem setX_mtvec (r : Reg) (v : Word) : (s.setX r v).mtvec = s.mtvec := by
  unfold State.setX; split <;> rfl
@[simp] theorem setX_mscratch (r : Reg) (v : Word) : (s.setX r v).mscratch = s.mscratch := by
  unfold State.setX; split <;> rfl
@[simp] theorem setX_mepc (r : Reg) (v : Word) : (s.setX r v).mepc = s.mepc := by
  unfold State.setX; split <;> rfl
@[simp] theorem setX_mcause (r : Reg) (v : Word) : (s.setX r v).mcause = s.mcause := by
  unfold State.setX; split <;> rfl
@[simp] theorem setX_mtval (r : Reg) (v : Word) : (s.setX r v).mtval = s.mtval := by
  unfold State.setX; split <;> rfl
@[simp] theorem setX_mip (r : Reg) (v : Word) : (s.setX r v).mip = s.mip := by
  unfold State.setX; split <;> rfl
@[simp] theorem setX_wfi (r : Reg) (v : Word) : (s.setX r v).wfi = s.wfi := by
  unfold State.setX; split <;> rfl
@[simp] theorem setX_priv (r : Reg) (v : Word) : (s.setX r v).priv = s.priv := by
  unfold State.setX; split <;> rfl
@[simp] theorem setX_resvValid (r : Reg) (v : Word) : (s.setX r v).resvValid = s.resvValid := by
  unfold State.setX; split <;> rfl
@[simp] theorem setX_resvAddr (r : Reg) (v : Word) : (s.setX r v).resvAddr = s.resvAddr := by
  unfold State.setX; split <;> rfl
@[simp] theorem setX_mem (r : Reg) (v : Word) : (s.setX r v).mem = s.mem := by
  unfold State.setX; split <;> rfl
@[simp] theorem setX_consoleIn (r : Reg) (v : Word) : (s.setX r v).consoleIn = s.consoleIn := by
  unfold State.setX; split <;> rfl
@[simp] theorem setX_consoleOut (r : Reg) (v : Word) : (s.setX r v).consoleOut = s.consoleOut := by
  unfold State.setX; split <;> rfl
@[simp] theorem setX_params (r : Reg) (v : Word) : (s.setX r v).params = s.params := by
  unfold State.setX; split <;> rfl
@[simp] theorem setX_call (r : Reg) (v : Word) : (s.setX r v).call = s.call := by
  unfold State.setX; split <;> rfl
@[simp] theorem setX_result (r : Reg) (v : Word) : (s.setX r v).result = s.result := by
  unfold State.setX; split <;> rfl
@[simp] theorem setX_hostQueue (r : Reg) (v : Word) : (s.setX r v).hostQueue = s.hostQueue := by
  unfold State.setX; split <;> rfl
@[simp] theorem setX_defaultCall (r : Reg) (v : Word) : (s.setX r v).defaultCall = s.defaultCall := by
  unfold State.setX; split <;> rfl
@[simp] theorem setX_resets (r : Reg) (v : Word) : (s.setX r v).resets = s.resets := by
  unfold State.setX; split <;> rfl

/-! ### nextPc -/

@[simp] theorem nextPc_regs : s.nextPc.regs = s.regs := rfl
@[simp] theorem nextPc_pc : s.nextPc.pc = s.pc + 4 := rfl
@[simp] theorem nextPc_counter : s.nextPc.counter = s.counter := rfl
@[simp] theorem nextPc_timerCompare : s.nextPc.timerCompare = s.timerCompare := rfl
@[simp] theorem nextPc_mstatus : s.nextPc.mstatus = s.mstatus := rfl
@[simp] theorem nextPc_mie : s.nextPc.mie = s.mie := rfl
@[simp] theorem nextPc_mtvec : s.nextPc.mtvec = s.mtvec := rfl
@[simp] theorem nextPc_mscratch : s.nextPc.mscratch = s.mscratch := rfl
@[simp] theorem nextPc_mepc : s.nextPc.mepc = s.mepc := rfl
@[simp] theorem nextPc_mcause : s.nextPc.mcause = s.mcause := rfl
@[simp] theorem nextPc_mtval : s.nextPc.mtval = s.mtval := rfl
@[simp] theorem nextPc_mip : s.nextPc.mip = s.mip := rfl
@[simp] theorem nextPc_wfi : s.nextPc.wfi = s.wfi := rfl
@[simp] theorem nextPc_priv : s.nextPc.priv = s.priv := rfl
@[simp] theorem nextPc_resvValid : s.nextPc.resvValid = s.resvValid := rfl
@[simp] theorem nextPc_resvAddr : s.nextPc.resvAddr = s.resvAddr := rfl
@[simp] theorem nextPc_mem : s.nextPc.mem = s.mem := rfl
@[simp] theorem nextPc_consoleIn : s.nextPc.consoleIn = s.consoleIn := rfl
@[simp] theorem nextPc_consoleOut : s.nextPc.consoleOut = s.consoleOut := rfl
@[simp] theorem nextPc_params : s.nextPc.params = s.params := rfl
@[simp] theorem nextPc_call : s.nextPc.call = s.call := rfl
@[simp] theorem nextPc_result : s.nextPc.result = s.result := rfl
@[simp] theorem nextPc_hostQueue : s.nextPc.hostQueue = s.hostQueue := rfl
@[simp] theorem nextPc_defaultCall : s.nextPc.defaultCall = s.defaultCall := rfl
@[simp] theorem nextPc_resets : s.nextPc.resets = s.resets := rfl

/-! ### endCall -/

@[simp] theorem endCall_regs (r : ResultCode) : (s.endCall r).regs = s.regs := rfl
@[simp] theorem endCall_pc (r : ResultCode) : (s.endCall r).pc = s.pc := rfl
@[simp] theorem endCall_counter (r : ResultCode) : (s.endCall r).counter = s.counter := rfl
@[simp] theorem endCall_timerCompare (r : ResultCode) : (s.endCall r).timerCompare = s.timerCompare := rfl
@[simp] theorem endCall_mstatus (r : ResultCode) : (s.endCall r).mstatus = s.mstatus := rfl
@[simp] theorem endCall_mie (r : ResultCode) : (s.endCall r).mie = s.mie := rfl
@[simp] theorem endCall_mtvec (r : ResultCode) : (s.endCall r).mtvec = s.mtvec := rfl
@[simp] theorem endCall_mscratch (r : ResultCode) : (s.endCall r).mscratch = s.mscratch := rfl
@[simp] theorem endCall_mepc (r : ResultCode) : (s.endCall r).mepc = s.mepc := rfl
@[simp] theorem endCall_mcause (r : ResultCode) : (s.endCall r).mcause = s.mcause := rfl
@[simp] theorem endCall_mtval (r : ResultCode) : (s.endCall r).mtval = s.mtval := rfl
@[simp] theorem endCall_mip (r : ResultCode) : (s.endCall r).mip = s.mip := rfl
@[simp] theorem endCall_wfi (r : ResultCode) : (s.endCall r).wfi = s.wfi := rfl
@[simp] theorem endCall_priv (r : ResultCode) : (s.endCall r).priv = s.priv := rfl
@[simp] theorem endCall_resvValid (r : ResultCode) : (s.endCall r).resvValid = s.resvValid := rfl
@[simp] theorem endCall_resvAddr (r : ResultCode) : (s.endCall r).resvAddr = s.resvAddr := rfl
@[simp] theorem endCall_mem (r : ResultCode) : (s.endCall r).mem = s.mem := rfl
@[simp] theorem endCall_consoleIn (r : ResultCode) : (s.endCall r).consoleIn = s.consoleIn := rfl
@[simp] theorem endCall_consoleOut (r : ResultCode) : (s.endCall r).consoleOut = s.consoleOut := rfl
@[simp] theorem endCall_params (r : ResultCode) : (s.endCall r).params = s.params := rfl
@[simp] theorem endCall_call (r : ResultCode) : (s.endCall r).call = none := rfl
@[simp] theorem endCall_result (r : ResultCode) : (s.endCall r).result = some r := rfl
@[simp] theorem endCall_hostQueue (r : ResultCode) : (s.endCall r).hostQueue = s.hostQueue := rfl
@[simp] theorem endCall_defaultCall (r : ResultCode) : (s.endCall r).defaultCall = s.defaultCall := rfl
@[simp] theorem endCall_resets (r : ResultCode) : (s.endCall r).resets = s.resets := rfl

/-! ### addCounter -/

@[simp] theorem addCounter_regs (v : Word) : (s.addCounter v).regs = s.regs := rfl
@[simp] theorem addCounter_pc (v : Word) : (s.addCounter v).pc = s.pc := rfl
@[simp] theorem addCounter_counter (v : Word) : (s.addCounter v).counter = s.counter + v.zeroExtend 64 := rfl
@[simp] theorem addCounter_timerCompare (v : Word) : (s.addCounter v).timerCompare = s.timerCompare := rfl
@[simp] theorem addCounter_mstatus (v : Word) : (s.addCounter v).mstatus = s.mstatus := rfl
@[simp] theorem addCounter_mie (v : Word) : (s.addCounter v).mie = s.mie := rfl
@[simp] theorem addCounter_mtvec (v : Word) : (s.addCounter v).mtvec = s.mtvec := rfl
@[simp] theorem addCounter_mscratch (v : Word) : (s.addCounter v).mscratch = s.mscratch := rfl
@[simp] theorem addCounter_mepc (v : Word) : (s.addCounter v).mepc = s.mepc := rfl
@[simp] theorem addCounter_mcause (v : Word) : (s.addCounter v).mcause = s.mcause := rfl
@[simp] theorem addCounter_mtval (v : Word) : (s.addCounter v).mtval = s.mtval := rfl
@[simp] theorem addCounter_mip (v : Word) : (s.addCounter v).mip = s.mip := rfl
@[simp] theorem addCounter_wfi (v : Word) : (s.addCounter v).wfi = s.wfi := rfl
@[simp] theorem addCounter_priv (v : Word) : (s.addCounter v).priv = s.priv := rfl
@[simp] theorem addCounter_resvValid (v : Word) : (s.addCounter v).resvValid = s.resvValid := rfl
@[simp] theorem addCounter_resvAddr (v : Word) : (s.addCounter v).resvAddr = s.resvAddr := rfl
@[simp] theorem addCounter_mem (v : Word) : (s.addCounter v).mem = s.mem := rfl
@[simp] theorem addCounter_consoleIn (v : Word) : (s.addCounter v).consoleIn = s.consoleIn := rfl
@[simp] theorem addCounter_consoleOut (v : Word) : (s.addCounter v).consoleOut = s.consoleOut := rfl
@[simp] theorem addCounter_params (v : Word) : (s.addCounter v).params = s.params := rfl
@[simp] theorem addCounter_call (v : Word) : (s.addCounter v).call = s.call := rfl
@[simp] theorem addCounter_result (v : Word) : (s.addCounter v).result = s.result := rfl
@[simp] theorem addCounter_hostQueue (v : Word) : (s.addCounter v).hostQueue = s.hostQueue := rfl
@[simp] theorem addCounter_defaultCall (v : Word) : (s.addCounter v).defaultCall = s.defaultCall := rfl
@[simp] theorem addCounter_resets (v : Word) : (s.addCounter v).resets = s.resets := rfl

/-! ### memWrite -/

@[simp] theorem memWrite_regs (a v : Word) (w : Width) : (s.memWrite a v w).regs = s.regs := rfl
@[simp] theorem memWrite_pc (a v : Word) (w : Width) : (s.memWrite a v w).pc = s.pc := rfl
@[simp] theorem memWrite_counter (a v : Word) (w : Width) : (s.memWrite a v w).counter = s.counter := rfl
@[simp] theorem memWrite_timerCompare (a v : Word) (w : Width) : (s.memWrite a v w).timerCompare = s.timerCompare := rfl
@[simp] theorem memWrite_mstatus (a v : Word) (w : Width) : (s.memWrite a v w).mstatus = s.mstatus := rfl
@[simp] theorem memWrite_mie (a v : Word) (w : Width) : (s.memWrite a v w).mie = s.mie := rfl
@[simp] theorem memWrite_mtvec (a v : Word) (w : Width) : (s.memWrite a v w).mtvec = s.mtvec := rfl
@[simp] theorem memWrite_mscratch (a v : Word) (w : Width) : (s.memWrite a v w).mscratch = s.mscratch := rfl
@[simp] theorem memWrite_mepc (a v : Word) (w : Width) : (s.memWrite a v w).mepc = s.mepc := rfl
@[simp] theorem memWrite_mcause (a v : Word) (w : Width) : (s.memWrite a v w).mcause = s.mcause := rfl
@[simp] theorem memWrite_mtval (a v : Word) (w : Width) : (s.memWrite a v w).mtval = s.mtval := rfl
@[simp] theorem memWrite_mip (a v : Word) (w : Width) : (s.memWrite a v w).mip = s.mip := rfl
@[simp] theorem memWrite_wfi (a v : Word) (w : Width) : (s.memWrite a v w).wfi = s.wfi := rfl
@[simp] theorem memWrite_priv (a v : Word) (w : Width) : (s.memWrite a v w).priv = s.priv := rfl
@[simp] theorem memWrite_resvValid (a v : Word) (w : Width) : (s.memWrite a v w).resvValid = s.resvValid := rfl
@[simp] theorem memWrite_resvAddr (a v : Word) (w : Width) : (s.memWrite a v w).resvAddr = s.resvAddr := rfl
@[simp] theorem memWrite_mem (a v : Word) (w : Width) : (s.memWrite a v w).mem = s.mem.writeLE a.toNat v w := rfl
@[simp] theorem memWrite_consoleIn (a v : Word) (w : Width) : (s.memWrite a v w).consoleIn = s.consoleIn := rfl
@[simp] theorem memWrite_consoleOut (a v : Word) (w : Width) : (s.memWrite a v w).consoleOut = s.consoleOut := rfl
@[simp] theorem memWrite_params (a v : Word) (w : Width) : (s.memWrite a v w).params = s.params := rfl
@[simp] theorem memWrite_call (a v : Word) (w : Width) : (s.memWrite a v w).call = s.call := rfl
@[simp] theorem memWrite_result (a v : Word) (w : Width) : (s.memWrite a v w).result = s.result := rfl
@[simp] theorem memWrite_hostQueue (a v : Word) (w : Width) : (s.memWrite a v w).hostQueue = s.hostQueue := rfl
@[simp] theorem memWrite_defaultCall (a v : Word) (w : Width) : (s.memWrite a v w).defaultCall = s.defaultCall := rfl
@[simp] theorem memWrite_resets (a v : Word) (w : Width) : (s.memWrite a v w).resets = s.resets := rfl

/-! ### emit -/

@[simp] theorem emit_regs (e : OutEvent) : (s.emit e).regs = s.regs := rfl
@[simp] theorem emit_pc (e : OutEvent) : (s.emit e).pc = s.pc := rfl
@[simp] theorem emit_counter (e : OutEvent) : (s.emit e).counter = s.counter := rfl
@[simp] theorem emit_timerCompare (e : OutEvent) : (s.emit e).timerCompare = s.timerCompare := rfl
@[simp] theorem emit_mstatus (e : OutEvent) : (s.emit e).mstatus = s.mstatus := rfl
@[simp] theorem emit_mie (e : OutEvent) : (s.emit e).mie = s.mie := rfl
@[simp] theorem emit_mtvec (e : OutEvent) : (s.emit e).mtvec = s.mtvec := rfl
@[simp] theorem emit_mscratch (e : OutEvent) : (s.emit e).mscratch = s.mscratch := rfl
@[simp] theorem emit_mepc (e : OutEvent) : (s.emit e).mepc = s.mepc := rfl
@[simp] theorem emit_mcause (e : OutEvent) : (s.emit e).mcause = s.mcause := rfl
@[simp] theorem emit_mtval (e : OutEvent) : (s.emit e).mtval = s.mtval := rfl
@[simp] theorem emit_mip (e : OutEvent) : (s.emit e).mip = s.mip := rfl
@[simp] theorem emit_wfi (e : OutEvent) : (s.emit e).wfi = s.wfi := rfl
@[simp] theorem emit_priv (e : OutEvent) : (s.emit e).priv = s.priv := rfl
@[simp] theorem emit_resvValid (e : OutEvent) : (s.emit e).resvValid = s.resvValid := rfl
@[simp] theorem emit_resvAddr (e : OutEvent) : (s.emit e).resvAddr = s.resvAddr := rfl
@[simp] theorem emit_mem (e : OutEvent) : (s.emit e).mem = s.mem := rfl
@[simp] theorem emit_consoleIn (e : OutEvent) : (s.emit e).consoleIn = s.consoleIn := rfl
@[simp] theorem emit_consoleOut (e : OutEvent) : (s.emit e).consoleOut = s.consoleOut ++ [e] := rfl
@[simp] theorem emit_params (e : OutEvent) : (s.emit e).params = s.params := rfl
@[simp] theorem emit_call (e : OutEvent) : (s.emit e).call = s.call := rfl
@[simp] theorem emit_result (e : OutEvent) : (s.emit e).result = s.result := rfl
@[simp] theorem emit_hostQueue (e : OutEvent) : (s.emit e).hostQueue = s.hostQueue := rfl
@[simp] theorem emit_defaultCall (e : OutEvent) : (s.emit e).defaultCall = s.defaultCall := rfl
@[simp] theorem emit_resets (e : OutEvent) : (s.emit e).resets = s.resets := rfl

/-! ### retire -/

@[simp] theorem retire_regs (rd : Reg) (v : Word) : (s.retire rd v).regs = (s.setX rd v).regs := rfl
@[simp] theorem retire_pc (rd : Reg) (v : Word) : (s.retire rd v).pc = s.pc + 4 := by
  unfold State.retire State.nextPc State.setX; split <;> rfl
@[simp] theorem retire_counter (rd : Reg) (v : Word) : (s.retire rd v).counter = s.counter := by
  unfold State.retire State.nextPc State.setX; split <;> rfl
@[simp] theorem retire_timerCompare (rd : Reg) (v : Word) : (s.retire rd v).timerCompare = s.timerCompare := by
  unfold State.retire State.nextPc State.setX; split <;> rfl
@[simp] theorem retire_mstatus (rd : Reg) (v : Word) : (s.retire rd v).mstatus = s.mstatus := by
  unfold State.retire State.nextPc State.setX; split <;> rfl
@[simp] theorem retire_mie (rd : Reg) (v : Word) : (s.retire rd v).mie = s.mie := by
  unfold State.retire State.nextPc State.setX; split <;> rfl
@[simp] theorem retire_mtvec (rd : Reg) (v : Word) : (s.retire rd v).mtvec = s.mtvec := by
  unfold State.retire State.nextPc State.setX; split <;> rfl
@[simp] theorem retire_mscratch (rd : Reg) (v : Word) : (s.retire rd v).mscratch = s.mscratch := by
  unfold State.retire State.nextPc State.setX; split <;> rfl
@[simp] theorem retire_mepc (rd : Reg) (v : Word) : (s.retire rd v).mepc = s.mepc := by
  unfold State.retire State.nextPc State.setX; split <;> rfl
@[simp] theorem retire_mcause (rd : Reg) (v : Word) : (s.retire rd v).mcause = s.mcause := by
  unfold State.retire State.nextPc State.setX; split <;> rfl
@[simp] theorem retire_mtval (rd : Reg) (v : Word) : (s.retire rd v).mtval = s.mtval := by
  unfold State.retire State.nextPc State.setX; split <;> rfl
@[simp] theorem retire_mip (rd : Reg) (v : Word) : (s.retire rd v).mip = s.mip := by
  unfold State.retire State.nextPc State.setX; split <;> rfl
@[simp] theorem retire_wfi (rd : Reg) (v : Word) : (s.retire rd v).wfi = s.wfi := by
  unfold State.retire State.nextPc State.setX; split <;> rfl
@[simp] theorem retire_priv (rd : Reg) (v : Word) : (s.retire rd v).priv = s.priv := by
  unfold State.retire State.nextPc State.setX; split <;> rfl
@[simp] theorem retire_resvValid (rd : Reg) (v : Word) : (s.retire rd v).resvValid = s.resvValid := by
  unfold State.retire State.nextPc State.setX; split <;> rfl
@[simp] theorem retire_resvAddr (rd : Reg) (v : Word) : (s.retire rd v).resvAddr = s.resvAddr := by
  unfold State.retire State.nextPc State.setX; split <;> rfl
@[simp] theorem retire_mem (rd : Reg) (v : Word) : (s.retire rd v).mem = s.mem := by
  unfold State.retire State.nextPc State.setX; split <;> rfl
@[simp] theorem retire_consoleIn (rd : Reg) (v : Word) : (s.retire rd v).consoleIn = s.consoleIn := by
  unfold State.retire State.nextPc State.setX; split <;> rfl
@[simp] theorem retire_consoleOut (rd : Reg) (v : Word) : (s.retire rd v).consoleOut = s.consoleOut := by
  unfold State.retire State.nextPc State.setX; split <;> rfl
@[simp] theorem retire_params (rd : Reg) (v : Word) : (s.retire rd v).params = s.params := by
  unfold State.retire State.nextPc State.setX; split <;> rfl
@[simp] theorem retire_call (rd : Reg) (v : Word) : (s.retire rd v).call = s.call := by
  unfold State.retire State.nextPc State.setX; split <;> rfl
@[simp] theorem retire_result (rd : Reg) (v : Word) : (s.retire rd v).result = s.result := by
  unfold State.retire State.nextPc State.setX; split <;> rfl
@[simp] theorem retire_hostQueue (rd : Reg) (v : Word) : (s.retire rd v).hostQueue = s.hostQueue := by
  unfold State.retire State.nextPc State.setX; split <;> rfl
@[simp] theorem retire_defaultCall (rd : Reg) (v : Word) : (s.retire rd v).defaultCall = s.defaultCall := by
  unfold State.retire State.nextPc State.setX; split <;> rfl
@[simp] theorem retire_resets (rd : Reg) (v : Word) : (s.retire rd v).resets = s.resets := by
  unfold State.retire State.nextPc State.setX; split <;> rfl

/-! ### takeTrap -/

@[simp] theorem takeTrap_regs (cause epc tval : Word) : (takeTrap cause epc tval s).regs = s.regs := rfl
@[simp] theorem takeTrap_pc (cause epc tval : Word) : (takeTrap cause epc tval s).pc = trapVector s.mtvec cause := rfl
@[simp] theorem takeTrap_counter (cause epc tval : Word) : (takeTrap cause epc tval s).counter = s.counter := rfl
@[simp] theorem takeTrap_timerCompare (cause epc tval : Word) : (takeTrap cause epc tval s).timerCompare = s.timerCompare := rfl
@[simp] theorem takeTrap_mstatus (cause epc tval : Word) : (takeTrap cause epc tval s).mstatus = mstatusTrapEntry s.mstatus := rfl
@[simp] theorem takeTrap_mie (cause epc tval : Word) : (takeTrap cause epc tval s).mie = s.mie := rfl
@[simp] theorem takeTrap_mtvec (cause epc tval : Word) : (takeTrap cause epc tval s).mtvec = s.mtvec := rfl
@[simp] theorem takeTrap_mscratch (cause epc tval : Word) : (takeTrap cause epc tval s).mscratch = s.mscratch := rfl
@[simp] theorem takeTrap_mepc (cause epc tval : Word) : (takeTrap cause epc tval s).mepc = epc := rfl
@[simp] theorem takeTrap_mcause (cause epc tval : Word) : (takeTrap cause epc tval s).mcause = cause := rfl
@[simp] theorem takeTrap_mtval (cause epc tval : Word) : (takeTrap cause epc tval s).mtval = tval := rfl
@[simp] theorem takeTrap_mip (cause epc tval : Word) : (takeTrap cause epc tval s).mip = s.mip := rfl
@[simp] theorem takeTrap_wfi (cause epc tval : Word) : (takeTrap cause epc tval s).wfi = s.wfi := rfl
@[simp] theorem takeTrap_priv (cause epc tval : Word) : (takeTrap cause epc tval s).priv = s.priv := rfl
@[simp] theorem takeTrap_resvValid (cause epc tval : Word) : (takeTrap cause epc tval s).resvValid = false := rfl
@[simp] theorem takeTrap_resvAddr (cause epc tval : Word) : (takeTrap cause epc tval s).resvAddr = s.resvAddr := rfl
@[simp] theorem takeTrap_mem (cause epc tval : Word) : (takeTrap cause epc tval s).mem = s.mem := rfl
@[simp] theorem takeTrap_consoleIn (cause epc tval : Word) : (takeTrap cause epc tval s).consoleIn = s.consoleIn := rfl
@[simp] theorem takeTrap_consoleOut (cause epc tval : Word) : (takeTrap cause epc tval s).consoleOut = s.consoleOut := rfl
@[simp] theorem takeTrap_params (cause epc tval : Word) : (takeTrap cause epc tval s).params = s.params := rfl
@[simp] theorem takeTrap_call (cause epc tval : Word) : (takeTrap cause epc tval s).call = s.call := rfl
@[simp] theorem takeTrap_result (cause epc tval : Word) : (takeTrap cause epc tval s).result = s.result := rfl
@[simp] theorem takeTrap_hostQueue (cause epc tval : Word) : (takeTrap cause epc tval s).hostQueue = s.hostQueue := rfl
@[simp] theorem takeTrap_defaultCall (cause epc tval : Word) : (takeTrap cause epc tval s).defaultCall = s.defaultCall := rfl
@[simp] theorem takeTrap_resets (cause epc tval : Word) : (takeTrap cause epc tval s).resets = s.resets := rfl

/-! ### raise -/

@[simp] theorem raise_regs (e : Exception) (tval : Word) : (raise e tval s).regs = s.regs := rfl
@[simp] theorem raise_pc (e : Exception) (tval : Word) : (raise e tval s).pc = trapVector s.mtvec e.code := rfl
@[simp] theorem raise_counter (e : Exception) (tval : Word) : (raise e tval s).counter = s.counter := rfl
@[simp] theorem raise_timerCompare (e : Exception) (tval : Word) : (raise e tval s).timerCompare = s.timerCompare := rfl
@[simp] theorem raise_mstatus (e : Exception) (tval : Word) : (raise e tval s).mstatus = mstatusTrapEntry s.mstatus := rfl
@[simp] theorem raise_mie (e : Exception) (tval : Word) : (raise e tval s).mie = s.mie := rfl
@[simp] theorem raise_mtvec (e : Exception) (tval : Word) : (raise e tval s).mtvec = s.mtvec := rfl
@[simp] theorem raise_mscratch (e : Exception) (tval : Word) : (raise e tval s).mscratch = s.mscratch := rfl
@[simp] theorem raise_mepc (e : Exception) (tval : Word) : (raise e tval s).mepc = s.pc := rfl
@[simp] theorem raise_mcause (e : Exception) (tval : Word) : (raise e tval s).mcause = e.code := rfl
@[simp] theorem raise_mtval (e : Exception) (tval : Word) : (raise e tval s).mtval = tval := rfl
@[simp] theorem raise_mip (e : Exception) (tval : Word) : (raise e tval s).mip = s.mip := rfl
@[simp] theorem raise_wfi (e : Exception) (tval : Word) : (raise e tval s).wfi = s.wfi := rfl
@[simp] theorem raise_priv (e : Exception) (tval : Word) : (raise e tval s).priv = s.priv := rfl
@[simp] theorem raise_resvValid (e : Exception) (tval : Word) : (raise e tval s).resvValid = false := rfl
@[simp] theorem raise_resvAddr (e : Exception) (tval : Word) : (raise e tval s).resvAddr = s.resvAddr := rfl
@[simp] theorem raise_mem (e : Exception) (tval : Word) : (raise e tval s).mem = s.mem := rfl
@[simp] theorem raise_consoleIn (e : Exception) (tval : Word) : (raise e tval s).consoleIn = s.consoleIn := rfl
@[simp] theorem raise_consoleOut (e : Exception) (tval : Word) : (raise e tval s).consoleOut = s.consoleOut := rfl
@[simp] theorem raise_params (e : Exception) (tval : Word) : (raise e tval s).params = s.params := rfl
@[simp] theorem raise_call (e : Exception) (tval : Word) : (raise e tval s).call = none := rfl
@[simp] theorem raise_result (e : Exception) (tval : Word) : (raise e tval s).result = some .trap := rfl
@[simp] theorem raise_hostQueue (e : Exception) (tval : Word) : (raise e tval s).hostQueue = s.hostQueue := rfl
@[simp] theorem raise_defaultCall (e : Exception) (tval : Word) : (raise e tval s).defaultCall = s.defaultCall := rfl
@[simp] theorem raise_resets (e : Exception) (tval : Word) : (raise e tval s).resets = s.resets := rfl

/-! ### trapReturn -/

@[simp] theorem trapReturn_regs : (trapReturn s).regs = s.regs := rfl
@[simp] theorem trapReturn_pc : (trapReturn s).pc = s.mepc := rfl
@[simp] theorem trapReturn_counter : (trapReturn s).counter = s.counter := rfl
@[simp] theorem trapReturn_timerCompare : (trapReturn s).timerCompare = s.timerCompare := rfl
@[simp] theorem trapReturn_mstatus : (trapReturn s).mstatus = mstatusReturn s.mstatus := rfl
@[simp] theorem trapReturn_mie : (trapReturn s).mie = s.mie := rfl
@[simp] theorem trapReturn_mtvec : (trapReturn s).mtvec = s.mtvec := rfl
@[simp] theorem trapReturn_mscratch : (trapReturn s).mscratch = s.mscratch := rfl
@[simp] theorem trapReturn_mepc : (trapReturn s).mepc = s.mepc := rfl
@[simp] theorem trapReturn_mcause : (trapReturn s).mcause = s.mcause := rfl
@[simp] theorem trapReturn_mtval : (trapReturn s).mtval = s.mtval := rfl
@[simp] theorem trapReturn_mip : (trapReturn s).mip = s.mip := rfl
@[simp] theorem trapReturn_wfi : (trapReturn s).wfi = s.wfi := rfl
@[simp] theorem trapReturn_priv : (trapReturn s).priv = s.priv := rfl
@[simp] theorem trapReturn_resvValid : (trapReturn s).resvValid = s.resvValid := rfl
@[simp] theorem trapReturn_resvAddr : (trapReturn s).resvAddr = s.resvAddr := rfl
@[simp] theorem trapReturn_mem : (trapReturn s).mem = s.mem := rfl
@[simp] theorem trapReturn_consoleIn : (trapReturn s).consoleIn = s.consoleIn := rfl
@[simp] theorem trapReturn_consoleOut : (trapReturn s).consoleOut = s.consoleOut := rfl
@[simp] theorem trapReturn_params : (trapReturn s).params = s.params := rfl
@[simp] theorem trapReturn_call : (trapReturn s).call = s.call := rfl
@[simp] theorem trapReturn_result : (trapReturn s).result = s.result := rfl
@[simp] theorem trapReturn_hostQueue : (trapReturn s).hostQueue = s.hostQueue := rfl
@[simp] theorem trapReturn_defaultCall : (trapReturn s).defaultCall = s.defaultCall := rfl
@[simp] theorem trapReturn_resets : (trapReturn s).resets = s.resets := rfl

/-! ### hostReset -/

@[simp] theorem hostReset_regs : (hostReset s).regs = hostResetRegs s.resets s.params := by simp only [hostReset]
@[simp] theorem hostReset_pc : (hostReset s).pc = s.params.ramBase := by simp only [hostReset]
@[simp] theorem hostReset_counter : (hostReset s).counter = 0 := by simp only [hostReset]
@[simp] theorem hostReset_timerCompare : (hostReset s).timerCompare = 0 := by simp only [hostReset]
@[simp] theorem hostReset_mstatus : (hostReset s).mstatus = 0#32 := by simp only [hostReset]
@[simp] theorem hostReset_mie : (hostReset s).mie = 0#32 := by simp only [hostReset]
@[simp] theorem hostReset_mtvec : (hostReset s).mtvec = 0#32 := by simp only [hostReset]
@[simp] theorem hostReset_mscratch : (hostReset s).mscratch = 0#32 := by simp only [hostReset]
@[simp] theorem hostReset_mepc : (hostReset s).mepc = 0#32 := by simp only [hostReset]
@[simp] theorem hostReset_mcause : (hostReset s).mcause = 0#32 := by simp only [hostReset]
@[simp] theorem hostReset_mtval : (hostReset s).mtval = 0#32 := by simp only [hostReset]
@[simp] theorem hostReset_mip : (hostReset s).mip = 0#32 := by simp only [hostReset]
@[simp] theorem hostReset_wfi : (hostReset s).wfi = false := by simp only [hostReset]
@[simp] theorem hostReset_priv : (hostReset s).priv = .machine := by simp only [hostReset]
@[simp] theorem hostReset_resvValid : (hostReset s).resvValid = false := by simp only [hostReset]
@[simp] theorem hostReset_resvAddr : (hostReset s).resvAddr = Config.resetResvAddr s.resets := by simp only [hostReset]
@[simp] theorem hostReset_mem : (hostReset s).mem = s.mem := by simp only [hostReset]
@[simp] theorem hostReset_consoleIn : (hostReset s).consoleIn = s.consoleIn := by simp only [hostReset]
@[simp] theorem hostReset_consoleOut : (hostReset s).consoleOut = s.consoleOut := by simp only [hostReset]
@[simp] theorem hostReset_params : (hostReset s).params = s.params := by simp only [hostReset]
@[simp] theorem hostReset_call : (hostReset s).call = s.call := by simp only [hostReset]
@[simp] theorem hostReset_result : (hostReset s).result = s.result := by simp only [hostReset]
@[simp] theorem hostReset_hostQueue : (hostReset s).hostQueue = s.hostQueue := by simp only [hostReset]
@[simp] theorem hostReset_defaultCall : (hostReset s).defaultCall = s.defaultCall := by simp only [hostReset]
@[simp] theorem hostReset_resets : (hostReset s).resets = s.resets + 1 := by simp only [hostReset]

/-! ### The register file -/

@[simp] theorem x_zero : s.x 0 = 0#32 := by simp [State.x]

theorem x_of_ne_zero {r : Reg} (h : r ≠ 0) : s.x r = s.regs[r] := by simp [State.x, h]

theorem setX_zero (v : Word) : s.setX 0 v = s := by simp [State.setX]

/-- Reading after a register write: the written register gives the value, unless it is `x0`. -/
theorem x_setX (rd r : Reg) (v : Word) : (s.setX rd v).x r = if r = rd ∧ rd ≠ 0 then v else s.x r := by
  by_cases hd : rd = 0
  · subst hd; simp [setX_zero]
  · by_cases hr : r = 0
    · subst hr; simp [Ne.symm hd]
    · simp only [State.x, State.setX, hd, hr, if_false, ne_eq, not_false_eq_true, and_true]
      by_cases h : r = rd
      · subst h; simp
      · have : (rd : Nat) ≠ r := fun e => h (Fin.ext e.symm)
        simp [h, this]

/-- Only the stored registers matter to a register read. -/
theorem x_congr {t : State} (h : t.regs = s.regs) (r : Reg) : t.x r = s.x r := by simp [State.x, h]

@[simp] theorem x_nextPc (r : Reg) : s.nextPc.x r = s.x r := rfl

@[simp] theorem x_memWrite (a v : Word) (w : Width) (r : Reg) : (s.memWrite a v w).x r = s.x r := rfl

@[simp] theorem x_endCall (c : ResultCode) (r : Reg) : (s.endCall c).x r = s.x r := rfl

@[simp] theorem x_raise (e : Exception) (tval : Word) (r : Reg) : (raise e tval s).x r = s.x r := rfl

theorem x_retire (rd r : Reg) (v : Word) : (s.retire rd v).x r = if r = rd ∧ rd ≠ 0 then v else s.x r :=
  x_setX s rd r v

/-- `setX` changes the register file only. -/
theorem setX_frame (rd : Reg) (v : Word) : s.setX rd v = { s with regs := (s.setX rd v).regs } := by
  unfold State.setX; split <;> rfl

/-- `retire` changes the register file and `pc` only. -/
theorem retire_frame (rd : Reg) (v : Word) :
    s.retire rd v = { s with regs := (s.setX rd v).regs, pc := s.pc + 4 } := by
  unfold State.retire State.nextPc State.setX; split <;> rfl

/-- A register write never touches the storage of `x0`. -/
theorem setX_regs_zero (rd : Reg) (v : Word) : (s.setX rd v).regs[0] = s.regs[0] := by
  unfold State.setX
  split
  · rfl
  · next h =>
    have : (rd : Nat) ≠ 0 := fun e => h (Fin.ext e)
    simp [this]

/-- After HOST.Reset `x10` holds the hart number 0. -/
@[simp] theorem hostReset_x10 : (hostReset s).x 10 = 0#32 := by simp [State.x, hostResetRegs, Config.hartId]

/-- After HOST.Reset `x11` holds `DTB_PTR`. -/
@[simp] theorem hostReset_x11 : (hostReset s).x 11 = s.params.dtbPtr := by simp [State.x, hostResetRegs]

end Sys2Proof.Machine
end

