-- ==== Sys2Proof/Laws/Memory.lean ====
section
/-! SUPPORT. The memory operations: read after write, the canonical form, and the bounds of RAM. -/

namespace Sys2Proof.Machine

/-! ## Bytes -/

theorem Memory.wf_cons {k : Nat} {b : Byte} {m : Memory} :
    Memory.wf ((k, b) :: m) = true ↔ b ≠ Config.unlistedByte ∧ (∀ c ∈ m, k < c.1) ∧ Memory.wf m = true := by
  simp [Memory.wf, and_assoc]

theorem Memory.read_of_lt {m : Memory} {a : Nat} (h : ∀ c ∈ m, a < c.1) : Memory.read m a = Config.unlistedByte := by
  induction m with
  | nil => rfl
  | cons c m ih =>
    obtain ⟨k, b⟩ := c
    have hk : a < k := h (k, b) (by simp)
    simp only [Memory.read, if_neg (Nat.ne_of_lt hk)]
    exact ih fun c hc => h c (by simp [hc])

/-- Every key of a written memory is the written address or an old key. -/
theorem Memory.mem_write {m : Memory} {a : Nat} {b : Byte} {c : Host.Cell} (h : c ∈ Memory.write m a b) :
    c = (a, b) ∨ c ∈ m := by
  induction m with
  | nil =>
    simp only [Memory.write] at h
    split at h <;> simp_all
  | cons d m ih =>
    obtain ⟨k, e⟩ := d
    simp only [Memory.write] at h
    split at h
    · split at h
      · exact .inr h
      · simpa using h
    · split at h
      · split at h
        · exact .inr (by simp [h])
        · rcases List.mem_cons.1 h with h | h
          · exact .inl h
          · exact .inr (by simp [h])
      · rcases List.mem_cons.1 h with h | h
        · exact .inr (by simp [h])
        · exact (ih h).imp_right fun h => by simp [h]

/-- Read after write, at the written address and at every other. -/
theorem Memory.read_write {m : Memory} (hm : Memory.wf m = true) (a : Nat) (b : Byte) (a' : Nat) :
    Memory.read (Memory.write m a b) a' = if a' = a then b else Memory.read m a' := by
  induction m with
  | nil =>
    simp only [Memory.write]
    split
    · next h => subst h; simp [Memory.read]
    · simp [Memory.read]
  | cons c m ih =>
    obtain ⟨k, e⟩ := c
    obtain ⟨-, hlt, hwf⟩ := Memory.wf_cons.1 hm
    simp only [Memory.write]
    split
    · next hak =>
      have hread : Memory.read ((k, e) :: m) a = Config.unlistedByte := Memory.read_of_lt (by
        intro c hc
        rcases List.mem_cons.1 hc with rfl | hc
        · exact hak
        · exact Nat.lt_trans hak (hlt c hc))
      split
      · next hb =>
        by_cases h : a' = a
        · rw [h, hread, if_pos rfl, hb]
        · rw [if_neg h]
      · rfl
    · split
      · next hak hk =>
        subst hk
        split
        · next hb =>
          by_cases h : a' = a
          · rw [if_pos h, h, Memory.read_of_lt hlt, hb]
          · simp [Memory.read, h]
        · by_cases h : a' = a <;> simp [Memory.read, h]
      · next hak hk =>
        by_cases h : a' = k
        · have : a' ≠ a := fun e => hk (by omega)
          simp [Memory.read, h, Ne.symm hk]
        · simp [Memory.read, h, ih hwf]

/-- A write keeps the canonical form. -/
theorem Memory.wf_write {m : Memory} (hm : Memory.wf m = true) (a : Nat) (b : Byte) :
    Memory.wf (Memory.write m a b) = true := by
  induction m with
  | nil =>
    simp only [Memory.write]
    split
    · rfl
    · next h => simp [Memory.wf, h]
  | cons c m ih =>
    obtain ⟨k, e⟩ := c
    obtain ⟨he, hlt, hwf⟩ := Memory.wf_cons.1 hm
    simp only [Memory.write]
    split
    · next hak =>
      split
      · exact hm
      · next hb =>
        refine Memory.wf_cons.2 ⟨hb, fun c hc => ?_, hm⟩
        rcases List.mem_cons.1 hc with rfl | hc
        · exact hak
        · exact Nat.lt_trans hak (hlt c hc)
    · split
      · next hak hk =>
        subst hk
        split
        · exact hwf
        · next hb => exact Memory.wf_cons.2 ⟨hb, hlt, hwf⟩
      · next hak hk =>
        refine Memory.wf_cons.2 ⟨he, fun c hc => ?_, ih hwf⟩
        rcases Memory.mem_write hc with rfl | hc
        · exact Nat.lt_of_le_of_ne (Nat.le_of_not_lt hak) (Ne.symm hk)
        · exact hlt c hc

theorem Memory.within_iff {p : Params} {m : Memory} :
    Memory.within p m = true ↔ ∀ c ∈ m, p.ramBase.toNat ≤ c.1 ∧ c.1 < p.ramBase.toNat + p.ramSize := by
  simp [Memory.within]

/-- A write at an address of RAM keeps every listed byte in RAM. -/
theorem Memory.within_write {p : Params} {m : Memory} (hm : Memory.within p m = true) {a : Nat} (b : Byte)
    (h : p.ramBase.toNat ≤ a ∧ a < p.ramBase.toNat + p.ramSize) : Memory.within p (Memory.write m a b) = true := by
  rw [Memory.within_iff] at hm ⊢
  intro c hc
  rcases Memory.mem_write hc with rfl | hc
  · exact h
  · exact hm c hc

/-- In canonical form, memories that read alike are equal. -/
theorem Memory.ext_of_read {m n : Memory} (hm : Memory.wf m = true) (hn : Memory.wf n = true)
    (h : ∀ a, Memory.read m a = Memory.read n a) : m = n := by
  induction m generalizing n with
  | nil =>
    cases n with
    | nil => rfl
    | cons c n =>
      obtain ⟨k, b⟩ := c
      have := h k
      simp only [Memory.read, if_true] at this
      exact absurd this.symm (Memory.wf_cons.1 hn).1
  | cons c m ih =>
    obtain ⟨k, b⟩ := c
    obtain ⟨hb, hlt, hwf⟩ := Memory.wf_cons.1 hm
    cases n with
    | nil =>
      have := h k
      simp only [Memory.read, if_true] at this
      exact absurd this hb
    | cons d n =>
      obtain ⟨l, e⟩ := d
      obtain ⟨he, hlt', hwf'⟩ := Memory.wf_cons.1 hn
      have hk := h k
      have hl := h l
      simp only [Memory.read, if_true] at hk hl
      have hkl : k = l := by
        rcases Nat.lt_trichotomy k l with hlt1 | heq | hlt1
        · rw [if_neg (Nat.ne_of_lt hlt1), Memory.read_of_lt fun c hc => Nat.lt_trans hlt1 (hlt' c hc)] at hk
          exact absurd hk hb
        · exact heq
        · rw [if_neg (Nat.ne_of_lt hlt1), Memory.read_of_lt fun c hc => Nat.lt_trans hlt1 (hlt c hc)] at hl
          exact absurd hl.symm he
      subst hkl
      rw [if_pos rfl] at hk
      rw [hk]
      refine congrArg _ (ih hwf hwf' fun a => ?_)
      by_cases ha : a = k
      · rw [ha, Memory.read_of_lt hlt, Memory.read_of_lt hlt']
      · have := h a
        simpa [Memory.read, ha] using this

/-! ## Little-endian accesses -/

theorem Memory.wf_writeLE {m : Memory} (hm : Memory.wf m = true) (a : Nat) (v : Word) (w : Width) :
    Memory.wf (m.writeLE a v w) = true := by
  cases w
  · exact Memory.wf_write hm _ _
  · exact Memory.wf_write (Memory.wf_write hm _ _) _ _
  · exact Memory.wf_write (Memory.wf_write (Memory.wf_write (Memory.wf_write hm _ _) _ _) _ _) _ _

/-- A write leaves every byte outside the written ones as it was. -/
theorem Memory.read_writeLE_of_outside {m : Memory} (hm : Memory.wf m = true) (a : Nat) (v : Word) (w : Width)
    {a' : Nat} (h : a' < a ∨ a + w.bytes ≤ a') : Memory.read (m.writeLE a v w) a' = Memory.read m a' := by
  cases w <;> simp only [Width.bytes] at h
  · simp only [Memory.writeLE, Memory.read_write hm]
    rw [if_neg (by omega)]
  · simp only [Memory.writeLE, Memory.read_write (Memory.wf_write hm _ _), Memory.read_write hm]
    rw [if_neg (by omega), if_neg (by omega)]
  · simp only [Memory.writeLE, Memory.read_write (Memory.wf_write (Memory.wf_write (Memory.wf_write hm _ _) _ _) _ _),
      Memory.read_write (Memory.wf_write (Memory.wf_write hm _ _) _ _), Memory.read_write (Memory.wf_write hm _ _),
      Memory.read_write hm]
    rw [if_neg (by omega), if_neg (by omega), if_neg (by omega), if_neg (by omega)]

/-- Byte `i` of a write is bits `8i+7:8i` of the value (20_memory.md R73). -/
theorem Memory.read_writeLE {m : Memory} (hm : Memory.wf m = true) (a : Nat) (v : Word) (w : Width)
    {i : Nat} (h : i < w.bytes) : Memory.read (m.writeLE a v w) (a + i) = byteOf v i := by
  cases w <;> simp only [Width.bytes] at h
  · obtain rfl : i = 0 := by omega
    simp [Memory.writeLE, Memory.read_write hm]
  · simp only [Memory.writeLE, Memory.read_write (Memory.wf_write hm _ _), Memory.read_write hm]
    obtain rfl | rfl : i = 0 ∨ i = 1 := by omega
    all_goals simp
  · simp only [Memory.writeLE, Memory.read_write (Memory.wf_write (Memory.wf_write (Memory.wf_write hm _ _) _ _) _ _),
      Memory.read_write (Memory.wf_write (Memory.wf_write hm _ _) _ _), Memory.read_write (Memory.wf_write hm _ _),
      Memory.read_write hm]
    obtain rfl | rfl | rfl | rfl : i = 0 ∨ i = 1 ∨ i = 2 ∨ i = 3 := by omega
    all_goals simp

theorem Params.inRam_iff {p : Params} {a : Word} {n : Nat} :
    p.inRam a n = true ↔ p.ramBase.toNat ≤ a.toNat ∧ a.toNat - p.ramBase.toNat + n ≤ p.ramSize := by
  simp [Params.inRam]

/-- A write whose bytes lie in RAM keeps every listed byte in RAM. -/
theorem Memory.within_writeLE {p : Params} {m : Memory} (hm : Memory.within p m = true) (a v : Word) (w : Width)
    (h : p.inRam a w.bytes = true) : Memory.within p (m.writeLE a.toNat v w) = true := by
  obtain ⟨h1, h2⟩ := Params.inRam_iff.1 h
  cases w <;> simp only [Width.bytes] at h2 <;> simp only [Memory.writeLE]
  · exact Memory.within_write hm _ (by omega)
  · exact Memory.within_write (Memory.within_write hm _ (by omega)) _ (by omega)
  · exact Memory.within_write (Memory.within_write (Memory.within_write (Memory.within_write hm _ (by omega)) _
      (by omega)) _ (by omega)) _ (by omega)

/-- Four bytes of a word put back together. -/
theorem word_of_bytes (v : Word) : byteOf v 3 ++ byteOf v 2 ++ byteOf v 1 ++ byteOf v 0 = v := by
  apply BitVec.eq_of_getLsbD_eq
  intro i hi
  simp only [BitVec.getLsbD_append, byteOf, BitVec.getLsbD_extractLsb']
  rcases (by omega : i < 8 ∨ (8 ≤ i ∧ i < 16) ∨ (16 ≤ i ∧ i < 24) ∨ (24 ≤ i ∧ i < 32)) with h | h | h | h
  · simp [h]
  · simp [show ¬ i < 8 by omega, show i - 8 < 8 by omega, show 8 + (i - 8) = i by omega]
  · simp [show ¬ i < 8 by omega, show ¬ i - 8 < 8 by omega, show i - 8 - 8 < 8 by omega,
      show 16 + (i - 8 - 8) = i by omega]
  · simp [show ¬ i < 8 by omega, show ¬ i - 8 < 8 by omega, show ¬ i - 8 - 8 < 8 by omega,
      show i - 8 - 8 - 8 < 8 by omega, show 24 + (i - 8 - 8 - 8) = i by omega]

/-- A word read back after a word write at the same address. -/
theorem Memory.readLE_writeLE_word {m : Memory} (hm : Memory.wf m = true) (a : Nat) (v : Word) :
    (m.writeLE a v .word).readLE a .word = v := by
  have h (i : Nat) (hi : i < 4) := Memory.read_writeLE hm a v .word (i := i) hi
  simp only [Memory.readLE, h 1 (by omega), h 2 (by omega), h 3 (by omega)]
  rw [show Memory.read (m.writeLE a v .word) a = byteOf v 0 from h 0 (by omega)]
  exact word_of_bytes v

end Sys2Proof.Machine
end

