-- ==== Sys2Proof/Laws/Ops.lean ====
section
/-! SUPPORT. What each shared operation can do, said once: the status fields, the load, store and atomic paths, the
CSR file, trap entry, and one turn of the driver. -/

namespace Sys2Proof.Machine

open Host (Outcome)

/-! ## Status fields -/

/-- A bit of a word with one bit replaced. -/
theorem getLsbD_withBit (v : Word) {k : Nat} (hk : k < 32) (b : Bool) (i : Nat) :
    (withBit v k b).getLsbD i = if i = k then b else v.getLsbD i := by
  have hone : (1#32 <<< k).getLsbD i = decide (i = k) := by
    simp only [BitVec.getLsbD_shiftLeft, BitVec.getLsbD_one]
    by_cases h : i = k
    · subst h; simp [hk]
    · simp only [h, decide_false]
      by_cases h2 : i < k
      · simp [h2]
      · have : i - k ≠ 0 := by omega
        simp [this]
  have hlen : 32 ≤ i → v.getLsbD i = false := fun h => by simp [h]
  unfold withBit
  cases b
  · simp only [Bool.false_eq_true, if_false, BitVec.getLsbD_and, BitVec.getLsbD_not, hone]
    by_cases h : i = k
    · simp [h]
    · by_cases hi : i < 32
      · simp [h, hi]
      · simp [h, hlen (by omega)]
  · simp only [if_true, BitVec.getLsbD_or, hone]
    by_cases h : i = k <;> simp [h]

/-- `mstatus` after trap entry, bit by bit. -/
theorem getLsbD_mstatusTrapEntry (m : Word) (i : Nat) :
    (mstatusTrapEntry m).getLsbD i =
      if i = 12 then true else if i = 11 then true else if i = 3 then false else if i = 7 then m.getLsbD 3
      else m.getLsbD i := by
  simp only [mstatusTrapEntry, withMppMachine, getLsbD_withBit _ (show 12 < 32 by omega),
    getLsbD_withBit _ (show 11 < 32 by omega), getLsbD_withBit _ (show 3 < 32 by omega),
    getLsbD_withBit _ (show 7 < 32 by omega), mstatusMie]

/-- `mstatus` after MRET, bit by bit. -/
theorem getLsbD_mstatusReturn (m : Word) (i : Nat) :
    (mstatusReturn m).getLsbD i =
      if i = 12 then true else if i = 11 then true else if i = 7 then true else if i = 3 then m.getLsbD 7
      else m.getLsbD i := by
  simp only [mstatusReturn, withMppMachine, getLsbD_withBit _ (show 12 < 32 by omega),
    getLsbD_withBit _ (show 11 < 32 by omega), getLsbD_withBit _ (show 3 < 32 by omega),
    getLsbD_withBit _ (show 7 < 32 by omega), mstatusMpie]

/-- `mip` after a CSR write, bit by bit. -/
theorem getLsbD_mipCsrWrite (old v : Word) (i : Nat) :
    (mipCsrWrite old v).getLsbD i = if i = 7 then old.getLsbD 7 else v.getLsbD i := by
  unfold mipCsrWrite
  simp only [BitVec.getLsbD_append, BitVec.getLsbD_extractLsb']
  by_cases h : i < 7
  · simp [h, show i ≠ 7 by omega]
  · by_cases h7 : i = 7
    · subst h7; simp
    · have h1 : ¬ i - 7 < 1 := by omega
      by_cases h32 : i < 32
      · simp [h, h7, h1, show i - 7 - 1 < 24 by omega, show 8 + (i - 7 - 1) = i by omega]
      · simp [h, h7, h1, show ¬ i - 7 - 1 < 24 by omega, show 32 ≤ i by omega]

/-! ## Access paths -/

/-- The intercept controller's load hook changes the input queue only, and consumes at most its head, at the UART data
register. -/
theorem controlLoad_cases {a v : Word} {s t : State} (h : controlLoad a s = some (v, t)) :
    t = s ∨ a = Config.uartData ∧ ∃ b bs, s.consoleIn = b :: bs ∧ t = { s with consoleIn := bs } := by
  unfold controlLoad inputByte at h
  split at h
  · simp only [Option.some.injEq, Prod.mk.injEq] at h
    exact .inl h.2.symm
  · split at h
    · next ha =>
      split at h
      · simp only [Option.getD_none, Option.some.injEq, Prod.mk.injEq] at h
        exact .inl h.2.symm
      · next b bs hq =>
        simp only [Option.getD_some, Option.some.injEq, Prod.mk.injEq] at h
        exact .inr ⟨ha, b, bs, hq, h.2.symm⟩
    · cases h

/-- A load instruction raises with nothing done, or completes: the input queue, `rd` and `pc` are all it changes. -/
theorem loadInto_cases (w : Width) (ext : Word → Word) (rd : Reg) (a : Word) (s : State) :
    (∃ e, load w a s = .raised e ∧ loadInto w ext rd a s = raise e a s) ∨
      ∃ v q, loadInto w ext rd a s = { s with consoleIn := q }.retire rd v ∧
        (q = s.consoleIn ∨ a = Config.uartData ∧ ∃ b, s.consoleIn = b :: q) := by
  unfold loadInto
  cases hl : load w a s with
  | raised e => exact .inl ⟨e, rfl, rfl⟩
  | mem m => exact .inr ⟨ext m, s.consoleIn, rfl, .inl rfl⟩
  | claimed v t =>
    refine .inr ⟨v, t.consoleIn, ?_⟩
    have ht : t = s ∨ a = Config.uartData ∧ ∃ b bs, s.consoleIn = b :: bs ∧ t = { s with consoleIn := bs } := by
      unfold load at hl
      split at hl
      · cases hl; exact .inl rfl
      · split at hl
        · next h => cases hl; exact controlLoad_cases h
        · split at hl
          · cases hl
          · split at hl <;> cases hl
    rcases ht with rfl | ⟨ha, b, bs, hq, rfl⟩
    · exact ⟨rfl, .inl rfl⟩
    · exact ⟨rfl, .inr ⟨ha, b, hq⟩⟩

/-- What a completed store leaves before `pc` advances: nothing changed, the timer compare, one output byte, or the
bytes stored, which lie in RAM; and at which addresses. -/
def StoredState (w : Width) (a v : Word) (s u : State) : Prop :=
  u = s ∨ ((a = s.params.timerCmpLo ∨ a = s.params.timerCmpHi) ∧ ∃ tc, u = { s with timerCompare := tc }) ∨
    (a = Config.uartData ∧ ∃ b, u = s.emit (.outByte b)) ∨ (s.inRam a w = true ∧ u = s.memWrite a v w)

/-- What a store to one of the core's own registers does. -/
theorem coreStore_cases {a v : Word} {s : State} {o : StoreOutcome} (h : coreStore a v s = some o) :
    (∃ u, o = .done u ∧
      (u = s ∨ (a = s.params.timerCmpLo ∨ a = s.params.timerCmpHi) ∧ ∃ tc, u = { s with timerCompare := tc })) ∨
      o = .halt .restart s ∨ o = .halt .poweroff s := by
  unfold coreStore at h
  split at h
  · next ha => cases h; exact .inl ⟨_, rfl, .inr ⟨.inl ha, _, rfl⟩⟩
  · split at h
    · next ha => cases h; exact .inl ⟨_, rfl, .inr ⟨.inr ha, _, rfl⟩⟩
    · split at h
      · cases h; exact .inl ⟨_, rfl, .inl rfl⟩
      · split at h
        · cases h; exact .inl ⟨_, rfl, .inl rfl⟩
        · split at h
          · split at h
            · cases h; exact .inr (.inl rfl)
            · split at h
              · cases h; exact .inr (.inr rfl)
              · cases h; exact .inl ⟨_, rfl, .inl rfl⟩
          · cases h

/-- A store instruction raises with nothing done, completes, or completes and ends the call with a syscon request. -/
theorem storeFrom_cases (w : Width) (a v : Word) (s : State) :
    (∃ e, store w a v s = .raised e ∧ storeFrom w a v s = raise e a s) ∨
      (∃ u, StoredState w a v s u ∧ storeFrom w a v s = u.nextPc) ∨
      (∃ r, (r = .restart ∨ r = .poweroff) ∧ storeFrom w a v s = s.nextPc.endCall r) := by
  unfold storeFrom
  cases hs : store w a v s with
  | raised e => exact .inl ⟨e, rfl, rfl⟩
  | done u =>
    refine .inr (.inl ⟨u, ?_, rfl⟩)
    unfold store at hs
    split at hs
    · next o ho =>
      subst hs
      rcases coreStore_cases ho with ⟨u', he, hu⟩ | he | he
      · cases he
        exact hu.imp id fun h => .inl h
      · cases he
      · cases he
    · split at hs
      · next t ht =>
        cases hs
        unfold controlStore at ht
        split at ht
        · next ha => cases ht; exact .inr (.inr (.inl ⟨ha, _, rfl⟩))
        · cases ht
      · split at hs
        · cases hs
        · split at hs
          · cases hs
          · next hr =>
            cases hs
            exact .inr (.inr (.inr ⟨by simpa using hr, rfl⟩))
  | halt r u =>
    refine .inr (.inr ?_)
    unfold store at hs
    split at hs
    · next o ho =>
      subst hs
      rcases coreStore_cases ho with ⟨u', he, -⟩ | he | he
      · cases he
      · cases he; exact ⟨_, .inl rfl, rfl⟩
      · cases he; exact ⟨_, .inr rfl, rfl⟩
    · split at hs
      · cases hs
      · split at hs
        · cases hs
        · split at hs <;> cases hs

/-- An atomic's address check passes exactly when the address is a multiple of 4 and the word lies in RAM. -/
theorem atomicCheck_eq_none {k : AtomicKind} {a : Word} {s : State} :
    atomicCheck k a s = none ↔ Width.word.aligned a = true ∧ s.inRam a .word = true := by
  unfold atomicCheck
  cases h1 : Width.word.aligned a <;> cases h2 : s.inRam a .word <;> simp

/-- An AMO raises with nothing done, or writes the word and `rd`. -/
theorem amo_cases (f : Word → Word → Word) (rd rs1 rs2 : Reg) (s : State) :
    (∃ e, atomicCheck .store (s.x rs1) s = some e ∧ amo f rd rs1 rs2 s = raise e (s.x rs1) s) ∨
      (s.inRam (s.x rs1) .word = true ∧
        amo f rd rs1 rs2 s =
          (s.memWrite (s.x rs1) (f (s.memRead (s.x rs1) .word) (s.x rs2)) .word).retire rd
            (s.memRead (s.x rs1) .word)) := by
  cases h : atomicCheck .store (s.x rs1) s with
  | some e => exact .inl ⟨e, rfl, by simp only [amo, h]⟩
  | none => exact .inr ⟨(atomicCheck_eq_none.1 h).2, by simp only [amo, h]⟩

/-! ## The CSR file -/

/-- A CSR read changes the input queue only, and consumes at most its head, for the input CSR. -/
theorem csrRead_state (n : CsrNum) (s : State) :
    (csrRead n s).2 = s ∨
      n = 0x140#12 ∧ ∃ b bs, s.consoleIn = b :: bs ∧ (csrRead n s).2 = { s with consoleIn := bs } := by
  have custom : (customCsrRead n s).2 = s ∨
      n = 0x140#12 ∧ ∃ b bs, s.consoleIn = b :: bs ∧ (customCsrRead n s).2 = { s with consoleIn := bs } := by
    unfold customCsrRead inputByte
    split
    · next hn =>
      split
      · exact .inl rfl
      · next b bs hq => exact .inr ⟨hn, b, bs, hq, rfl⟩
    · exact .inl rfl
  unfold csrRead
  split <;> first | exact .inl rfl | exact custom

/-- `s` with the eight writable CSRs replaced and `es` appended to the output log. -/
def State.withCsrs (s : State) (mstatus mie mtvec mscratch mepc mcause mtval mip : Word) (es : List OutEvent) : State :=
  { s with mstatus, mie, mtvec, mscratch, mepc, mcause, mtval, mip, consoleOut := s.consoleOut ++ es }

/-- Which CSR each change of a CSR write comes from; bit 7 of `mip` never changes. -/
structure CsrChange (n : CsrNum) (s : State) (mstatus mie mtvec mscratch mepc mcause mtval mip : Word)
    (es : List OutEvent) : Prop where
  mstatusBy : mstatus ≠ s.mstatus → n = 0x300#12
  mieBy : mie ≠ s.mie → n = 0x304#12
  mtvecBy : mtvec ≠ s.mtvec → n = 0x305#12
  mscratchBy : mscratch ≠ s.mscratch → n = 0x340#12
  mepcBy : mepc ≠ s.mepc → n = 0x341#12
  mcauseBy : mcause ≠ s.mcause → n = 0x342#12
  mtvalBy : mtval ≠ s.mtval → n = 0x343#12
  mipBy : mip ≠ s.mip → n = 0x344#12
  pendingKept : mip.getLsbD 7 = s.mip.getLsbD 7
  outBy : es ≠ [] → n ∈ [0x136#12, 0x137#12, 0x138#12, 0x139#12]

/-- What a CSR write can change: the eight writable CSRs, each by its own number, and the output log, which grows at
its end. -/
theorem csrWrite_state (n : CsrNum) (v : Word) (s : State) :
    ∃ mstatus mie mtvec mscratch mepc mcause mtval mip es,
      csrWrite n v s = s.withCsrs mstatus mie mtvec mscratch mepc mcause mtval mip es ∧
        CsrChange n s mstatus mie mtvec mscratch mepc mcause mtval mip es := by
  have out (es : List OutEvent) (h : es ≠ [] → n ∈ [0x136#12, 0x137#12, 0x138#12, 0x139#12]) :
      ∃ mstatus mie mtvec mscratch mepc mcause mtval mip es',
        { s with consoleOut := s.consoleOut ++ es } = s.withCsrs mstatus mie mtvec mscratch mepc mcause mtval mip es' ∧
          CsrChange n s mstatus mie mtvec mscratch mepc mcause mtval mip es' :=
    ⟨s.mstatus, s.mie, s.mtvec, s.mscratch, s.mepc, s.mcause, s.mtval, s.mip, es, rfl,
      ⟨absurd rfl, absurd rfl, absurd rfl, absurd rfl, absurd rfl, absurd rfl, absurd rfl, absurd rfl, rfl, h⟩⟩
  have csr (mstatus mie mtvec mscratch mepc mcause mtval mip : Word)
      (h : CsrChange n s mstatus mie mtvec mscratch mepc mcause mtval mip []) :
      ∃ mstatus' mie' mtvec' mscratch' mepc' mcause' mtval' mip' es,
        { s with mstatus, mie, mtvec, mscratch, mepc, mcause, mtval, mip } =
          s.withCsrs mstatus' mie' mtvec' mscratch' mepc' mcause' mtval' mip' es ∧
        CsrChange n s mstatus' mie' mtvec' mscratch' mepc' mcause' mtval' mip' es :=
    ⟨mstatus, mie, mtvec, mscratch, mepc, mcause, mtval, mip, [], by simp [State.withCsrs], h⟩
  have keep := csr s.mstatus s.mie s.mtvec s.mscratch s.mepc s.mcause s.mtval s.mip
    ⟨absurd rfl, absurd rfl, absurd rfl, absurd rfl, absurd rfl, absurd rfl, absurd rfl, absurd rfl, rfl, absurd rfl⟩
  have custom : ∃ mstatus mie mtvec mscratch mepc mcause mtval mip es,
      customCsrWrite n v s = s.withCsrs mstatus mie mtvec mscratch mepc mcause mtval mip es ∧
        CsrChange n s mstatus mie mtvec mscratch mepc mcause mtval mip es := by
    unfold customCsrWrite
    split
    · exact out _ fun _ => by decide
    · exact out _ fun _ => by decide
    · unfold printStr
      split
      · exact keep
      · exact out _ fun _ => by decide
    · exact out _ fun _ => by decide
    · exact keep
  unfold csrWrite
  split
  case h_1 =>
    exact csr v s.mie s.mtvec s.mscratch s.mepc s.mcause s.mtval s.mip
      ⟨fun _ => rfl, absurd rfl, absurd rfl, absurd rfl, absurd rfl, absurd rfl, absurd rfl, absurd rfl, rfl, absurd rfl⟩
  case h_3 =>
    exact csr s.mstatus v s.mtvec s.mscratch s.mepc s.mcause s.mtval s.mip
      ⟨absurd rfl, fun _ => rfl, absurd rfl, absurd rfl, absurd rfl, absurd rfl, absurd rfl, absurd rfl, rfl, absurd rfl⟩
  case h_4 =>
    exact csr s.mstatus s.mie v s.mscratch s.mepc s.mcause s.mtval s.mip
      ⟨absurd rfl, absurd rfl, fun _ => rfl, absurd rfl, absurd rfl, absurd rfl, absurd rfl, absurd rfl, rfl, absurd rfl⟩
  case h_5 =>
    exact csr s.mstatus s.mie s.mtvec v s.mepc s.mcause s.mtval s.mip
      ⟨absurd rfl, absurd rfl, absurd rfl, fun _ => rfl, absurd rfl, absurd rfl, absurd rfl, absurd rfl, rfl, absurd rfl⟩
  case h_6 =>
    exact csr s.mstatus s.mie s.mtvec s.mscratch v s.mcause s.mtval s.mip
      ⟨absurd rfl, absurd rfl, absurd rfl, absurd rfl, fun _ => rfl, absurd rfl, absurd rfl, absurd rfl, rfl, absurd rfl⟩
  case h_7 =>
    exact csr s.mstatus s.mie s.mtvec s.mscratch s.mepc v s.mtval s.mip
      ⟨absurd rfl, absurd rfl, absurd rfl, absurd rfl, absurd rfl, fun _ => rfl, absurd rfl, absurd rfl, rfl, absurd rfl⟩
  case h_8 =>
    exact csr s.mstatus s.mie s.mtvec s.mscratch s.mepc s.mcause v s.mip
      ⟨absurd rfl, absurd rfl, absurd rfl, absurd rfl, absurd rfl, absurd rfl, fun _ => rfl, absurd rfl, rfl, absurd rfl⟩
  case h_9 =>
    exact csr s.mstatus s.mie s.mtvec s.mscratch s.mepc s.mcause s.mtval (mipCsrWrite s.mip v)
      ⟨absurd rfl, absurd rfl, absurd rfl, absurd rfl, absurd rfl, absurd rfl, absurd rfl, fun _ => rfl,
        getLsbD_mipCsrWrite s.mip v 7, absurd rfl⟩
  all_goals first
    | exact keep
    | exact custom

/-! ## The driver -/

/-- The timer sampling writes bit 7 of `mip`, and wakes the hart when the timer is pending. -/
theorem sampleTimer_frame (s : State) :
    sampleTimer s = { s with mip := mipSampled s.mip (decide (s.timerCompare.toNat ≤ s.counter.toNat))
                             wfi := s.wfi && !decide (s.timerCompare.toNat ≤ s.counter.toNat) } := by
  unfold sampleTimer
  split
  · next h => simp [h]
  · next h => simp [h]

/-- What a fetch answers. -/
theorem fetch_cases (s : State) :
    (Width.word.aligned s.pc = false ∧ fetch s = .error .instrAddrMisaligned) ∨
      (Width.word.aligned s.pc = true ∧ s.inRam s.pc .word = false ∧ fetch s = .error .instrAccessFault) ∨
      (Width.word.aligned s.pc = true ∧ s.inRam s.pc .word = true ∧ fetch s = .ok (s.memRead s.pc .word)) := by
  unfold fetch
  cases h1 : Width.word.aligned s.pc <;> cases h2 : s.inRam s.pc .word <;> simp

/-- A slot's instruction raises a fetch or decode exception, or is executed. -/
theorem executeOne_cases (s : State) :
    (∃ e, executeOne s = .next (raise e s.pc s)) ∨
      executeOne s = .next (raise .illegalInstruction 0#32 s) ∨
      ∃ i, decodeWord (s.memRead s.pc .word) = .ok i ∧ executeOne s = exec i s := by
  unfold executeOne
  rcases fetch_cases s with ⟨-, h⟩ | ⟨-, -, h⟩ | ⟨-, -, h⟩
  · exact .inl ⟨_, by rw [h]⟩
  · exact .inl ⟨_, by rw [h]⟩
  · rw [h]
    cases hd : decodeWord (s.memRead s.pc .word) with
    | ok i => exact .inr (.inr ⟨i, rfl, by simp [hd]⟩)
    | error e => exact .inr (.inl (by simp [hd]))

end Sys2Proof.Machine
end

