-- ==== Sys2Proof/Laws/Exec.lean ====
section
/-! SUPPORT. What an instruction can do, said once: every instruction answers a next state, and that state is one of the
effects listed. Claims over all instructions follow from `exec_effect` by cases on the effect. -/

namespace Sys2Proof.Machine

open Host (Outcome)

/-- The effects an instruction can have on a state. -/
inductive Effect (i : Instr) (s : State) : State → Prop where
  /-- It raises, with nothing else done. -/
  | trap (e : Exception) (tval : Word) : Effect i s (raise e tval s)
  /-- It writes its destination register and `pc`. -/
  | write (rd : Reg) (v npc : Word) (hd : destination i = some rd) : Effect i s { s.setX rd v with pc := npc }
  /-- It writes `pc`. -/
  | goto (npc : Word) : Effect i s { s with pc := npc }
  /-- A load that may consume one byte of input at the UART data register. -/
  | load (rd : Reg) (a v : Word) (q : List Byte) (hd : destination i = some rd) (ha : loadAddress i s = some a)
      (hq : q = s.consoleIn ∨ a = Config.uartData ∧ ∃ b, s.consoleIn = b :: q) :
      Effect i s ({ s with consoleIn := q }.retire rd v)
  /-- A store. -/
  | store (w : Width) (a v : Word) (u : State) (ha : storeAddress i s = some (a, w.bytes)) (hu : StoredState w a v s u) :
      Effect i s u.nextPc
  /-- A syscon request. -/
  | syscon (r : ResultCode) (hr : r = .restart ∨ r = .poweroff) : Effect i s (s.nextPc.endCall r)
  /-- LR.W takes the reservation. -/
  | loadReserved (aq rl : Bool) (rd rs1 : Reg) (v : Word) (hi : i = .lrW aq rl rd rs1) :
      Effect i s { s.retire rd v with resvValid := true, resvAddr := s.x rs1 }
  /-- SC.W that stores. -/
  | scStored (aq rl : Bool) (rd rs1 rs2 : Reg) (v : Word) (hi : i = .scW aq rl rd rs1 rs2)
      (hr : s.inRam (s.x rs1) .word = true) :
      Effect i s { (s.memWrite (s.x rs1) v .word).retire rd 0#32 with resvValid := false }
  /-- SC.W that does not store. -/
  | scFailed (aq rl : Bool) (rd rs1 rs2 : Reg) (hi : i = .scW aq rl rd rs1 rs2) :
      Effect i s { s.retire rd 1#32 with resvValid := false }
  /-- An AMO. -/
  | amo (rd : Reg) (a new old : Word) (hd : destination i = some rd) (ha : atomicStoreAddress i s = some a)
      (hr : s.inRam a .word = true) : Effect i s ((s.memWrite a new .word).retire rd old)
  /-- A CSR instruction. -/
  | csr (rd : Reg) (n : CsrNum) (v : Word) (hd : destination i = some rd) (hn : csrAccessed i = some n) :
      Effect i s ((csrWrite n v (csrRead n s).2).retire rd (csrRead n s).1)
  /-- MRET. -/
  | mret (hi : i = .mret) : Effect i s (trapReturn s)
  /-- WFI. -/
  | wfi (hi : i = .wfi) :
      Effect i s ({ (s.addCounter (s.call.getD 0#32)).nextPc with wfi := true }.endCall .sleep)

theorem retire_effect {i : Instr} {s : State} {rd : Reg} {v : Word} (hd : destination i = some rd) :
    Effect i s (s.retire rd v) := by
  have h := Effect.write (s := s) rd v (s.pc + 4) hd
  have hp : (s.setX rd v).pc = s.pc := setX_pc s rd v
  unfold State.retire State.nextPc
  rw [hp]
  exact h

theorem branch_effect {i : Instr} {s : State} (taken : Bool) (off : BitVec 13) : Effect i s (branch taken off s) := by
  unfold branch
  split
  · exact .goto _
  · exact .goto _

theorem load_effect {i : Instr} {s : State} {w : Width} {ext : Word → Word} {rd : Reg} {a : Word}
    (hd : destination i = some rd) (ha : loadAddress i s = some a) : Effect i s (loadInto w ext rd a s) := by
  rcases loadInto_cases w ext rd a s with ⟨e, -, h⟩ | ⟨v, q, h, hq⟩
  · rw [h]; exact .trap e a
  · rw [h]; exact .load rd a v q hd ha hq

theorem store_effect {i : Instr} {s : State} {w : Width} {a v : Word} (ha : storeAddress i s = some (a, w.bytes)) :
    Effect i s (storeFrom w a v s) := by
  rcases storeFrom_cases w a v s with ⟨e, -, h⟩ | ⟨u, hu, h⟩ | ⟨r, hr, h⟩
  · rw [h]; exact .trap e a
  · rw [h]; exact .store w a v u ha hu
  · rw [h]; exact .syscon r hr

theorem amo_effect {i : Instr} {s : State} {f : Word → Word → Word} {rd rs1 rs2 : Reg} (hd : destination i = some rd)
    (ha : atomicStoreAddress i s = some (s.x rs1)) : Effect i s (amo f rd rs1 rs2 s) := by
  rcases amo_cases f rd rs1 rs2 s with ⟨e, -, h⟩ | ⟨hr, h⟩
  · rw [h]; exact .trap e _
  · rw [h]; exact .amo rd _ _ _ hd ha hr

theorem lr_effect (aq rl : Bool) (rd rs1 : Reg) (s : State) :
    ∃ t, exec (.lrW aq rl rd rs1) s = .next t ∧ Effect (.lrW aq rl rd rs1) s t := by
  simp only [exec, execLrW]
  cases h : atomicCheck .load (s.x rs1) s with
  | some e => exact ⟨_, rfl, .trap e _⟩
  | none => exact ⟨_, rfl, .loadReserved aq rl rd rs1 _ rfl⟩

theorem sc_effect (aq rl : Bool) (rd rs1 rs2 : Reg) (s : State) :
    ∃ t, exec (.scW aq rl rd rs1 rs2) s = .next t ∧ Effect (.scW aq rl rd rs1 rs2) s t := by
  simp only [exec, execScW]
  cases h : atomicCheck .store (s.x rs1) s with
  | some e => exact ⟨_, rfl, .trap e _⟩
  | none =>
    by_cases hv : s.resvValid = true ∧ s.resvAddr = s.x rs1
    · simp only [if_pos hv]
      exact ⟨_, rfl, .scStored aq rl rd rs1 rs2 _ rfl (atomicCheck_eq_none.1 h).2⟩
    · simp only [if_neg hv]
      exact ⟨_, rfl, .scFailed aq rl rd rs1 rs2 rfl⟩

/-- Every instruction, in every state, answers a next state, and that state is one of its effects. -/
theorem exec_effect (i : Instr) (s : State) : ∃ t, exec i s = .next t ∧ Effect i s t := by
  cases i
  case jal rd off => exact ⟨_, rfl, .write rd _ _ rfl⟩
  case jalr rd rs1 imm => exact ⟨_, rfl, .write rd _ _ rfl⟩
  case lrW aq rl rd rs1 => exact lr_effect aq rl rd rs1 s
  case scW aq rl rd rs1 rs2 => exact sc_effect aq rl rd rs1 rs2 s
  case fence => exact ⟨_, rfl, .goto _⟩
  case fenceI => exact ⟨_, rfl, .goto _⟩
  case ecall => exact ⟨_, rfl, .trap _ _⟩
  case ebreak => exact ⟨_, rfl, .trap _ _⟩
  case mret => exact ⟨_, rfl, .mret rfl⟩
  case wfi => exact ⟨_, rfl, .wfi rfl⟩
  all_goals first
    | exact ⟨_, rfl, retire_effect rfl⟩
    | exact ⟨_, rfl, branch_effect _ _⟩
    | exact ⟨_, rfl, load_effect rfl rfl⟩
    | exact ⟨_, rfl, store_effect rfl⟩
    | exact ⟨_, rfl, amo_effect rfl rfl⟩
    | exact ⟨_, rfl, .csr _ _ _ rfl rfl⟩

/-- The effect of an execution that answered `t`. -/
theorem effect_of_exec {i : Instr} {s t : State} (h : exec i s = .next t) : Effect i s t := by
  obtain ⟨u, hu, he⟩ := exec_effect i s
  rw [h] at hu
  cases hu
  exact he

end Sys2Proof.Machine
end

