-- ==== Sys2Proof/Laws/PerInstr.lean ====
section
/-! SUPPORT. One lemma per instruction: the low two bits of its word are `11`, so that no word of the table is a
compressed instruction's (30_encoding.md R120). -/

namespace Sys2Proof

/-- The low two bits of a word are `11`. -/
def lowTwoSet (w : Word) : Prop := w.getLsbD 0 = true ∧ w.getLsbD 1 = true

namespace Laws.LowBits

/-- The word of an instruction has low bits `11` (30_encoding.md R120). -/
def Statement (i : Instr) : Prop := lowTwoSet (encode i)

/-- The two bits of a word that ends in its 7-bit opcode are the opcode's. -/
theorem of_opcode {n : Nat} {op : BitVec 7} (x : BitVec n) (w : Word) (h : ∀ k, k < 7 → w.getLsbD k = (x ++ op).getLsbD k)
    (h0 : op.getLsbD 0 = true) (h1 : op.getLsbD 1 = true) : lowTwoSet w := by
  constructor
  · rw [h 0 (by omega), BitVec.getLsbD_append]; simpa using h0
  · rw [h 1 (by omega), BitVec.getLsbD_append]; simpa using h1

theorem lui (rd : Reg) (imm20 : BitVec 20) : Statement (.lui rd imm20) := of_opcode _ _ (fun _ _ => rfl) rfl rfl
theorem auipc (rd : Reg) (imm20 : BitVec 20) : Statement (.auipc rd imm20) := of_opcode _ _ (fun _ _ => rfl) rfl rfl
theorem jal (rd : Reg) (off : BitVec 21) : Statement (.jal rd off) := of_opcode _ _ (fun _ _ => rfl) rfl rfl
theorem jalr (rd rs1 : Reg) (imm : BitVec 12) : Statement (.jalr rd rs1 imm) := of_opcode _ _ (fun _ _ => rfl) rfl rfl
theorem beq (rs1 rs2 : Reg) (off : BitVec 13) : Statement (.beq rs1 rs2 off) := of_opcode _ _ (fun _ _ => rfl) rfl rfl
theorem bne (rs1 rs2 : Reg) (off : BitVec 13) : Statement (.bne rs1 rs2 off) := of_opcode _ _ (fun _ _ => rfl) rfl rfl
theorem blt (rs1 rs2 : Reg) (off : BitVec 13) : Statement (.blt rs1 rs2 off) := of_opcode _ _ (fun _ _ => rfl) rfl rfl
theorem bge (rs1 rs2 : Reg) (off : BitVec 13) : Statement (.bge rs1 rs2 off) := of_opcode _ _ (fun _ _ => rfl) rfl rfl
theorem bltu (rs1 rs2 : Reg) (off : BitVec 13) : Statement (.bltu rs1 rs2 off) :=
  of_opcode _ _ (fun _ _ => rfl) rfl rfl
theorem bgeu (rs1 rs2 : Reg) (off : BitVec 13) : Statement (.bgeu rs1 rs2 off) :=
  of_opcode _ _ (fun _ _ => rfl) rfl rfl
theorem lb (rd rs1 : Reg) (imm : BitVec 12) : Statement (.lb rd rs1 imm) := of_opcode _ _ (fun _ _ => rfl) rfl rfl
theorem lh (rd rs1 : Reg) (imm : BitVec 12) : Statement (.lh rd rs1 imm) := of_opcode _ _ (fun _ _ => rfl) rfl rfl
theorem lw (rd rs1 : Reg) (imm : BitVec 12) : Statement (.lw rd rs1 imm) := of_opcode _ _ (fun _ _ => rfl) rfl rfl
theorem lbu (rd rs1 : Reg) (imm : BitVec 12) : Statement (.lbu rd rs1 imm) := of_opcode _ _ (fun _ _ => rfl) rfl rfl
theorem lhu (rd rs1 : Reg) (imm : BitVec 12) : Statement (.lhu rd rs1 imm) := of_opcode _ _ (fun _ _ => rfl) rfl rfl
theorem sb (rs1 rs2 : Reg) (imm : BitVec 12) : Statement (.sb rs1 rs2 imm) := of_opcode _ _ (fun _ _ => rfl) rfl rfl
theorem sh (rs1 rs2 : Reg) (imm : BitVec 12) : Statement (.sh rs1 rs2 imm) := of_opcode _ _ (fun _ _ => rfl) rfl rfl
theorem sw (rs1 rs2 : Reg) (imm : BitVec 12) : Statement (.sw rs1 rs2 imm) := of_opcode _ _ (fun _ _ => rfl) rfl rfl
theorem addi (rd rs1 : Reg) (imm : BitVec 12) : Statement (.addi rd rs1 imm) := of_opcode _ _ (fun _ _ => rfl) rfl rfl
theorem slti (rd rs1 : Reg) (imm : BitVec 12) : Statement (.slti rd rs1 imm) := of_opcode _ _ (fun _ _ => rfl) rfl rfl
theorem sltiu (rd rs1 : Reg) (imm : BitVec 12) : Statement (.sltiu rd rs1 imm) :=
  of_opcode _ _ (fun _ _ => rfl) rfl rfl
theorem xori (rd rs1 : Reg) (imm : BitVec 12) : Statement (.xori rd rs1 imm) := of_opcode _ _ (fun _ _ => rfl) rfl rfl
theorem ori (rd rs1 : Reg) (imm : BitVec 12) : Statement (.ori rd rs1 imm) := of_opcode _ _ (fun _ _ => rfl) rfl rfl
theorem andi (rd rs1 : Reg) (imm : BitVec 12) : Statement (.andi rd rs1 imm) := of_opcode _ _ (fun _ _ => rfl) rfl rfl
theorem slli (rd rs1 : Reg) (shamt : BitVec 5) : Statement (.slli rd rs1 shamt) :=
  of_opcode _ _ (fun _ _ => rfl) rfl rfl
theorem srli (rd rs1 : Reg) (shamt : BitVec 5) : Statement (.srli rd rs1 shamt) :=
  of_opcode _ _ (fun _ _ => rfl) rfl rfl
theorem srai (rd rs1 : Reg) (shamt : BitVec 5) : Statement (.srai rd rs1 shamt) :=
  of_opcode _ _ (fun _ _ => rfl) rfl rfl
theorem add (rd rs1 rs2 : Reg) : Statement (.add rd rs1 rs2) := of_opcode _ _ (fun _ _ => rfl) rfl rfl
theorem sub (rd rs1 rs2 : Reg) : Statement (.sub rd rs1 rs2) := of_opcode _ _ (fun _ _ => rfl) rfl rfl
theorem sll (rd rs1 rs2 : Reg) : Statement (.sll rd rs1 rs2) := of_opcode _ _ (fun _ _ => rfl) rfl rfl
theorem slt (rd rs1 rs2 : Reg) : Statement (.slt rd rs1 rs2) := of_opcode _ _ (fun _ _ => rfl) rfl rfl
theorem sltu (rd rs1 rs2 : Reg) : Statement (.sltu rd rs1 rs2) := of_opcode _ _ (fun _ _ => rfl) rfl rfl
theorem xor (rd rs1 rs2 : Reg) : Statement (.xor rd rs1 rs2) := of_opcode _ _ (fun _ _ => rfl) rfl rfl
theorem srl (rd rs1 rs2 : Reg) : Statement (.srl rd rs1 rs2) := of_opcode _ _ (fun _ _ => rfl) rfl rfl
theorem sra (rd rs1 rs2 : Reg) : Statement (.sra rd rs1 rs2) := of_opcode _ _ (fun _ _ => rfl) rfl rfl
theorem or (rd rs1 rs2 : Reg) : Statement (.or rd rs1 rs2) := of_opcode _ _ (fun _ _ => rfl) rfl rfl
theorem and (rd rs1 rs2 : Reg) : Statement (.and rd rs1 rs2) := of_opcode _ _ (fun _ _ => rfl) rfl rfl
theorem fence (fm pred succ : BitVec 4) (rd rs1 : Reg) : Statement (.fence fm pred succ rd rs1) :=
  of_opcode _ _ (fun _ _ => rfl) rfl rfl
theorem fenceI (imm : BitVec 12) (rd rs1 : Reg) : Statement (.fenceI imm rd rs1) :=
  of_opcode _ _ (fun _ _ => rfl) rfl rfl
theorem ecall : Statement .ecall := ⟨by decide, by decide⟩
theorem ebreak : Statement .ebreak := ⟨by decide, by decide⟩
theorem mul (rd rs1 rs2 : Reg) : Statement (.mul rd rs1 rs2) := of_opcode _ _ (fun _ _ => rfl) rfl rfl
theorem mulh (rd rs1 rs2 : Reg) : Statement (.mulh rd rs1 rs2) := of_opcode _ _ (fun _ _ => rfl) rfl rfl
theorem mulhsu (rd rs1 rs2 : Reg) : Statement (.mulhsu rd rs1 rs2) := of_opcode _ _ (fun _ _ => rfl) rfl rfl
theorem mulhu (rd rs1 rs2 : Reg) : Statement (.mulhu rd rs1 rs2) := of_opcode _ _ (fun _ _ => rfl) rfl rfl
theorem div (rd rs1 rs2 : Reg) : Statement (.div rd rs1 rs2) := of_opcode _ _ (fun _ _ => rfl) rfl rfl
theorem divu (rd rs1 rs2 : Reg) : Statement (.divu rd rs1 rs2) := of_opcode _ _ (fun _ _ => rfl) rfl rfl
theorem rem (rd rs1 rs2 : Reg) : Statement (.rem rd rs1 rs2) := of_opcode _ _ (fun _ _ => rfl) rfl rfl
theorem remu (rd rs1 rs2 : Reg) : Statement (.remu rd rs1 rs2) := of_opcode _ _ (fun _ _ => rfl) rfl rfl
theorem lrW (aq rl : Bool) (rd rs1 : Reg) : Statement (.lrW aq rl rd rs1) := of_opcode _ _ (fun _ _ => rfl) rfl rfl
theorem scW (aq rl : Bool) (rd rs1 rs2 : Reg) : Statement (.scW aq rl rd rs1 rs2) :=
  of_opcode _ _ (fun _ _ => rfl) rfl rfl
theorem amoswapW (aq rl : Bool) (rd rs1 rs2 : Reg) : Statement (.amoswapW aq rl rd rs1 rs2) :=
  of_opcode _ _ (fun _ _ => rfl) rfl rfl
theorem amoaddW (aq rl : Bool) (rd rs1 rs2 : Reg) : Statement (.amoaddW aq rl rd rs1 rs2) :=
  of_opcode _ _ (fun _ _ => rfl) rfl rfl
theorem amoxorW (aq rl : Bool) (rd rs1 rs2 : Reg) : Statement (.amoxorW aq rl rd rs1 rs2) :=
  of_opcode _ _ (fun _ _ => rfl) rfl rfl
theorem amoandW (aq rl : Bool) (rd rs1 rs2 : Reg) : Statement (.amoandW aq rl rd rs1 rs2) :=
  of_opcode _ _ (fun _ _ => rfl) rfl rfl
theorem amoorW (aq rl : Bool) (rd rs1 rs2 : Reg) : Statement (.amoorW aq rl rd rs1 rs2) :=
  of_opcode _ _ (fun _ _ => rfl) rfl rfl
theorem amominW (aq rl : Bool) (rd rs1 rs2 : Reg) : Statement (.amominW aq rl rd rs1 rs2) :=
  of_opcode _ _ (fun _ _ => rfl) rfl rfl
theorem amomaxW (aq rl : Bool) (rd rs1 rs2 : Reg) : Statement (.amomaxW aq rl rd rs1 rs2) :=
  of_opcode _ _ (fun _ _ => rfl) rfl rfl
theorem amominuW (aq rl : Bool) (rd rs1 rs2 : Reg) : Statement (.amominuW aq rl rd rs1 rs2) :=
  of_opcode _ _ (fun _ _ => rfl) rfl rfl
theorem amomaxuW (aq rl : Bool) (rd rs1 rs2 : Reg) : Statement (.amomaxuW aq rl rd rs1 rs2) :=
  of_opcode _ _ (fun _ _ => rfl) rfl rfl
theorem csrrw (rd rs1 : Reg) (csr : CsrNum) : Statement (.csrrw rd rs1 csr) := of_opcode _ _ (fun _ _ => rfl) rfl rfl
theorem csrrs (rd rs1 : Reg) (csr : CsrNum) : Statement (.csrrs rd rs1 csr) := of_opcode _ _ (fun _ _ => rfl) rfl rfl
theorem csrrc (rd rs1 : Reg) (csr : CsrNum) : Statement (.csrrc rd rs1 csr) := of_opcode _ _ (fun _ _ => rfl) rfl rfl
theorem csrrwi (rd : Reg) (uimm : BitVec 5) (csr : CsrNum) : Statement (.csrrwi rd uimm csr) :=
  of_opcode _ _ (fun _ _ => rfl) rfl rfl
theorem csrrsi (rd : Reg) (uimm : BitVec 5) (csr : CsrNum) : Statement (.csrrsi rd uimm csr) :=
  of_opcode _ _ (fun _ _ => rfl) rfl rfl
theorem csrrci (rd : Reg) (uimm : BitVec 5) (csr : CsrNum) : Statement (.csrrci rd uimm csr) :=
  of_opcode _ _ (fun _ _ => rfl) rfl rfl
theorem mret : Statement .mret := ⟨by decide, by decide⟩
theorem wfi : Statement .wfi := ⟨by decide, by decide⟩

end Laws.LowBits

end Sys2Proof
end

