-- ==== Sys2Proof/Laws/Step.lean ====
section
/-! SUPPORT. The driver in the terms of the claims: a slot that starts, a slot that executes, trap entry field by field,
and the readings of alignment, bounds and the register window. -/

namespace Sys2Proof.Machine

open Host (Outcome)

/-! ## Readings -/

theorem aligned_iff (w : Width) (a : Word) : w.aligned a = true ↔ a.toNat % w.bytes = 0 := by simp [Width.aligned]

theorem inRam_iff_range (s : State) (a : Word) (w : Width) : s.inRam a w = true ↔ InRamRange s a w.bytes := by
  unfold State.inRam Params.inRam InRamRange
  simp

/-- Legal parameters: RAM ends within the address space, the window's addresses differ, and none lies in RAM. -/
theorem legal_facts {p : Params} (h : p.legal = true) :
    p.ramBase.toNat + p.ramSize ≤ 2 ^ 32 ∧ p.window.Nodup ∧ ∀ a ∈ p.window, p.inRam a 1 = false := by
  simp only [Params.legal, Bool.and_eq_true, decide_eq_true_eq, List.all_eq_true, Bool.not_eq_true'] at h
  exact ⟨h.1.1.2, h.1.2, h.2⟩

/-- An address of RAM is not an address of the window. -/
theorem not_mem_window {s : State} {a : Word} {n : Nat} (hl : s.params.legal = true) (hn : 1 ≤ n)
    (hr : InRamRange s a n) : a ∉ s.params.window := by
  intro h
  have hf := (legal_facts hl).2.2 a h
  rw [Bool.eq_false_iff] at hf
  obtain ⟨h1, h2⟩ := hr
  exact hf (Params.inRam_iff.2 ⟨h1, by omega⟩)

theorem coreLoad_eq_none {s : State} {a : Word} (h : a ∉ s.params.window) : coreLoad a s = none := by
  simp only [Params.window, List.mem_cons, List.not_mem_nil, or_false, not_or] at h
  simp [coreLoad, h]

theorem controlLoad_eq_none {s : State} {a : Word} (h : a ∉ s.params.window) : controlLoad a s = none := by
  simp only [Params.window, List.mem_cons, List.not_mem_nil, or_false, not_or] at h
  simp [controlLoad, h]

/-! ## The slot -/

theorem mipSampled_eq (m : Word) (p : Bool) :
    mipSampled m p = m &&& 0xFFFFFF7F#32 ||| (if p then 0x00000080#32 else 0#32) := by
  unfold mipSampled withBit
  apply BitVec.eq_of_getLsbD_eq
  intro i hi
  interval_cases i <;> cases p <;> simp

/-- The state a slot's instruction runs in. -/
theorem beginSlot_sampleTimer (s : State) (b : Word) : beginSlot b (sampleTimer s) = slotState s b := by
  rw [sampleTimer_frame]
  unfold beginSlot slotState
  simp only [mipSampled_eq]
  congr 1
  · by_cases h : s.timerCompare.toNat ≤ s.counter.toNat <;> simp [h]
  · by_cases h : s.timerCompare.toNat ≤ s.counter.toNat
    · simp [h]
    · simp [h]; omega

theorem interruptTaken_sampleTimer (s : State) :
    interruptTaken (sampleTimer s) =
      (decide (s.timerCompare.toNat ≤ s.counter.toNat) && s.mie.getLsbD 7 && s.mstatus.getLsbD 3) := by
  have h (m : Word) (p : Bool) : mipMtip (mipSampled m p) = p := by
    unfold mipMtip mipSampled
    rw [getLsbD_withBit _ (by omega)]
    simp
  rw [sampleTimer_frame]
  simp only [interruptTaken, h, mieMtie, mstatusMie]

theorem step_of_inFlight {s : State} {b : Word} (hl : s.params.legal = true) (hc : s.call = some b) :
    step s = slot b s := by simp [step, hl, hc]

/-- A slot that starts executes in the slot's state, and the call is settled after it. -/
theorem step_of_slotStarts {s : State} {b : Word} (h : SlotStarts s b) :
    step s =
      match executeOne (slotState s b) with
      | .next t => .next (settle t)
      | .fault f => .fault f
      | .refused r => .refused r := by
  rw [step_of_inFlight h.legal h.inFlight]
  unfold slot
  have hb : ¬ b = 0x00000000#32 := h.budget
  rw [if_neg hb, if_neg (by rw [interruptTaken_sampleTimer, h.noInterrupt]; simp), beginSlot_sampleTimer]
  all_goals rfl

/-- A slot that can fetch executes what the word decodes to. -/
theorem executeOne_of_executes {s : State} {b : Word} (h : Executes s b) :
    executeOne (slotState s b) =
      match decodeWord (wordAt s s.pc) with
      | .ok i => exec i (slotState s b)
      | .error _ => .next (raise .illegalInstruction 0#32 (slotState s b)) := by
  have hf : fetch (slotState s b) = .ok (wordAt s s.pc) := by
    rcases fetch_cases (slotState s b) with ⟨h1, -⟩ | ⟨-, h1, -⟩ | ⟨-, -, h1⟩
    · have h2 := (aligned_iff .word s.pc).2 h.aligned
      exact absurd (h2.symm.trans h1) (by simp)
    · have h2 := (inRam_iff_range s s.pc .word).2 h.fetchable
      exact absurd (h2.symm.trans h1) (by simp)
    · exact h1
  unfold executeOne
  rw [hf]
  all_goals rfl

/-! ## Trap entry -/

theorem trapVector_eq (mtvec cause : Word) :
    trapVector mtvec cause =
      if mtvec &&& 3#32 = 1#32 ∧ cause.getLsbD 31 = true then
        (mtvec &&& 0xFFFFFFFC#32) + 4#32 * (cause &&& 0x7FFFFFFF#32)
      else mtvec &&& 0xFFFFFFFC#32 := by
  have h1 : mtvec.extractLsb' 0 2 = 1#2 ↔ mtvec &&& 3#32 = 1#32 := by
    constructor
    · intro h
      apply BitVec.eq_of_getLsbD_eq
      intro i hi
      have h0 := congrArg (·.getLsbD 0) h
      have h1 := congrArg (·.getLsbD 1) h
      simp only [BitVec.getLsbD_extractLsb'] at h0 h1
      interval_cases i <;> simp_all
    · intro h
      apply BitVec.eq_of_getLsbD_eq
      intro i hi
      have h0 := congrArg (·.getLsbD i) h
      simp only [BitVec.getLsbD_and] at h0
      simp only [BitVec.getLsbD_extractLsb']
      interval_cases i <;> simp_all
  have h2 : mtvec.extractLsb' 2 30 ++ 0b00#2 = mtvec &&& 0xFFFFFFFC#32 := by
    apply BitVec.eq_of_getLsbD_eq
    intro i hi
    simp only [BitVec.getLsbD_append, BitVec.getLsbD_and, BitVec.getLsbD_extractLsb']
    interval_cases i <;> simp
  have h3 : (cause.extractLsb' 0 31).zeroExtend 32 = cause &&& 0x7FFFFFFF#32 := by
    apply BitVec.eq_of_getLsbD_eq
    intro i hi
    simp only [BitVec.getLsbD_setWidth, BitVec.getLsbD_and, BitVec.getLsbD_extractLsb']
    interval_cases i <;> simp
  unfold trapVector
  simp only [h1, h2, h3]

/-- A raise ends in no call in flight, so settling leaves it. -/
theorem settle_raise (e : Exception) (tval : Word) (s : State) : settle (raise e tval s) = raise e tval s := by
  simp [settle, raise]

/-! ## Retiring -/

/-- An instruction that retires with a value completes as the claims say. -/
theorem retiresWith_of_exec {i : Instr} {s : State} {rd : Reg} {v : Word} (h : exec i s = .next (s.retire rd v)) :
    RetiresWith i s rd v := by
  refine ⟨_, h, fun r => x_retire s rd r v, by simp, ?_⟩
  unfold SameButRegsPc State.retire State.nextPc State.setX
  split <;> rfl

/-! ## What one slot can change of the machine as a whole -/

/-- How an instruction leaves the call: still in flight with nothing counted, ended by a syscon request, ended by a
trap that is all it does, or ended by WFI. -/
def CallAfter (s t : State) : Prop :=
  (t.call = s.call ∧ t.result = s.result ∧ t.wfi = s.wfi ∧ t.counter = s.counter) ∨
    (t.call = none ∧ (t.result = some .restart ∨ t.result = some .poweroff) ∧ t.wfi = s.wfi ∧ t.counter = s.counter) ∨
    (∃ e tval, t = raise e tval s) ∨
    (t.call = none ∧ t.result = some .sleep ∧ t.wfi = true ∧
      t.counter = s.counter + (s.call.getD 0#32).zeroExtend 64)

/-- What an instruction keeps: the parameters, the two memory properties, the stored word of `x0`; and how it leaves
the call. -/
structure Kept (s t : State) : Prop where
  params : t.params = s.params
  memWf : Memory.wf s.mem = true → Memory.wf t.mem = true
  memWithin : Memory.within s.params s.mem = true → Memory.within s.params t.mem = true
  zeroStored : t.regs[0] = s.regs[0]
  call : CallAfter s t

theorem kept_raise (e : Exception) (tval : Word) (s : State) : Kept s (raise e tval s) :=
  ⟨rfl, id, id, rfl, .inr (.inr (.inl ⟨e, tval, rfl⟩))⟩

theorem kept_retire {s u : State} (rd : Reg) (v : Word) (hp : u.params = s.params)
    (hm : u.mem = s.mem ∨ ∃ a w x, s.inRam a w = true ∧ u = s.memWrite a x w) (hr : u.regs = s.regs)
    (hc : u.call = s.call ∧ u.result = s.result ∧ u.wfi = s.wfi ∧ u.counter = s.counter) : Kept s (u.retire rd v) where
  params := by simp [hp]
  memWf h := by
    rcases hm with hm | ⟨a, w, x, -, rfl⟩
    · simpa [hm] using h
    · simpa using Memory.wf_writeLE h _ _ _
  memWithin h := by
    rcases hm with hm | ⟨a, w, x, ha, rfl⟩
    · simpa [hm] using h
    · simpa using Memory.within_writeLE h _ _ _ ha
  zeroStored := (setX_regs_zero u rd v).trans (by simp [hr])
  call := .inl (by simp [hc])

theorem kept_of_effect {i : Instr} {s t : State} (he : Effect i s t) : Kept s t := by
  cases he with
  | trap e tval => exact kept_raise e tval s
  | write rd v npc hd => exact ⟨by simp, by simp, by simp, setX_regs_zero .., .inl (by simp)⟩
  | goto npc => exact ⟨rfl, id, id, rfl, .inl ⟨rfl, rfl, rfl, rfl⟩⟩
  | load rd a v q hd ha hq => exact kept_retire rd v rfl (.inl rfl) rfl ⟨rfl, rfl, rfl, rfl⟩
  | store w a v u ha hu =>
    rcases hu with rfl | ⟨-, tc, rfl⟩ | ⟨-, b, rfl⟩ | ⟨hr, rfl⟩
    · exact ⟨rfl, id, id, rfl, .inl ⟨rfl, rfl, rfl, rfl⟩⟩
    · exact ⟨rfl, id, id, rfl, .inl ⟨rfl, rfl, rfl, rfl⟩⟩
    · exact ⟨rfl, id, id, rfl, .inl ⟨rfl, rfl, rfl, rfl⟩⟩
    · exact ⟨rfl, fun h => Memory.wf_writeLE h _ _ _, fun h => Memory.within_writeLE h _ _ _ hr, rfl,
        .inl ⟨rfl, rfl, rfl, rfl⟩⟩
  | syscon r hr =>
    exact ⟨rfl, id, id, rfl, .inr (.inl ⟨rfl, hr.imp (congrArg some) (congrArg some), rfl, rfl⟩)⟩
  | loadReserved aq rl rd rs1 v hi =>
    obtain ⟨h1, h2, h3, h4, h5⟩ := kept_retire (s := s) rd v rfl (.inl rfl) rfl ⟨rfl, rfl, rfl, rfl⟩
    exact ⟨h1, h2, h3, h4, .inl (by simp)⟩
  | scStored aq rl rd rs1 rs2 v hi hr =>
    obtain ⟨h1, h2, h3, h4, h5⟩ :=
      kept_retire (s := s) (u := s.memWrite (s.x rs1) v .word) rd 0#32 rfl (.inr ⟨s.x rs1, .word, v, hr, rfl⟩) rfl ⟨rfl, rfl, rfl, rfl⟩
    exact ⟨h1, h2, h3, h4, .inl (by simp)⟩
  | scFailed aq rl rd rs1 rs2 hi =>
    obtain ⟨h1, h2, h3, h4, h5⟩ := kept_retire (s := s) rd 1#32 rfl (.inl rfl) rfl ⟨rfl, rfl, rfl, rfl⟩
    exact ⟨h1, h2, h3, h4, .inl (by simp)⟩
  | amo rd a new old hd ha hr =>
    exact kept_retire rd old rfl (.inr ⟨a, .word, new, hr, rfl⟩) rfl ⟨rfl, rfl, rfl, rfl⟩
  | csr rd n v hd hn =>
    obtain ⟨a1, a2, a3, a4, a5, a6, a7, a8, es, hw, -⟩ := csrWrite_state n v (csrRead n s).2
    rw [hw]
    rcases csrRead_state n s with h | ⟨-, b, bs, -, h⟩ <;> rw [h]
    · exact kept_retire rd _ rfl (.inl rfl) rfl ⟨rfl, rfl, rfl, rfl⟩
    · exact kept_retire rd _ rfl (.inl rfl) rfl ⟨rfl, rfl, rfl, rfl⟩
  | mret hi => exact ⟨rfl, id, id, rfl, .inl ⟨rfl, rfl, rfl, rfl⟩⟩
  | wfi hi => exact ⟨rfl, id, id, rfl, .inr (.inr (.inr ⟨rfl, rfl, rfl, rfl⟩))⟩

/-- A slot's instruction answers a next state and keeps what `Kept` says. -/
theorem executeOne_kept (s : State) : ∃ t, executeOne s = .next t ∧ Kept s t := by
  rcases executeOne_cases s with ⟨e, h⟩ | h | ⟨i, -, h⟩
  · exact ⟨_, h, kept_raise ..⟩
  · exact ⟨_, h, kept_raise ..⟩
  · obtain ⟨t, ht, he⟩ := exec_effect i s
    exact ⟨t, h.trans ht, kept_of_effect he⟩

/-- A turn of the loop answers a next state. -/
theorem slot_next (b : Word) (s : State) : ∃ t, slot b s = .next t := by
  unfold slot
  split
  · exact ⟨_, rfl⟩
  · split
    · exact ⟨_, rfl⟩
    · obtain ⟨t, h, -⟩ := executeOne_kept (beginSlot b (sampleTimer s))
      exact ⟨settle t, by rw [h]⟩

end Sys2Proof.Machine
end

