-- ==== Sys2Proof/Tests/Slice0.lean ====
section
/-! SUPPORT. The model's own tests. Expected values are taken from outside the model: the examples of the rules of
40_integer_computational.md to 45_system_csr.md and the vectors of 95_test_vectors.md. Then, for every statement with
hypotheses, states and operands that meet them (Tests/Slice0.lean, last part). -/

namespace Sys2Proof.Tests

open Sys2Proof Sys2Proof.Machine
open Host (Outcome)

/-! ## WellFormed: one ill-formed term for each check, refused, and the neighbour that is accepted -/

theorem test_wf_refuses_odd_jal : (Instr.jal 1 0x000001#21).wf = false ∧ (Instr.jal 1 0x000002#21).wf = true := by decide
theorem test_wf_refuses_odd_beq : (Instr.beq 6 7 0x0001#13).wf = false ∧ (Instr.beq 6 7 0x1FFE#13).wf = true := by decide
theorem test_wf_refuses_odd_bne : (Instr.bne 6 7 0x1FFF#13).wf = false ∧ (Instr.bne 6 7 0x0002#13).wf = true := by decide
theorem test_wf_refuses_odd_blt : (Instr.blt 6 7 0x0003#13).wf = false ∧ (Instr.blt 6 7 0x0002#13).wf = true := by decide
theorem test_wf_refuses_odd_bge : (Instr.bge 6 7 0x1001#13).wf = false ∧ (Instr.bge 6 7 0x1000#13).wf = true := by decide
theorem test_wf_refuses_odd_bltu : (Instr.bltu 0 0 0x0005#13).wf = false ∧ (Instr.bltu 0 0 0x0004#13).wf = true := by decide
theorem test_wf_refuses_odd_bgeu : (Instr.bgeu 0 0 0x0FFF#13).wf = false ∧ (Instr.bgeu 0 0 0x0FFE#13).wf = true := by decide

/-! ## Decoding: every constructor, on the words of the rules' examples -/

/-- The words decode to the instructions beside them, and those encode to the words. -/
def decodes (l : List (Nat × Instr)) : Bool :=
  l.all fun p => decide (decodeTableWord 32 p.1 = some p.2) && decide (encode p.2 = BitVec.ofNat 32 p.1)

/-- 40_integer_computational.md R161 to R168, the examples' words. -/
theorem test_decode_immediate : decodes
    [ (0x123452B7, .lui 5 0x12345#20), (0x00001297, .auipc 5 0x00001#20), (0xFFF30293, .addi 5 6 0xFFF#12),
      (0xFFF32293, .slti 5 6 0xFFF#12), (0xFFF33293, .sltiu 5 6 0xFFF#12), (0xFFF34293, .xori 5 6 0xFFF#12),
      (0x70036293, .ori 5 6 0x700#12), (0x0FF37293, .andi 5 6 0x0FF#12) ] = true := by decide

/-- 40_integer_computational.md R169 to R171, and the extreme shift amounts. -/
theorem test_decode_shift_immediate : decodes
    [ (0x01F31293, .slli 5 6 31#5), (0x01F35293, .srli 5 6 31#5), (0x41F35293, .srai 5 6 31#5),
      (0x40035293, .srai 5 6 0#5) ] = true := by decide

/-- 40_integer_computational.md R172 to R181. -/
theorem test_decode_register_register : decodes
    [ (0x007302B3, .add 5 6 7), (0x407302B3, .sub 5 6 7), (0x007312B3, .sll 5 6 7), (0x007322B3, .slt 5 6 7),
      (0x007332B3, .sltu 5 6 7), (0x007342B3, .xor 5 6 7), (0x007352B3, .srl 5 6 7), (0x407352B3, .sra 5 6 7),
      (0x007362B3, .or 5 6 7), (0x007372B3, .and 5 6 7) ] = true := by decide

/-- 41_control_transfer.md R201 to R208, and the extreme offsets of 95_test_vectors.md section 2.2. -/
theorem test_decode_control_transfer : decodes
    [ (0x008000EF, .jal 1 8#21), (0x800000EF, .jal 1 0x100000#21), (0xFFDFF06F, .jal 0 0x1FFFFC#21),
      (0x004300E7, .jalr 1 6 4#12), (0x00730863, .beq 6 7 16#13), (0xFE731CE3, .bne 6 7 0x1FF8#13),
      (0x00734863, .blt 6 7 16#13), (0x00735863, .bge 6 7 16#13), (0x00736863, .bltu 6 7 16#13),
      (0x00737863, .bgeu 6 7 16#13), (0x80000063, .beq 0 0 0x1000#13), (0x7E000FE3, .beq 0 0 0x0FFE#13) ] = true := by
  decide

/-- 42_load_store.md R221 to R230. -/
theorem test_decode_load_store : decodes
    [ (0xFFF30283, .lb 5 6 0xFFF#12), (0x00231283, .lh 5 6 2#12), (0x00432283, .lw 5 6 4#12),
      (0x00534283, .lbu 5 6 5#12), (0x00235283, .lhu 5 6 2#12), (0x007300A3, .sb 6 7 1#12),
      (0x00731123, .sh 6 7 2#12), (0xFE732E23, .sw 6 7 0xFFC#12), (0x0FF0000F, .fence 0#4 0xF#4 0xF#4 0 0),
      (0x0000100F, .fenceI 0#12 0 0) ] = true := by decide

/-- 43_muldiv.md R241 to R248. -/
theorem test_decode_muldiv : decodes
    [ (0x027302B3, .mul 5 6 7), (0x027312B3, .mulh 5 6 7), (0x027322B3, .mulhsu 5 6 7), (0x027332B3, .mulhu 5 6 7),
      (0x027342B3, .div 5 6 7), (0x027352B3, .divu 5 6 7), (0x027362B3, .rem 5 6 7), (0x027372B3, .remu 5 6 7) ] =
      true := by decide

/-- 44_atomics.md R261 to R271, and the aq and rl bits. -/
theorem test_decode_atomics : decodes
    [ (0x100322AF, .lrW false false 5 6), (0x160322AF, .lrW true true 5 6), (0x187322AF, .scW false false 5 6 7),
      (0x087322AF, .amoswapW false false 5 6 7), (0x007322AF, .amoaddW false false 5 6 7),
      (0x207322AF, .amoxorW false false 5 6 7), (0x607322AF, .amoandW false false 5 6 7),
      (0x407322AF, .amoorW false false 5 6 7), (0x807322AF, .amominW false false 5 6 7),
      (0xA07322AF, .amomaxW false false 5 6 7), (0xC07322AF, .amominuW false false 5 6 7),
      (0xE07322AF, .amomaxuW false false 5 6 7) ] = true := by decide

/-- 45_system_csr.md R291 to R302. -/
theorem test_decode_system : decodes
    [ (0x340312F3, .csrrw 5 6 0x340#12), (0x300322F3, .csrrs 5 6 0x300#12), (0x300332F3, .csrrc 5 6 0x300#12),
      (0x3408D2F3, .csrrwi 5 17#5 0x340#12), (0x30046073, .csrrsi 0 8#5 0x300#12), (0x30047073, .csrrci 0 8#5 0x300#12),
      (0x00000073, .ecall), (0x00100073, .ebreak), (0x30200073, .mret), (0x10500073, .wfi) ] = true := by decide

/-! One word of each family written out field by field, from the encodings of 30_encoding.md section 3. -/

theorem test_bits_addi : decodeWord (0b111111111111#12 ++ 0b00110#5 ++ 0b000#3 ++ 0b00101#5 ++ 0b0010011#7) =
    .ok (.addi 5 6 0xFFF#12) := by decide
theorem test_bits_lui : decodeWord (0b00010010001101000101#20 ++ 0b00101#5 ++ 0b0110111#7) = .ok (.lui 5 0x12345#20) := by
  decide
theorem test_bits_sra : decodeWord (0b0100000#7 ++ 0b00111#5 ++ 0b00110#5 ++ 0b101#3 ++ 0b00101#5 ++ 0b0110011#7) =
    .ok (.sra 5 6 7) := by decide
/-- `imm_J` bits 20, 10:1, 11, 19:12 in this order: only bit 11 set is +2048. -/
theorem test_bits_jal : decodeWord (0b0#1 ++ 0b0000000000#10 ++ 0b1#1 ++ 0b00000000#8 ++ 0b00001#5 ++ 0b1101111#7) =
    .ok (.jal 1 2048#21) := by decide
/-- `imm_B` bits 12, 10:5 on the left and 4:1, 11 on the right: only bit 11 set is +2048. -/
theorem test_bits_bne :
    decodeWord (0b0#1 ++ 0b000000#6 ++ 0b00111#5 ++ 0b00110#5 ++ 0b001#3 ++ 0b0000#4 ++ 0b1#1 ++ 0b1100011#7) =
      .ok (.bne 6 7 2048#13) := by decide
/-- `imm_S` bits 11:5 on the left and 4:0 on the right: -4. -/
theorem test_bits_sw : decodeWord (0b1111111#7 ++ 0b00111#5 ++ 0b00110#5 ++ 0b010#3 ++ 0b11100#5 ++ 0b0100011#7) =
    .ok (.sw 6 7 0xFFC#12) := by decide
theorem test_bits_fence : decodeWord (0b1000#4 ++ 0b0011#4 ++ 0b0001#4 ++ 0b00110#5 ++ 0b000#3 ++ 0b00101#5 ++ 0b0001111#7) =
    .ok (.fence 8#4 3#4 1#4 5 6) := by decide
theorem test_bits_mulhsu : decodeWord (0b0000001#7 ++ 0b00111#5 ++ 0b00110#5 ++ 0b010#3 ++ 0b00101#5 ++ 0b0110011#7) =
    .ok (.mulhsu 5 6 7) := by decide
/-- `aq` is bit 26 and `rl` bit 25. -/
theorem test_bits_sc :
    decodeWord (0b00011#5 ++ 0b1#1 ++ 0b0#1 ++ 0b00111#5 ++ 0b00110#5 ++ 0b010#3 ++ 0b00101#5 ++ 0b0101111#7) =
      .ok (.scW true false 5 6 7) := by decide
theorem test_bits_csrrci : decodeWord (0x300#12 ++ 0b01000#5 ++ 0b111#3 ++ 0b00000#5 ++ 0b1110011#7) =
    .ok (.csrrci 0 8#5 0x300#12) := by decide

/-- The illegal words of 95_test_vectors.md section 2.8. -/
theorem test_illegal_words :
    ([ 0x00000000, 0xFFFFFFFF, 0x00000001, 0x00008002, 0x10200073, 0x00200073, 0x12000073, 0x00000173, 0x000000F3,
       0x00004073, 0x02031293, 0x80035293, 0x40001033, 0x04000033 ].all fun w => (decodeTableWord 32 w).isNone) = true ∧
    ([ 0x0000200F, 0x1000302F, 0x1010202F, 0x2800202F, 0x00003003, 0x00006003, 0x00003023, 0x00002063, 0x00001067,
       0x0000003B, 0x00002007, 0x0000000B ].all fun w => (decodeTableWord 32 w).isNone) = true := by decide

/-! ## Single steps

Each test places one word at `RAM_BASE` in the reset state, sets `x6` and `x7`, and makes the first step, which is the
call `Step(0, 1)` (95_test_vectors.md, conventions). -/

/-- The reset state with `M[0x80000100] = m`, `x6` and `x7` set, and the word at `RAM_BASE`. -/
def start (w : Nat) (x6 x7 m : Word) : State :=
  (((State.reset.memWrite 0x80000100#32 m .word).setX 6 x6).setX 7 x7).withFetchWord 32 w

/-- The state after one step; a stop leaves the state. -/
def next (s : State) : State :=
  match step s with
  | .next t => t
  | .fault _ => s
  | .refused _ => s

/-- The rows `(word, x6, x7, m, x5 after, m after)` are what one step gives; it returns 0 with `pc` advanced by 4. -/
def gives (l : List (Nat × Word × Word × Word × Word × Word)) : Bool :=
  l.all fun (w, x6, x7, m, x5, m') =>
    let t := next (start w x6 x7 m)
    decide (t.x 5 = x5 ∧ t.memRead 0x80000100#32 .word = m' ∧ t.pc = 0x80000004#32 ∧ t.result = some .continue ∧ t.counter = 1)

/-- The rows `(word, x6, x7, m, mcause, mtval)` trap: nothing written, code 3, `pc` at `mtvec = 0`. -/
def traps (l : List (Nat × Word × Word × Word × Word × Word)) : Bool :=
  l.all fun (w, x6, x7, m, cause, tval) =>
    let t := next (start w x6 x7 m)
    decide (t.mcause = cause ∧ t.mtval = tval ∧ t.mepc = 0x80000000#32 ∧ t.pc = 0#32 ∧ t.result = some .trap ∧
      t.x 5 = 0#32 ∧ t.memRead 0x80000100#32 .word = m ∧ t.resvValid = false)

/-- 95_test_vectors.md section 2.1; R161, R162. -/
theorem test_step_immediate : gives
    [ (0x123452B7, 0#32, 0#32, 0#32, 0x12345000#32, 0#32), (0xFFFFF297, 0#32, 0#32, 0#32, 0x7FFFF000#32, 0#32),
      (0x7FF30293, 0x7FFFFFFF#32, 0#32, 0#32, 0x800007FE#32, 0#32), (0xFFF32293, 0x80000000#32, 0#32, 0#32, 1#32, 0#32),
      (0xFFF33293, 0xFFFFFFFE#32, 0#32, 0#32, 1#32, 0#32), (0xFFF34293, 0x12345678#32, 0#32, 0#32, 0xEDCBA987#32, 0#32),
      (0x80036293, 0x000000FF#32, 0#32, 0#32, 0xFFFFF8FF#32, 0#32), (0x7FF37293, 0xFFFFFFFF#32, 0#32, 0#32, 0x7FF#32, 0#32),
      (0x01F31293, 3#32, 0#32, 0#32, 0x80000000#32, 0#32), (0x01F35293, 0x80000000#32, 0#32, 0#32, 1#32, 0#32),
      (0x41F35293, 0x80000000#32, 0#32, 0#32, 0xFFFFFFFF#32, 0#32) ] = true := by decide

/-- 95_test_vectors.md section 2.1. -/
theorem test_step_register_register : gives
    [ (0x007302B3, 0xFFFFFFFF#32, 1#32, 0#32, 0#32, 0#32), (0x407302B3, 0#32, 1#32, 0#32, 0xFFFFFFFF#32, 0#32),
      (0x007312B3, 1#32, 0x3F#32, 0#32, 0x80000000#32, 0#32), (0x007322B3, 0x80000000#32, 0x7FFFFFFF#32, 0#32, 1#32, 0#32),
      (0x007332B3, 0x80000000#32, 0x7FFFFFFF#32, 0#32, 0#32, 0#32),
      (0x007342B3, 0xFF00FF00#32, 0x0FF00FF0#32, 0#32, 0xF0F0F0F0#32, 0#32),
      (0x007352B3, 0xF0000000#32, 0xFFFFFFE4#32, 0#32, 0x0F000000#32, 0#32),
      (0x407352B3, 0xF0000000#32, 0xFFFFFFE4#32, 0#32, 0xFF000000#32, 0#32),
      (0x007362B3, 0xFF00FF00#32, 0x0FF00FF0#32, 0#32, 0xFFF0FFF0#32, 0#32),
      (0x007372B3, 0xFF00FF00#32, 0x0FF00FF0#32, 0#32, 0x0F000F00#32, 0#32) ] = true := by decide

/-- 95_test_vectors.md section 2.4. -/
theorem test_step_muldiv : gives
    [ (0x027302B3, 0x12345678#32, 0x9ABCDEF0#32, 0#32, 0x242D2080#32, 0#32),
      (0x027312B3, 0x80000000#32, 0x7FFFFFFF#32, 0#32, 0xC0000000#32, 0#32),
      (0x027322B3, 0xFFFFFFFF#32, 0xFFFFFFFF#32, 0#32, 0xFFFFFFFF#32, 0#32),
      (0x027332B3, 0x12345678#32, 0x9ABCDEF0#32, 0#32, 0x0B00EA4E#32, 0#32),
      (0x027342B3, 0xFFFFFFF9#32, 2#32, 0#32, 0xFFFFFFFD#32, 0#32), (0x027352B3, 0xFFFFFFF9#32, 2#32, 0#32, 0x7FFFFFFC#32, 0#32),
      (0x027362B3, 0xFFFFFFF9#32, 2#32, 0#32, 0xFFFFFFFF#32, 0#32), (0x027372B3, 0xFFFFFFF9#32, 2#32, 0#32, 1#32, 0#32) ] =
      true := by decide

/-- 95_test_vectors.md section 2.4 and section 1, property 2: the corners of division. -/
theorem test_step_divide_corners : gives
    [ (0x027342B3, 0x7B#32, 0#32, 0#32, 0xFFFFFFFF#32, 0#32), (0x027352B3, 0x7B#32, 0#32, 0#32, 0xFFFFFFFF#32, 0#32),
      (0x027362B3, 0x7B#32, 0#32, 0#32, 0x7B#32, 0#32), (0x027372B3, 0x7B#32, 0#32, 0#32, 0x7B#32, 0#32),
      (0x027342B3, 0x80000000#32, 0xFFFFFFFF#32, 0#32, 0x80000000#32, 0#32),
      (0x027362B3, 0x80000000#32, 0xFFFFFFFF#32, 0#32, 0#32, 0#32) ] = true := by decide

/-- 95_test_vectors.md section 2.3: loads. -/
theorem test_step_loads : gives
    [ (0x00230283, 0x80000100#32, 0#32, 0x80FF7F01#32, 0xFFFFFFFF#32, 0x80FF7F01#32),
      (0x00234283, 0x80000100#32, 0#32, 0x80FF7F01#32, 0xFF#32, 0x80FF7F01#32),
      (0x00231283, 0x80000100#32, 0#32, 0x80FF7F01#32, 0xFFFF80FF#32, 0x80FF7F01#32),
      (0x00235283, 0x80000100#32, 0#32, 0x80FF7F01#32, 0x80FF#32, 0x80FF7F01#32),
      (0xFFC32283, 0x80000104#32, 0#32, 0x80FF7F01#32, 0x80FF7F01#32, 0x80FF7F01#32),
      (0x00032283, 0x83FFFFFC#32, 0#32, 0#32, 0#32, 0#32), (0x00534283, 0x10000000#32, 0#32, 0#32, 0x60#32, 0#32) ] = true := by
  decide

/-- 95_test_vectors.md section 2.3: stores and fences. -/
theorem test_step_stores : gives
    [ (0x007300A3, 0x80000100#32, 0xAABBCCDD#32, 0x80FF7F01#32, 0#32, 0x80FFDD01#32),
      (0x00731123, 0x80000100#32, 0xAABBCCDD#32, 0x80FF7F01#32, 0#32, 0xCCDD7F01#32),
      (0xFE732E23, 0x80000104#32, 0xAABBCCDD#32, 0x80FF7F01#32, 0#32, 0xAABBCCDD#32),
      (0x0FF0000F, 0#32, 0#32, 7#32, 0#32, 7#32), (0x0000100F, 0#32, 0#32, 7#32, 0#32, 7#32) ] = true := by decide

/-- 95_test_vectors.md sections 2.3 and 2.5: addresses that trap. -/
theorem test_step_address_traps : traps
    [ (0x00132283, 0x80000100#32, 0#32, 0#32, 4#32, 0x80000101#32), (0x00032283, 0x84000000#32, 0#32, 0#32, 5#32, 0x84000000#32),
      (0x00032283, 0x7FFFFFFF#32, 0#32, 0#32, 4#32, 0x7FFFFFFF#32), (0x007310A3, 0x80000100#32, 1#32, 9#32, 6#32, 0x80000101#32),
      (0x00730023, 0x10000005#32, 1#32, 0#32, 7#32, 0x10000005#32), (0x00732023, 0x10000005#32, 1#32, 0#32, 6#32, 0x10000005#32),
      (0x007322AF, 0x10000000#32, 1#32, 0#32, 7#32, 0x10000000#32), (0x100322AF, 0x11100000#32, 0#32, 0#32, 5#32, 0x11100000#32),
      (0x187322AF, 0x80000102#32, 9#32, 5#32, 6#32, 0x80000102#32) ] = true := by decide

/-- 95_test_vectors.md sections 2.7 and 2.8: instructions that trap, and an illegal word. -/
theorem test_step_instruction_traps : traps
    [ (0x00000073, 0#32, 0#32, 0#32, 11#32, 0#32), (0x00100073, 0#32, 0#32, 0#32, 3#32, 0#32),
      (0x00000000, 0#32, 0#32, 0#32, 2#32, 0#32), (0x10200073, 0#32, 0#32, 0#32, 2#32, 0#32) ] = true := by decide

/-- 95_test_vectors.md section 2.5: the AMOs. -/
theorem test_step_amos : gives
    [ (0x087322AF, 0x80000100#32, 9#32, 5#32, 5#32, 9#32), (0x007322AF, 0x80000100#32, 0xFFFFFFFF#32, 5#32, 5#32, 4#32),
      (0x207322AF, 0x80000100#32, 0xF#32, 5#32, 5#32, 0xA#32), (0x607322AF, 0x80000100#32, 0xC#32, 5#32, 5#32, 4#32),
      (0x407322AF, 0x80000100#32, 0xA#32, 5#32, 5#32, 0xF#32),
      (0x807322AF, 0x80000100#32, 0xFFFFFFFF#32, 5#32, 5#32, 0xFFFFFFFF#32),
      (0xA07322AF, 0x80000100#32, 0xFFFFFFFF#32, 5#32, 5#32, 5#32), (0xC07322AF, 0x80000100#32, 0xFFFFFFFF#32, 5#32, 5#32, 5#32),
      (0xE07322AF, 0x80000100#32, 0xFFFFFFFF#32, 5#32, 5#32, 0xFFFFFFFF#32) ] = true := by decide

/-- 95_test_vectors.md section 2.5: LR.W takes the reservation. -/
theorem test_step_lr :
    let t := next (start 0x100322AF 0x80000100#32 0#32 5#32)
    t.x 5 = 5#32 ∧ t.resvValid = true ∧ t.resvAddr = 0x80000100#32 := by decide

/-- 95_test_vectors.md section 2.5: SC.W on its reservation, without one, and on another address. -/
theorem test_step_sc :
    let s := start 0x187322AF 0x80000100#32 9#32 5#32
    let t1 := next { s with resvValid := true, resvAddr := 0x80000100#32 }
    let t2 := next s
    let t3 := next { s with resvValid := true, resvAddr := 0x80000104#32 }
    (t1.x 5 = 0#32 ∧ t1.memRead 0x80000100#32 .word = 9#32 ∧ t1.resvValid = false) ∧
      (t2.x 5 = 1#32 ∧ t2.memRead 0x80000100#32 .word = 5#32) ∧
      (t3.x 5 = 1#32 ∧ t3.memRead 0x80000100#32 .word = 5#32 ∧ t3.resvValid = false) := by decide

/-- The rows `(word, x6, x7, pc after)` are where one step goes (95_test_vectors.md section 2.2). -/
theorem test_step_control_transfer :
    ([ (0x008000EF, 0#32, 0#32, 0x80000008#32), (0x800000EF, 0#32, 0#32, 0x7FF00000#32),
       (0x003300E7, 0x80000100#32, 0#32, 0x80000102#32), (0x00730863, 5#32, 5#32, 0x80000010#32),
       (0x00730863, 5#32, 6#32, 0x80000004#32), (0xFE731CE3, 5#32, 6#32, 0x7FFFFFF8#32),
       (0x00734863, 0xFFFFFFFF#32, 0#32, 0x80000010#32), (0x00736863, 0xFFFFFFFF#32, 0#32, 0x80000004#32),
       (0x00735863, 0x80000000#32, 0x80000000#32, 0x80000010#32), (0x00737863, 0#32, 1#32, 0x80000004#32) ].all
      fun (w, x6, x7, pc) => decide ((next (start w x6 x7 0#32)).pc = pc)) = true := by decide

/-- 95_test_vectors.md section 2.2: the link, and a target read before the link is written. -/
theorem test_step_link :
    (next (start 0x008000EF 0#32 0#32 0#32)).x 1 = 0x80000004#32 ∧
      (next (start 0x00030367 0x80000040#32 0#32 0#32)).x 6 = 0x80000004#32 ∧
      (next (start 0x00030367 0x80000040#32 0#32 0#32)).pc = 0x80000040#32 := by decide

/-- 95_test_vectors.md section 2.6: the six CSR instructions. -/
theorem test_step_csr :
    (let t := next { start 0x34031373 0x22222222#32 0#32 0#32 with mscratch := 0x11111111#32 };
      t.x 6 = 0x11111111#32 ∧ t.mscratch = 0x22222222#32) ∧
    (let t := next { start 0x300322F3 8#32 0#32 0#32 with mstatus := 0x80#32 }; t.x 5 = 0x80#32 ∧ t.mstatus = 0x88#32) ∧
    (let t := next { start 0x300332F3 8#32 0#32 0#32 with mstatus := 0x88#32 }; t.x 5 = 0x88#32 ∧ t.mstatus = 0x80#32) ∧
    (let t := next { start 0x3408D2F3 0#32 0#32 0#32 with mscratch := 0x22222222#32 };
      t.x 5 = 0x22222222#32 ∧ t.mscratch = 0x11#32) ∧
    (next (start 0x30046073 0#32 0#32 0#32)).mstatus = 8#32 ∧
    (next { start 0x30047073 0#32 0#32 0#32 with mstatus := 0x88#32 }).mstatus = 0x80#32 := by decide

/-- 95_test_vectors.md section 2.6: `mip` bit 7, `cycle` in its own slot, a number without a register, the print and the
input CSR. -/
theorem test_step_csr_devices :
    (let t := next { start 0x344312F3 0xFFFFFFFF#32 0#32 0#32 with timerCompare := 100 };
      t.x 5 = 0#32 ∧ t.mip = 0xFFFFFF7F#32) ∧
    (next (start 0x344312F3 0#32 0#32 0#32)).mip = 0x80#32 ∧
    (next { start 0xC00312F3 0#32 0#32 0#32 with counter := 41 }).x 5 = 0x2A#32 ∧
    (next (start 0x180312F3 0xFFFFFFFF#32 0#32 0#32)).x 5 = 0#32 ∧
    (next (start 0x13931073 0x141#32 0#32 0#32)).consoleOut = [.outByte 0x41#8] ∧
    (let t := next { start 0x140022F3 0#32 0#32 0#32 with consoleIn := [0x61#8, 0x62#8] };
      t.x 5 = 0x61#32 ∧ t.consoleIn = [0x62#8]) := by decide

/-- 95_test_vectors.md section 1, property 8: the string print. -/
theorem test_step_print_string :
    (next (start 0x13831073 0x80000100#32 0#32 0x00006968#32)).consoleOut = [.outByte 0x68#8, .outByte 0x69#8] ∧
      (next (start 0x13831073 0x84000000#32 0#32 0#32)).consoleOut = [] ∧
      (next ((start 0x13831073 0x83FFFFFE#32 0#32 0#32).memWrite 0x83FFFFFC#32 0x44434241#32 .word)).consoleOut =
        [.outByte 0x43#8, .outByte 0x44#8] := by decide

/-- 95_test_vectors.md section 2.7: MRET and WFI. -/
theorem test_step_mret_wfi :
    (let t := next { start 0x30200073 0#32 0#32 0#32 with mepc := 0x80000044#32, mstatus := 0x00000008#32 };
      t.pc = 0x80000044#32 ∧ t.mstatus = 0x1880#32 ∧ t.result = some .continue) ∧
    (let t := next (start 0x10500073 0#32 0#32 0#32);
      t.pc = 0x80000004#32 ∧ t.wfi = true ∧ t.result = some .sleep ∧ t.counter = 1) := by decide

/-- 95_test_vectors.md section 1, properties 5 and 7: the UART store, and the syscon store that ends the call. -/
theorem test_step_device_stores :
    (next (start 0x00732023 0x10000000#32 0x12345641#32 0#32)).consoleOut = [.outByte 0x41#8] ∧
    (let t := next (start 0x00732023 0x11100000#32 0x5555#32 0#32); t.result = some .poweroff ∧ t.pc = 0x80000004#32) ∧
    (next (start 0x00732023 0x11100000#32 0x7777#32 0#32)).result = some .restart ∧
    (next (start 0x00730023 0x11100000#32 0xAB005555#32 0#32)).result = some .continue ∧
    (next (start 0x00732023 0x11004004#32 9#32 0#32)).timerCompare = 0x0000000900000000#64 := by decide

/-- 95_test_vectors.md section 2.9, T3, T11, T12, T13: the timer interrupt, and vectored mode. -/
theorem test_step_timer_interrupt :
    (let t := next { start 0x00100293 0#32 0#32 0#32 with mie := 0x80#32, mstatus := 8#32, mtvec := 0x80000200#32 };
      t.mcause = 0x80000007#32 ∧ t.mepc = 0x80000000#32 ∧ t.pc = 0x80000200#32 ∧ t.mstatus = 0x1880#32 ∧ t.counter = 0 ∧
        t.x 5 = 0#32 ∧ t.mip = 0x80#32 ∧ t.result = some .trap) ∧
    (next { start 0x00000073 0#32 0#32 0#32 with mie := 0x80#32, mstatus := 8#32, mtvec := 0x80000201#32 }).pc = 0x8000021C#32 ∧
    (next { start 0x00000073 0#32 0#32 0#32 with mtvec := 0x80000201#32 }).pc = 0x80000200#32 ∧
    (next { start 0x00000073 0#32 0#32 0#32 with mie := 0x80#32, mstatus := 8#32, mtvec := 0x80000203#32 }).pc = 0x80000200#32 := by
  decide

/-- 95_test_vectors.md section 2.9, T14, T15: the fetch exceptions. -/
theorem test_step_fetch_traps :
    (let t := next { State.reset with pc := 0x84000000#32 }; t.mcause = 1#32 ∧ t.mepc = 0x84000000#32 ∧ t.mtval = 0x84000000#32) ∧
    (let t := next { State.reset with pc := 0x83FFFFFE#32 }; t.mcause = 0#32 ∧ t.mepc = 0x83FFFFFE#32 ∧ t.mtval = 0x83FFFFFE#32) := by
  decide

/-- 95_test_vectors.md section 2.9, T8, T10: a waiting hart, and a call with no slot. -/
theorem test_step_driver :
    (let t := next { State.reset with wfi := true, timerCompare := 100, hostQueue := [.stepCall ⟨99#32, 10#32⟩] };
      t.result = some .sleep ∧ t.counter = 109 ∧ t.pc = 0x80000000#32) ∧
    (let t := next { State.reset with counter := 0xFFFFFFFFFFFFFFFF#64, timerCompare := 5, hostQueue := [.stepCall ⟨1#32, 0#32⟩] };
      t.result = some .continue ∧ t.counter = 0 ∧ t.mip = 0#32) := by decide

/-! ## Witnesses: for every statement with hypotheses, a state and operands that meet them together, for each clause

`live w b`: the reset state with the word `w` at `pc` and a call of `b` slots in flight. `at6 a`: the reset state with
`x6 = a`, so that an instruction with `rs1 = 6` and immediate 0 accesses address `a`; `at6` and `x7` for stores. -/

def live (w : Nat) (b : Word) : State := { State.reset.withFetchWord 32 w with call := some b }

def at6 (a x7 : Word) : State := (State.reset.setX 6 a).setX 7 x7

theorem live_params (w : Nat) (b : Word) : (live w b).params = State.reset.params := rfl
theorem live_pc (w : Nat) (b : Word) : (live w b).pc = 0x80000000#32 := rfl
theorem live_mem (w : Nat) (b : Word) :
    (live w b).mem = Memory.writeLE [] (0x80000000#32 : Word).toNat (BitVec.ofNat 32 (w % 2 ^ 32)) .word := rfl

theorem live_executes (w : Nat) (b : Word) (hb : b ≠ 0#32) : Executes (live w b) b where
  legal := (congrArg Params.legal (live_params w b)).trans rfl
  inFlight := rfl
  budget := hb
  noInterrupt := by
    change (decide ((0 : DWord).toNat ≤ (0 : DWord).toNat) && (0#32).getLsbD 7 && (0#32).getLsbD 3) = false
    decide
  aligned := by rw [live_pc]; decide
  fetchable := by unfold InRamRange; rw [live_pc, live_params]; decide

theorem live_inv (w : Nat) (b : Word) (hb : b ≠ 0#32) : (live w b).Inv where
  legal := (congrArg Params.legal (live_params w b)).trans rfl
  memWf := by rw [live_mem]; exact Memory.wf_writeLE (m := []) rfl _ _ _
  memWithin := by rw [live_params, live_mem]; exact Memory.within_writeLE (m := []) rfl _ _ _ (by decide)
  zeroStored := rfl
  slotLeft h := hb (Option.some.inj h)
  waiting h := Bool.noConfusion h
  noResult _ := rfl

/-- EncodeThenDecode: the largest jump offset is well-formed. -/
theorem witness_EncodeThenDecode : (Instr.jal 31 0x0FFFFE#21).wf = true ∧ (Instr.beq 31 31 0x1000#13).wf = true := by decide

/-- DecodeThenEncode: a word that decodes. -/
theorem witness_DecodeThenEncode : decodeWord 0xE07322AF#32 = .ok (.amomaxuW false false 5 6 7) := by decide

/-- DecodingIsTotalAndUnambiguous: a word no row matches, at the `pc` of a slot that executes. -/
theorem witness_DecodingIsTotalAndUnambiguous :
    (∀ r ∈ rows, 0#32 &&& r.mask ≠ r.pat) ∧ Executes (live 0 1#32) 1#32 ∧ wordAt (live 0 1#32) (live 0 1#32).pc = 0#32 :=
  ⟨by decide, live_executes _ _ (by decide), by decide⟩

/-- RamWriteStoresTheLowBytes: canonical memory, the first and the last bytes of RAM, at each width. -/
theorem witness_RamWriteStoresTheLowBytes :
    Memory.wf State.reset.mem = true ∧ InRamRange State.reset 0x80000000#32 Width.byte.bytes ∧
      InRamRange State.reset 0x83FFFFFF#32 Width.byte.bytes ∧ InRamRange State.reset 0x83FFFFFE#32 Width.half.bytes ∧
      InRamRange State.reset 0x83FFFFFC#32 Width.word.bytes :=
  ⟨rfl, ⟨by decide, by decide⟩, ⟨by decide, by decide⟩, ⟨by decide, by decide⟩, ⟨by decide, by decide⟩⟩

/-- RamReadsAreLittleEndian: the first and the last word of RAM. -/
theorem witness_RamReadsAreLittleEndian :
    State.reset.params.legal = true ∧ Memory.wf State.reset.mem = true ∧ InRamRange State.reset 0x80000000#32 4 ∧
      InRamRange State.reset 0x83FFFFFC#32 4 :=
  ⟨rfl, rfl, ⟨by decide, by decide⟩, ⟨by decide, by decide⟩⟩

/-- StepRunsTheDecodedInstruction: a slot that executes `addi x5, x0, 1`. -/
theorem witness_StepRunsTheDecodedInstruction :
    let s := live 0x00100293 1#32
    Executes s 1#32 ∧ decode [s.mem.read s.pc.toNat, s.mem.read (s.pc.toNat + 1), s.mem.read (s.pc.toNat + 2),
      s.mem.read (s.pc.toNat + 3)] = .ok (.addi 5 0 1#12, []) :=
  ⟨live_executes _ _ (by decide), by decide⟩

/-- SlotThatCannotExecuteTraps: a misaligned `pc` in RAM and past its end; the first word past RAM and the last below
it; an illegal word. -/
theorem witness_SlotThatCannotExecuteTraps :
    (let s := { live 0 1#32 with pc := 0x83FFFFFE#32 }; SlotStarts s 1#32 ∧ s.pc.toNat % 4 ≠ 0) ∧
    (let s := { live 0 1#32 with pc := 0xFFFFFFFF#32 }; SlotStarts s 1#32 ∧ s.pc.toNat % 4 ≠ 0) ∧
    (let s := { live 0 1#32 with pc := 0x84000000#32 }; SlotStarts s 1#32 ∧ s.pc.toNat % 4 = 0 ∧ ¬ InRamRange s s.pc 4) ∧
    (let s := { live 0 1#32 with pc := 0x7FFFFFFC#32 }; SlotStarts s 1#32 ∧ s.pc.toNat % 4 = 0 ∧ ¬ InRamRange s s.pc 4) ∧
    (let s := live 0 1#32; Executes s 1#32 ∧ IllegalWord (wordAt s s.pc)) :=
  ⟨⟨⟨rfl, rfl, by decide, rfl⟩, by decide⟩, ⟨⟨rfl, rfl, by decide, rfl⟩, by decide⟩,
    ⟨⟨rfl, rfl, by decide, rfl⟩, by decide, fun h => absurd h.2 (by decide)⟩,
    ⟨⟨rfl, rfl, by decide, rfl⟩, by decide, fun h => absurd h.1 (by decide)⟩,
    live_executes _ _ (by decide), .inl (by decide)⟩

/-- TimerInterruptIsTakenBetweenInstructions: the counter equal to the compare value. -/
theorem witness_TimerInterruptIsTakenBetweenInstructions :
    let s := { live 0 1#32 with counter := 7, timerCompare := 7, mie := 0x80#32, mstatus := 8#32 }
    s.params.legal = true ∧ s.call = some 1#32 ∧ (1#32 : Word) ≠ 0#32 ∧ s.timerCompare.toNat ≤ s.counter.toNat ∧
      s.mie.getLsbD 7 = true ∧ s.mstatus.getLsbD 3 = true :=
  ⟨rfl, rfl, by decide, by decide, by decide, by decide⟩

/-- OpeningAStepCall: a queued call and the default call; a hart that still waits, one tick short; a call with no slot;
a call with slots. -/
theorem witness_OpeningAStepCall :
    State.reset.params.legal = true ∧ NextCall State.reset State.reset.defaultCall [] ∧
    (let s := { State.reset with wfi := true, timerCompare := 100, hostQueue := [.stepCall ⟨99#32, 10#32⟩, .reset] };
      NextCall s ⟨99#32, 10#32⟩ [.reset] ∧
        (s.wfi && !decide (s.timerCompare.toNat ≤ (s.counter + (99#32 : Word).zeroExtend 64).toNat)) = true) ∧
    (let s := { State.reset with wfi := true, timerCompare := 100, hostQueue := [.stepCall ⟨100#32, 0#32⟩] };
      NextCall s ⟨100#32, 0#32⟩ [] ∧
        (s.wfi && !decide (s.timerCompare.toNat ≤ (s.counter + (100#32 : Word).zeroExtend 64).toNat)) = false) ∧
    State.reset.wfi = false ∧ State.reset.defaultCall.maxInstructions ≠ 0#32 :=
  ⟨rfl, ⟨rfl, .inr ⟨rfl, rfl, rfl⟩⟩, ⟨⟨rfl, .inl rfl⟩, by decide⟩, ⟨⟨rfl, .inl rfl⟩, by decide⟩, rfl, by decide⟩

/-- JumpResults and BranchResults: the extreme offsets have bit 0 zero. -/
theorem witness_JumpResults_BranchResults :
    (0x100000#21).getLsbD 0 = false ∧ (0x0FFFFE#21).getLsbD 0 = false ∧ (0x1000#13).getLsbD 0 = false ∧
      (0x0FFE#13).getLsbD 0 = false := by decide

/-- LoadsFromRam: the last byte, halfword and word of RAM, and the first byte. -/
theorem witness_LoadsFromRam :
    State.reset.params.legal = true ∧
    (let s := at6 0x83FFFFFF#32 0#32; InRamRange s (s.x 6 + (0#12 : BitVec 12).signExtend 32) 1) ∧
    (let s := at6 0x83FFFFFE#32 0#32; let a := s.x 6 + (0#12 : BitVec 12).signExtend 32; InRamRange s a 2 ∧ a.toNat % 2 = 0) ∧
    (let s := at6 0x83FFFFFC#32 0#32; let a := s.x 6 + (0#12 : BitVec 12).signExtend 32; InRamRange s a 4 ∧ a.toNat % 4 = 0) ∧
    (let s := at6 0x80000001#32 0#32; InRamRange s (s.x 6 + (0xFFF#12 : BitVec 12).signExtend 32) 1) :=
  ⟨rfl, ⟨by decide, by decide⟩, ⟨⟨by decide, by decide⟩, by decide⟩, ⟨⟨by decide, by decide⟩, by decide⟩,
    by decide, by decide⟩

/-- LoadsFromTheRegisterWindow, StoresToTheRegisterWindow: each claimed address is reached; the input queue empty and
not; the syscon values. -/
theorem witness_RegisterWindow :
    State.reset.params.legal = true ∧
    (∀ a ∈ State.reset.params.window, (at6 a 0#32).x 6 + (0#12 : BitVec 12).signExtend 32 = a) ∧
    State.reset.params.window = [0x10000000#32, 0x10000005#32, State.reset.params.timerCmpLo, State.reset.params.timerCmpHi,
      State.reset.params.counterLo, State.reset.params.counterHi, State.reset.params.syscon] ∧
    (at6 0x10000000#32 0#32).consoleIn = [] ∧
    { at6 0x10000000#32 0#32 with consoleIn := [0x80#8] }.consoleIn = 0x80#8 :: [] ∧
    (at6 0x11100000#32 0x7777#32).x 7 = 0x00007777#32 ∧ (at6 0x11100000#32 0x5555#32).x 7 = 0x00005555#32 ∧
    (at6 0x11100000#32 0xAB005555#32).x 7 ≠ 0x00005555#32 ∧ (at6 0x11100000#32 0xAB005555#32).x 7 ≠ 0x00007777#32 ∧
    loadsOf 5 6 0#12 ≠ [] ∧ storesOf 6 7 0#12 ≠ [] := by
  refine ⟨rfl, ?_, rfl, rfl, rfl, by decide, by decide, by decide, by decide, by simp [loadsOf], by simp [storesOf]⟩
  intro a _
  simp [at6, x_setX]

/-- LoadsOutsideRamAndWindowTrap: misaligned in RAM and below it; the bytes beside RAM. -/
theorem witness_LoadsOutsideRamAndWindowTrap :
    (let s := at6 0x80000001#32 0#32; let a := s.x 6 + (0#12 : BitVec 12).signExtend 32;
      a ∉ s.params.window ∧ a.toNat % 2 ≠ 0 ∧ a.toNat % 4 ≠ 0) ∧
    (let s := at6 0x7FFFFFFF#32 0#32; let a := s.x 6 + (0#12 : BitVec 12).signExtend 32;
      a ∉ s.params.window ∧ a.toNat % 4 ≠ 0 ∧ ¬ InRamRange s a 1) ∧
    (let s := at6 0x84000000#32 0#32; let a := s.x 6 + (0#12 : BitVec 12).signExtend 32;
      a ∉ s.params.window ∧ a.toNat % 2 = 0 ∧ a.toNat % 4 = 0 ∧ ¬ InRamRange s a 1 ∧ ¬ InRamRange s a 2 ∧ ¬ InRamRange s a 4) := by
  refine ⟨⟨by decide, by decide, by decide⟩, ⟨by decide, by decide, fun h => absurd h.1 (by decide)⟩, by decide, by decide, by decide,
    fun h => absurd h.2 (by decide), fun h => absurd h.2 (by decide), fun h => absurd h.2 (by decide)⟩

/-- StoresToRam: each of the three stores at the last bytes of RAM it fits. -/
theorem witness_StoresToRam :
    State.reset.params.legal = true ∧ Memory.wf State.reset.mem = true ∧
    (.sb 6 7 0#12 ∈ storesOf 6 7 0#12 ∧ storeAddress (.sb 6 7 0#12) (at6 0x83FFFFFF#32 1#32) = some (0x83FFFFFF#32, 1) ∧
      InRamRange (at6 0x83FFFFFF#32 1#32) 0x83FFFFFF#32 1) ∧
    (.sh 6 7 0#12 ∈ storesOf 6 7 0#12 ∧ storeAddress (.sh 6 7 0#12) (at6 0x83FFFFFE#32 1#32) = some (0x83FFFFFE#32, 2) ∧
      (0x83FFFFFE#32 : Word).toNat % 2 = 0 ∧ InRamRange (at6 0x83FFFFFE#32 1#32) 0x83FFFFFE#32 2) ∧
    (.sw 6 7 0#12 ∈ storesOf 6 7 0#12 ∧ storeAddress (.sw 6 7 0#12) (at6 0x83FFFFFC#32 1#32) = some (0x83FFFFFC#32, 4) ∧
      (0x83FFFFFC#32 : Word).toNat % 4 = 0 ∧ InRamRange (at6 0x83FFFFFC#32 1#32) 0x83FFFFFC#32 4) :=
  ⟨rfl, rfl, ⟨by decide, by decide, by decide, by decide⟩, ⟨by decide, by decide, by decide, by decide, by decide⟩,
    by decide, by decide, by decide, by decide, by decide⟩

/-- StoresOutsideRamAndWindowTrap: the line-status register, misaligned and aligned for the width, and the first word
past RAM. -/
theorem witness_StoresOutsideRamAndWindowTrap :
    (let s := at6 0x10000005#32 1#32;
      storeAddress (.sw 6 7 0#12) s = some (0x10000005#32, 4) ∧ 0x10000005#32 ∉ s.params.window.erase 0x10000005#32 ∧
        (0x10000005#32 : Word).toNat % 4 ≠ 0 ∧
        storeAddress (.sb 6 7 0#12) s = some (0x10000005#32, 1) ∧ (0x10000005#32 : Word).toNat % 1 = 0 ∧
        ¬ InRamRange s 0x10000005#32 1) ∧
    (let s := at6 0x84000000#32 1#32;
      storeAddress (.sw 6 7 0#12) s = some (0x84000000#32, 4) ∧ 0x84000000#32 ∉ s.params.window.erase 0x10000005#32 ∧
        (0x84000000#32 : Word).toNat % 4 = 0 ∧ ¬ InRamRange s 0x84000000#32 4) :=
  ⟨⟨by decide, by decide, by decide, by decide, by decide, fun h => absurd h.1 (by decide)⟩, by decide, by decide, by decide,
    fun h => absurd h.2 (by decide)⟩

/-- MultiplyDivideLaws: a divisor that is not zero, a zero divisor, and INT_MIN / -1. -/
theorem witness_MultiplyDivideLaws :
    (let s := at6 0xFFFFFFF9#32 2#32; s.x 7 ≠ 0#32 ∧ ¬ (s.x 6 = 0x80000000#32 ∧ s.x 7 = 0xFFFFFFFF#32) ∧ (s.x 6).toInt ≤ 0) ∧
    (let s := at6 0x7B#32 0#32; s.x 7 = 0#32 ∧ 0 ≤ (s.x 6).toInt) ∧
    (let s := at6 0x80000000#32 0xFFFFFFFF#32; s.x 6 = 0x80000000#32 ∧ s.x 7 = 0xFFFFFFFF#32) := by decide

/-- LoadReservedTakesTheReservation, StoreConditionalSucceedsOnItsReservation, AmosReadModifyWrite: the first and the
last word of RAM; a reservation held for the address, for another, and none. -/
theorem witness_Atomics :
    Memory.wf State.reset.mem = true ∧
    (let s := at6 0x80000000#32 1#32; (s.x 6).toNat % 4 = 0 ∧ InRamRange s (s.x 6) 4 ∧
      ¬ (s.resvValid = true ∧ s.resvAddr = s.x 6)) ∧
    (let s := { at6 0x83FFFFFC#32 1#32 with resvValid := true, resvAddr := 0x83FFFFFC#32 };
      (s.x 6).toNat % 4 = 0 ∧ InRamRange s (s.x 6) 4 ∧ s.resvValid = true ∧ s.resvAddr = s.x 6) ∧
    (let s := { at6 0x83FFFFFC#32 1#32 with resvValid := true, resvAddr := 0x83FFFFF8#32 };
      (s.x 6).toNat % 4 = 0 ∧ InRamRange s (s.x 6) 4 ∧ ¬ (s.resvValid = true ∧ s.resvAddr = s.x 6)) ∧
    amosOf false false 5 6 7 ≠ [] :=
  ⟨rfl, ⟨by decide, ⟨by decide, by decide⟩, by decide⟩, ⟨by decide, ⟨by decide, by decide⟩, by decide, by decide⟩,
    ⟨by decide, ⟨by decide, by decide⟩, by decide⟩, by simp [amosOf]⟩

/-- AtomicsAtBadAddressesTrap: a misaligned address in RAM, the first word past RAM, and a register of the window. -/
theorem witness_AtomicsAtBadAddressesTrap :
    ((at6 0x80000102#32 1#32).x 6).toNat % 4 ≠ 0 ∧
    (let s := at6 0x84000000#32 1#32; (s.x 6).toNat % 4 = 0 ∧ ¬ InRamRange s (s.x 6) 4) ∧
    (let s := at6 0x10000000#32 1#32; (s.x 6).toNat % 4 = 0 ∧ ¬ InRamRange s (s.x 6) 4) :=
  ⟨by decide, ⟨by decide, fun h => absurd h.2 (by decide)⟩, by decide, fun h => absurd h.1 (by decide)⟩

/-- CsrAccessToStorageCsrs, CsrAccessToConstantCsrs, DebugCsrsPrintAndPoll: every number has its six forms; numbers
outside the table at the ends of the range; the input queue empty and not. -/
theorem witness_CsrAccess :
    (∀ n : CsrNum, (csrForms State.reset 5 6 8#5 n).length = 6) ∧
    0x000#12 ∉ recognisedCsrs ∧ 0xFFF#12 ∉ recognisedCsrs ∧ 0x180#12 ∉ recognisedCsrs ∧ 0xC01#12 ∉ recognisedCsrs ∧
    State.reset.consoleIn = [] ∧ { State.reset with consoleIn := [0x61#8, 0x62#8] }.consoleIn = 0x61#8 :: [0x62#8] :=
  ⟨fun _ => rfl, by decide, by decide, by decide, by decide, rfl, rfl⟩

/-- StringPrintStopsAtZeroOrTheEndOfRam: a form whose written value is below RAM; one at the first byte of RAM, where
the string is empty; and one at the last byte, where it ends with RAM. -/
theorem witness_StringPrintStopsAtZeroOrTheEndOfRam :
    (csrForms (at6 0x7FFFFFFF#32 0#32) 0 6 0#5 0x138#12).map (·.1) ≠ [] ∧
    ((at6 0x7FFFFFFF#32 0#32).x 6).toNat < State.reset.params.ramBase.toNat ∧
    (State.reset.params.ramBase.toNat ≤ ((at6 0x80000000#32 0#32).x 6).toNat ∧
      ((at6 0x80000000#32 0#32).x 6).toNat + 0 < State.reset.params.ramBase.toNat + State.reset.params.ramSize) ∧
    (let s := (at6 0x83FFFFFF#32 0#32).memWrite 0x83FFFFFF#32 0x44#32 .byte;
      (s.x 6).toNat + 1 = s.params.ramBase.toNat + s.params.ramSize ∧ s.mem.read (s.x 6).toNat ≠ 0#8) := by
  refine ⟨by simp [csrForms], ?_, ?_, ?_⟩ <;> decide

/-- TrapEntryFollowsTheTable: vectored mode. -/
theorem witness_TrapEntryFollowsTheTable : { State.reset with mtvec := 0x80000201#32 }.mtvec &&& 3#32 = 1#32 := by decide

/-- HostResetLeavesRamAndConsoleAlone. -/
theorem witness_HostResetLeavesRamAndConsoleAlone :
    let s := { State.reset with hostQueue := [.reset], consoleIn := [1#8], pc := 0x80000040#32 }
    s.params.legal = true ∧ s.call = none ∧ s.hostQueue = .reset :: [] := ⟨rfl, rfl, rfl⟩

/-- StepKeepsTheInvariant: a state of a call in flight and its next state. -/
theorem witness_StepKeepsTheInvariant : ∃ t, (live 0x00100293 2#32).Inv ∧ step (live 0x00100293 2#32) = .next t :=
  (slot_next 2#32 (live 0x00100293 2#32)).imp fun _ h => ⟨live_inv _ _ (by decide), h⟩

/-- StepNeverStops: the host's next command writes the last byte of RAM. -/
theorem witness_StepNeverStops :
    let s := { State.reset with hostQueue := [.writeRam 0x83FFFFFF#32 0x5A#8] }
    s.params.legal = true ∧
      (s.call = none → ∀ a b rest, s.hostQueue = .writeRam a b :: rest → InRamRange s a 1) :=
  ⟨rfl, fun _ a b rest h => by cases h; exact ⟨by decide, by decide⟩⟩

/-- TrapsArePrecise: a step that raises, and a step that takes the interrupt. -/
theorem witness_TrapsArePrecise :
    (∃ t, (live 0x00000073 1#32).Inv ∧ (live 0x00000073 1#32).call = some 1#32 ∧ step (live 0x00000073 1#32) = .next t ∧
      t.result = some .trap) ∧
    (let s := { live 0x00000073 1#32 with mie := 0x80#32, mstatus := 8#32 };
      ∃ t, s.Inv ∧ s.call = some 1#32 ∧ step s = .next t ∧ t.result = some .trap) :=
  ⟨⟨_, live_inv _ _ (by decide), rfl, rfl, rfl⟩,
    ⟨_, ⟨rfl, (live_inv 0x73 1#32 (by decide)).memWf, (live_inv 0x73 1#32 (by decide)).memWithin, rfl, by decide, by decide,
      fun _ => rfl⟩, rfl, rfl, rfl⟩⟩

/-- OnlyTheDestinationRegisterIsWritten: `addi x5, x0, 1` changes `x5`. -/
theorem witness_OnlyTheDestinationRegisterIsWritten :
    ∃ t, (live 0x00100293 1#32).Inv ∧ (live 0x00100293 1#32).call = some 1#32 ∧ step (live 0x00100293 1#32) = .next t ∧
      t.x 5 ≠ (live 0x00100293 1#32).x 5 :=
  ⟨_, live_inv _ _ (by decide), rfl, rfl, by decide⟩

/-- OnlyStoredBytesChange: a store, the bytes on both sides of what it stores; an instruction that stores nothing; a
store that traps. -/
theorem witness_OnlyStoredBytesChange :
    Memory.wf State.reset.mem = true ∧ State.reset.result = none ∧
    (∃ t, exec (.sw 6 7 0#12) (at6 0x80000100#32 1#32) = .next t ∧
      storedRange (.sw 6 7 0#12) (at6 0x80000100#32 1#32) = some (0x80000100#32, 4) ∧
      (0x800000FF < (0x80000100#32 : Word).toNat ∧ (0x80000100#32 : Word).toNat + 4 ≤ 0x80000104)) ∧
    (∃ t, exec (.add 5 6 7) State.reset = .next t ∧ storedRange (.add 5 6 7) State.reset = none) ∧
    (∃ t, exec (.sw 6 7 0#12) (at6 0x80000101#32 1#32) = .next t ∧ t.result = some .trap) :=
  ⟨rfl, rfl, ⟨_, rfl, by decide, by decide⟩, ⟨_, rfl, rfl⟩, ⟨_, rfl, rfl⟩⟩

/-- SpecialRegistersHaveTheseWriters: each register changes by its own CSR instruction, the exception registers also by
a trap, `mstatus` also by MRET, the timer compare by a store, the counter and the wait flag by WFI. -/
theorem witness_SpecialRegistersHaveTheseWriters :
    State.reset.result = none ∧
    (∃ t, exec (.csrrwi 0 1#5 0x304#12) State.reset = .next t ∧ t.mie ≠ State.reset.mie) ∧
    (∃ t, exec (.csrrwi 0 1#5 0x305#12) State.reset = .next t ∧ t.mtvec ≠ State.reset.mtvec) ∧
    (∃ t, exec (.csrrwi 0 1#5 0x340#12) State.reset = .next t ∧ t.mscratch ≠ State.reset.mscratch) ∧
    (∃ t, exec (.csrrwi 0 1#5 0x341#12) State.reset = .next t ∧ t.mepc ≠ State.reset.mepc) ∧
    (∃ t, exec (.csrrwi 0 1#5 0x342#12) State.reset = .next t ∧ t.mcause ≠ State.reset.mcause) ∧
    (∃ t, exec (.csrrwi 0 1#5 0x343#12) State.reset = .next t ∧ t.mtval ≠ State.reset.mtval) ∧
    (∃ t, exec (.csrrwi 0 1#5 0x300#12) State.reset = .next t ∧ t.mstatus ≠ State.reset.mstatus) ∧
    (∃ t, exec (.csrrwi 0 1#5 0x344#12) State.reset = .next t ∧ t.mip ≠ State.reset.mip) ∧
    (∃ t, exec (.lw 5 6 0#12) (at6 1#32 0#32) = .next t ∧ t.mepc ≠ State.reset.mepc ∧ t.mcause ≠ State.reset.mcause ∧
      t.mtval ≠ State.reset.mtval ∧ t.mstatus ≠ State.reset.mstatus) ∧
    (∃ t, exec .mret State.reset = .next t ∧ t.mstatus ≠ State.reset.mstatus) ∧
    (∃ t, exec (.sb 6 7 0#12) (at6 0x11004004#32 1#32) = .next t ∧ t.timerCompare ≠ State.reset.timerCompare) ∧
    (∃ t, exec .wfi (live 0x10500073 2#32) = .next t ∧ t.counter ≠ (live 0x10500073 2#32).counter ∧ t.wfi = true) :=
  ⟨rfl, ⟨_, rfl, by decide⟩, ⟨_, rfl, by decide⟩, ⟨_, rfl, by decide⟩, ⟨_, rfl, by decide⟩, ⟨_, rfl, by decide⟩,
    ⟨_, rfl, by decide⟩, ⟨_, rfl, by decide⟩, ⟨_, rfl, by decide⟩, ⟨_, rfl, by decide, by decide, by decide, by decide⟩,
    ⟨_, rfl, by decide⟩, ⟨_, rfl, by decide⟩, ⟨_, rfl, by decide, rfl⟩⟩

/-- TheReservationHasTheseWriters: a store to the reserved address; a trap while one is held; SC.W; LR.W. -/
theorem witness_TheReservationHasTheseWriters :
    State.reset.result = none ∧
    (∃ t, exec (.sw 6 7 0#12) { at6 0x80000100#32 1#32 with resvValid := true, resvAddr := 0x80000100#32 } = .next t ∧
      t.result ≠ some .trap) ∧
    (∃ t, exec .ecall { State.reset with resvValid := true } = .next t ∧ t.result = some .trap) ∧
    (∃ t, exec (.scW false false 5 6 7) (at6 0x80000100#32 1#32) = .next t) ∧
    (∃ t, exec (.lrW false false 5 6) (at6 0x80000100#32 1#32) = .next t ∧ t.resvValid = true ∧
      (at6 0x80000100#32 1#32).resvValid = false) :=
  ⟨rfl, ⟨_, rfl, by decide⟩, ⟨_, rfl, rfl⟩, ⟨_, rfl⟩, ⟨_, rfl, rfl, rfl⟩⟩

/-- TheConsoleHasTheseReadersAndWriters: a byte sent by a store and by a CSR; a byte consumed by a load and by a CSR. -/
theorem witness_TheConsoleHasTheseReadersAndWriters :
    (∃ t, exec (.sb 6 7 0#12) (at6 0x10000000#32 0x41#32) = .next t ∧ t.consoleOut = [.outByte 0x41#8]) ∧
    (∃ t, exec (.csrrwi 0 10#5 0x139#12) State.reset = .next t ∧ t.consoleOut = [.outByte 0x0A#8]) ∧
    (∃ t, exec (.lbu 5 6 0#12) { at6 0x10000000#32 0#32 with consoleIn := [0x61#8] } = .next t ∧ t.consoleIn = []) ∧
    (∃ t, exec (.csrrs 0 0 0x140#12) { State.reset with consoleIn := [0x61#8] } = .next t ∧ t.consoleIn = []) :=
  ⟨⟨_, rfl, rfl⟩, ⟨_, rfl, rfl⟩, ⟨_, rfl, rfl⟩, ⟨_, rfl, rfl⟩⟩

/-- TheCounterMovesOnlyByTime: a step that takes the interrupt, one whose WFI ends the call, and one that completes. -/
theorem witness_TheCounterMovesOnlyByTime :
    (let s := { live 0x00100293 2#32 with mie := 0x80#32, mstatus := 8#32 };
      s.Inv ∧ s.call = some 2#32 ∧ (∃ t, step s = .next t) ∧ interruptTaken (sampleTimer s) = true) ∧
    (∃ t, (live 0x10500073 2#32).Inv ∧ (live 0x10500073 2#32).call = some 2#32 ∧ step (live 0x10500073 2#32) = .next t ∧
      t.result = some .sleep) ∧
    (∃ t, (live 0x00100293 2#32).Inv ∧ step (live 0x00100293 2#32) = .next t ∧ t.result = none) :=
  ⟨⟨⟨rfl, (live_inv 0x00100293 2#32 (by decide)).memWf, (live_inv 0x00100293 2#32 (by decide)).memWithin, rfl, by decide,
      by decide, fun _ => rfl⟩, rfl, ⟨_, rfl⟩, rfl⟩,
    ⟨_, live_inv _ _ (by decide), rfl, rfl, rfl⟩, ⟨_, live_inv _ _ (by decide), rfl, rfl⟩⟩

/-- StepCallIsIteratedSteps and StepCallCounterTotal: between calls, a call of three slots queued, and a call of none. -/
theorem witness_StepCall :
    (let s := { State.reset with hostQueue := [.stepCall ⟨5#32, 3#32⟩] };
      s.Inv ∧ NextCall s ⟨5#32, 3#32⟩ [] ∧ s.call = none) ∧
    (let s := { State.reset with hostQueue := [.stepCall ⟨5#32, 0#32⟩, .reset] };
      s.Inv ∧ NextCall s ⟨5#32, 0#32⟩ [.reset] ∧ s.call = none) :=
  ⟨⟨⟨rfl, rfl, rfl, rfl, by decide, fun _ => rfl, fun h => absurd rfl h⟩, ⟨rfl, .inl rfl⟩, rfl⟩,
    ⟨⟨rfl, rfl, rfl, rfl, by decide, fun _ => rfl, fun h => absurd rfl h⟩, ⟨rfl, .inl rfl⟩, rfl⟩⟩

end Sys2Proof.Tests
end

namespace Sys2Proof.Machine

/-! ## The memory write operation in the terms of the claims -/

/-- In canonical memory `MemWrite` stores the low bytes of the value and keeps every other byte (20_memory.md R73). -/
theorem bytesStored_memWrite {s : State} (hm : Memory.wf s.mem = true) (a v : Word) (w : Width) :
    BytesStored s (s.memWrite a v w) a w.bytes v :=
  ⟨fun _ hk => Memory.read_writeLE hm a.toNat v w hk, fun _ hb => Memory.read_writeLE_of_outside hm a.toNat v w hb⟩

/-- Settles O6: the bytes at and outside the written range are read back one by one, and the write is an update of the
field `mem` alone. The bounds of RAM are not needed. -/
theorem ramWriteStoresTheLowBytes : Obligations.RamWriteStoresTheLowBytes :=
  fun _ a v w hm _ => ⟨bytesStored_memWrite hm a v w, rfl⟩

end Sys2Proof.Machine

namespace Sys2Proof

/-! ## The table and the decoder (30_encoding.md R132) -/

theorem Row.selects_iff {r : Row} {w : Word} : r.selects w = true ↔ w &&& r.mask = r.pat := beq_iff_eq

/-- In a list of disjoint rows, a row that selects a word excludes every later one. -/
theorem length_filter_selects_le_one {l : List Row}
    (hl : l.Pairwise (fun r r' => (r.pat ^^^ r'.pat) &&& (r.mask &&& r'.mask) ≠ 0#32)) (w : Word) :
    (l.filter (fun r => r.selects w)).length ≤ 1 := by
  induction l with
  | nil => exact Nat.zero_le 1
  | cons d l ih =>
    obtain ⟨hd, hl⟩ := List.pairwise_cons.1 hl
    by_cases h : d.selects w = true
    · have hrest : l.filter (fun r => r.selects w) = [] :=
        List.filter_eq_nil_iff.2 fun r hr => by simp [not_selects_both (hd r hr) h]
      simp [h, hrest]
    · simpa [List.filter_cons, h] using ih hl

theorem decodeWord_of_selects {r : Row} (hr : r ∈ rows) {w : Word} (h : r.selects w = true) :
    decodeWord w = .ok (r.operands w) := by
  simp only [decodeWord, find?_eq_of_selects rows_pairwise_disjoint hr h]

theorem decodeWord_of_no_row {w : Word} (h : ∀ r ∈ rows, w &&& r.mask ≠ r.pat) : decodeWord w = .error .illegal := by
  have hnone : rows.find? (fun r => r.selects w) = none :=
    List.find?_eq_none.2 fun r hr hs => h r hr (Row.selects_iff.1 hs)
  simp only [decodeWord, hnone]

theorem decodeWord_eq_ok_iff {w : Word} {i : Instr} :
    decodeWord w = .ok i ↔ ∃ r ∈ rows, w &&& r.mask = r.pat ∧ r.operands w = i := by
  constructor
  · intro hi
    by_cases hrow : ∃ r ∈ rows, w &&& r.mask = r.pat
    · obtain ⟨r, hr, hw⟩ := hrow
      have hok := decodeWord_of_selects hr (Row.selects_iff.2 hw)
      exact ⟨r, hr, hw, Except.ok.inj (hok.symm.trans hi)⟩
    · have herr := decodeWord_of_no_row fun r hr hw => hrow ⟨r, hr, hw⟩
      exact nomatch hi.symm.trans herr
  · rintro ⟨r, hr, hw, rfl⟩
    exact decodeWord_of_selects hr (Row.selects_iff.2 hw)

end Sys2Proof

namespace Sys2Proof.Machine

/-- A slot whose word the decoder rejects raises IllegalInstruction with `mtval = 0` (60_exceptions.md R332, R335). -/
theorem step_of_undecodable {s : State} {b : Word} (hs : Executes s b) {e : DecodeError}
    (he : decodeWord (wordAt s s.pc) = .error e) :
    step s = .next (raise .illegalInstruction 0#32 (slotState s b)) := by
  have hexec : executeOne (slotState s b) = .next (raise .illegalInstruction 0#32 (slotState s b)) := by
    rw [executeOne_of_executes hs, he]
  rw [step_of_slotStarts hs.toSlotStarts, hexec]
  exact congrArg Host.Outcome.next (settle_raise _ _ _)

/-- Settles O3: the rows are pairwise disjoint, so the row that selects a word is the one the decoder finds; with no
such row the decoder rejects the word, and the slot raises. -/
theorem decodingIsTotalAndUnambiguous : Obligations.DecodingIsTotalAndUnambiguous :=
  ⟨rfl, fun w =>
    ⟨length_filter_selects_le_one rows_pairwise_disjoint w,
      fun _ => decodeWord_eq_ok_iff,
      fun hno _ _ hs hw => ⟨0#32, step_of_undecodable hs (hw ▸ decodeWord_of_no_row hno)⟩⟩⟩

end Sys2Proof.Machine

namespace Sys2Proof

/-! ## Words of the formats U, I, I-shift and R decode (30_encoding.md R121, R127)

A row whose pattern is its format's word with 0 in every operand field selects every word of that format, and reads each
operand back out of it. -/

open Machine (EncodedAs)

theorem encodedAs_of_row {r : Row} (hr : r ∈ rows) {w : Word} {i : Instr} (hw : w &&& r.mask = r.pat)
    (hi : r.operands w = i) : EncodedAs w i :=
  decodeWord_eq_ok_iff.2 ⟨r, hr, hw, hi⟩

theorem encodedAs_encU (mnemonic : String) {mk : Reg → BitVec 20 → Instr} {op : BitVec 7}
    (hr : ⟨mnemonic, 0x0000007F#32, encU 0 0 op, fun w => mk (rdOf w) (immUOf w)⟩ ∈ rows)
    (rd : Reg) (imm20 : BitVec 20) : EncodedAs (encU imm20 rd op) (mk rd imm20) :=
  encodedAs_of_row hr (encU_and_mask imm20 rd op) (by simp)

theorem encodedAs_encI (mnemonic : String) {mk : Reg → Reg → BitVec 12 → Instr} {f3 : BitVec 3} {op : BitVec 7}
    (hr : ⟨mnemonic, 0x0000707F#32, encI 0 0 f3 0 op, fun w => mk (rdOf w) (rs1Of w) (immIOf w)⟩ ∈ rows)
    (rd rs1 : Reg) (imm : BitVec 12) : EncodedAs (encI imm rs1 f3 rd op) (mk rd rs1 imm) :=
  encodedAs_of_row hr (encI_and_mask imm rs1 f3 rd op) (by simp)

theorem encodedAs_encShift (mnemonic : String) {mk : Reg → Reg → BitVec 5 → Instr} {f7 : BitVec 7} {f3 : BitVec 3}
    (hr : ⟨mnemonic, 0xFE00707F#32, encShift f7 0 0 f3 0, fun w => mk (rdOf w) (rs1Of w) (shamtOf w)⟩ ∈ rows)
    (rd rs1 : Reg) (shamt : BitVec 5) : EncodedAs (encShift f7 shamt rs1 f3 rd) (mk rd rs1 shamt) :=
  encodedAs_of_row hr (encShift_and_mask f7 shamt rs1 f3 rd) (by simp)

theorem encodedAs_encR (mnemonic : String) {mk : Reg → Reg → Reg → Instr} {f7 : BitVec 7} {f3 : BitVec 3}
    {op : BitVec 7}
    (hr : ⟨mnemonic, 0xFE00707F#32, encR f7 0 0 f3 0 op, fun w => mk (rdOf w) (rs1Of w) (rs2Of w)⟩ ∈ rows)
    (rd rs1 rs2 : Reg) : EncodedAs (encR f7 rs2 rs1 f3 rd op) (mk rd rs1 rs2) :=
  encodedAs_of_row hr (encR_and_mask f7 rs2 rs1 f3 rd op) (by simp)

end Sys2Proof

namespace Sys2Proof.Machine

/-! ## The operand values as the claims write them -/

/-- A signed comparison is the integers' (40_integer_computational.md R164, R175). -/
theorem truthWord_slt (a b : Word) : truthWord (a.slt b) = if a.toInt < b.toInt then 1#32 else 0#32 := by
  simp [truthWord, BitVec.slt]

/-- An unsigned comparison is the naturals' (40_integer_computational.md R165, R176). -/
theorem truthWord_ult (a b : Word) : truthWord (a.ult b) = if a.toNat < b.toNat then 1#32 else 0#32 := by
  simp [truthWord, BitVec.ult]

/-- The low five bits are the count modulo 32 (40_integer_computational.md R174). -/
theorem shiftCount_eq_mod (v : Word) : shiftCount v = v.toNat % 32 := by
  simp [shiftCount]

/-! ## The integer computational instructions (40_integer_computational.md) -/

/-- Settles O12: each word is the format's and its row reads the operands back; each execution retires with the rule's
value, the two comparisons being those of integers and naturals. -/
theorem immediateInstructionResults : Obligations.ImmediateInstructionResults := by
  intro s rd rs1 imm imm20
  rw [← truthWord_slt, ← truthWord_ult]
  refine ⟨?lui, ?auipc, ?addi, ?slti, ?sltiu, ?xori, ?ori, ?andi, retiresWith_of_exec rfl, retiresWith_of_exec rfl,
    retiresWith_of_exec rfl, retiresWith_of_exec rfl, retiresWith_of_exec rfl, retiresWith_of_exec rfl,
    retiresWith_of_exec rfl, retiresWith_of_exec rfl⟩
  case lui => exact encodedAs_encU "LUI" (by simp [rows, rowsUpperAndJumps, encU]) rd imm20
  case auipc => exact encodedAs_encU "AUIPC" (by simp [rows, rowsUpperAndJumps, encU]) rd imm20
  case addi => exact encodedAs_encI "ADDI" (by simp [rows, rowsOpImm, encI]) rd rs1 imm
  case slti => exact encodedAs_encI "SLTI" (by simp [rows, rowsOpImm, encI]) rd rs1 imm
  case sltiu => exact encodedAs_encI "SLTIU" (by simp [rows, rowsOpImm, encI]) rd rs1 imm
  case xori => exact encodedAs_encI "XORI" (by simp [rows, rowsOpImm, encI]) rd rs1 imm
  case ori => exact encodedAs_encI "ORI" (by simp [rows, rowsOpImm, encI]) rd rs1 imm
  case andi => exact encodedAs_encI "ANDI" (by simp [rows, rowsOpImm, encI]) rd rs1 imm

/-- Settles O13: as for O12, in the I-shift format. -/
theorem shiftImmediateResults : Obligations.ShiftImmediateResults := by
  intro s rd rs1 shamt
  refine ⟨?slli, ?srli, ?srai, retiresWith_of_exec rfl, retiresWith_of_exec rfl, retiresWith_of_exec rfl⟩
  case slli => exact encodedAs_encShift "SLLI" (by simp [rows, rowsOpImm, encShift]) rd rs1 shamt
  case srli => exact encodedAs_encShift "SRLI" (by simp [rows, rowsOpImm, encShift]) rd rs1 shamt
  case srai => exact encodedAs_encShift "SRAI" (by simp [rows, rowsOpImm, encShift]) rd rs1 shamt

/-- Settles O14: as for O12, in the R format; the three shifts count by the low five bits. -/
theorem registerRegisterResults : Obligations.RegisterRegisterResults := by
  intro s rd rs1 rs2
  rw [← shiftCount_eq_mod, ← truthWord_slt, ← truthWord_ult]
  refine ⟨?add, ?sub, ?sll, ?slt, ?sltu, ?xor, ?srl, ?sra, ?or, ?and, retiresWith_of_exec rfl, retiresWith_of_exec rfl,
    retiresWith_of_exec rfl, retiresWith_of_exec rfl, retiresWith_of_exec rfl, retiresWith_of_exec rfl,
    retiresWith_of_exec rfl, retiresWith_of_exec rfl, retiresWith_of_exec rfl, retiresWith_of_exec rfl⟩
  case add => exact encodedAs_encR "ADD" (by simp [rows, rowsOp, encR]) rd rs1 rs2
  case sub => exact encodedAs_encR "SUB" (by simp [rows, rowsOp, encR]) rd rs1 rs2
  case sll => exact encodedAs_encR "SLL" (by simp [rows, rowsOp, encR]) rd rs1 rs2
  case slt => exact encodedAs_encR "SLT" (by simp [rows, rowsOp, encR]) rd rs1 rs2
  case sltu => exact encodedAs_encR "SLTU" (by simp [rows, rowsOp, encR]) rd rs1 rs2
  case xor => exact encodedAs_encR "XOR" (by simp [rows, rowsOp, encR]) rd rs1 rs2
  case srl => exact encodedAs_encR "SRL" (by simp [rows, rowsOp, encR]) rd rs1 rs2
  case sra => exact encodedAs_encR "SRA" (by simp [rows, rowsOp, encR]) rd rs1 rs2
  case or => exact encodedAs_encR "OR" (by simp [rows, rowsOp, encR]) rd rs1 rs2
  case and => exact encodedAs_encR "AND" (by simp [rows, rowsOp, encR]) rd rs1 rs2

end Sys2Proof.Machine

namespace Sys2Proof

/-! ## Words of the formats J and B decode (30_encoding.md R121)

Bit 0 of the offset is not stored, so only an even offset is read back. -/

open Machine (EncodedAs)

theorem encodedAs_encJ (mnemonic : String) {mk : Reg → BitVec 21 → Instr} {op : BitVec 7}
    (hr : ⟨mnemonic, 0x0000007F#32, encJ 0 0 op, fun w => mk (rdOf w) (offJOf w)⟩ ∈ rows)
    (rd : Reg) {off : BitVec 21} (heven : off.getLsbD 0 = false) : EncodedAs (encJ off rd op) (mk rd off) :=
  encodedAs_of_row hr (encJ_and_mask off rd op) (by simp only [rdOf_encJ, offJOf_encJ off rd op heven])

theorem encodedAs_encB (mnemonic : String) {mk : Reg → Reg → BitVec 13 → Instr} {f3 : BitVec 3} {op : BitVec 7}
    (hr : ⟨mnemonic, 0x0000707F#32, encB 0 0 0 f3 op, fun w => mk (rs1Of w) (rs2Of w) (offBOf w)⟩ ∈ rows)
    (rs1 rs2 : Reg) {off : BitVec 13} (heven : off.getLsbD 0 = false) :
    EncodedAs (encB off rs2 rs1 f3 op) (mk rs1 rs2 off) :=
  encodedAs_of_row hr (encB_and_mask off rs2 rs1 f3 op)
    (by simp only [rs1Of_encB, rs2Of_encB, offBOf_encB off rs2 rs1 f3 op heven])

end Sys2Proof

namespace Sys2Proof.Machine

open Host (Outcome)

/-! ## The control transfer instructions (41_control_transfer.md) -/

/-- An instruction that links and jumps completes as the claims say: the `x0` case is that of a register write. -/
theorem jumps_of_exec {i : Instr} {s : State} {rd : Reg} {link target : Word}
    (h : exec i s = .next { s.setX rd link with pc := target }) :
    ∃ t, exec i s = .next t ∧ RegWritten s t rd link ∧ t.pc = target ∧ SameButRegsPc s t := by
  refine ⟨_, h, fun r => x_setX s rd r link, rfl, ?_⟩
  exact congrArg (fun t : State => { t with pc := target }) (setX_frame s rd link)

/-- A branch whose test says the condition `P` moves `pc` as `P` says, and changes nothing else. -/
theorem branch_eq_of_iff {taken : Bool} {P : Prop} [Decidable P] (hP : taken = true ↔ P) (off : BitVec 13)
    (s : State) : branch taken off s = { s with pc := if P then s.pc + off.signExtend 32 else s.pc + 4 } := by
  by_cases h : P
  · simp [branch, hP, h, offBValue]
  · simp [branch, hP, h, State.nextPc]

theorem not_slt_iff (a b : Word) : (!a.slt b) = true ↔ b.toInt ≤ a.toInt := by simp [BitVec.slt]

theorem not_ult_iff (a b : Word) : (!a.ult b) = true ↔ b.toNat ≤ a.toNat := by simp [BitVec.ult]

/-- Settles O15: each word is the format's and its row reads the operands back; JAL and JALR both write the link, then
`pc`, and the target is computed from the state before either write. -/
theorem jumpResults : Obligations.JumpResults := by
  intro s rd rs1 imm off heven
  refine ⟨?jal, ?jalr, jumps_of_exec rfl, jumps_of_exec rfl⟩
  case jal => exact encodedAs_encJ "JAL" (by simp [rows, rowsUpperAndJumps, encJ]) rd heven
  case jalr => exact encodedAs_encI "JALR" (by simp [rows, rowsUpperAndJumps, encI]) rd rs1 imm

/-- Settles O16: each word is the format's and its row reads the operands back; each execution is the one branch
operation, with a test that says the rule's comparison. -/
theorem branchResults : Obligations.BranchResults := by
  intro s rs1 rs2 off heven
  refine ⟨?beq, ?bne, ?blt, ?bge, ?bltu, ?bgeu,
    congrArg Outcome.next (branch_eq_of_iff beq_iff_eq off s),
    congrArg Outcome.next (branch_eq_of_iff bne_iff_ne off s),
    congrArg Outcome.next (branch_eq_of_iff BitVec.slt_iff_toInt_lt off s),
    congrArg Outcome.next (branch_eq_of_iff (not_slt_iff _ _) off s),
    congrArg Outcome.next (branch_eq_of_iff BitVec.ult_iff_toNat_lt off s),
    congrArg Outcome.next (branch_eq_of_iff (not_ult_iff _ _) off s)⟩
  case beq => exact encodedAs_encB "BEQ" (by simp [rows, rowsBranch, encB]) rs1 rs2 heven
  case bne => exact encodedAs_encB "BNE" (by simp [rows, rowsBranch, encB]) rs1 rs2 heven
  case blt => exact encodedAs_encB "BLT" (by simp [rows, rowsBranch, encB]) rs1 rs2 heven
  case bge => exact encodedAs_encB "BGE" (by simp [rows, rowsBranch, encB]) rs1 rs2 heven
  case bltu => exact encodedAs_encB "BLTU" (by simp [rows, rowsBranch, encB]) rs1 rs2 heven
  case bgeu => exact encodedAs_encB "BGEU" (by simp [rows, rowsBranch, encB]) rs1 rs2 heven

end Sys2Proof.Machine

namespace Sys2Proof.Machine

/-! ## The 64-bit product and its two halves (43_muldiv.md R240) -/

/-- The two halves together are the product. -/
theorem productHigh_append_ofInt (p : Int) : productHigh p ++ BitVec.ofInt 32 p = BitVec.ofInt 64 p := by
  have hlow : BitVec.ofInt 32 p = (BitVec.ofInt 64 p).extractLsb' 0 32 := by
    apply BitVec.eq_of_toNat_eq
    simp
    omega
  rw [hlow, productHigh, BitVec.extractLsb'_append_extractLsb']

/-- The high half is the product divided by 2^32, rounded down. -/
theorem productHigh_eq_ofInt_div (p : Int) : productHigh p = BitVec.ofInt 32 (p / 2 ^ 32) := by
  apply BitVec.eq_of_toNat_eq
  simp [productHigh, Nat.shiftRight_eq_div_pow]
  omega

theorem productHigh_natCast (p : Nat) : productHigh p = BitVec.ofNat 32 (p / 2 ^ 32) :=
  (productHigh_eq_ofInt_div p).trans (BitVec.ofInt_natCast 32 (p / 2 ^ 32))

/-! The low half of the product is the product of the words, for each reading of the operands. -/

theorem ofInt_toInt_mul_toInt (a b : Word) : BitVec.ofInt 32 (a.toInt * b.toInt) = a * b := by
  rw [BitVec.ofInt_mul, BitVec.ofInt_toInt, BitVec.ofInt_toInt]

theorem ofInt_toInt_mul_toNat (a b : Word) : BitVec.ofInt 32 (a.toInt * (b.toNat : Int)) = a * b := by
  rw [BitVec.ofInt_mul, BitVec.ofInt_toInt, BitVec.ofInt_natCast, BitVec.ofNat_toNat, BitVec.setWidth_eq]

theorem ofNat_toNat_mul_toNat (a b : Word) : BitVec.ofNat 32 (a.toNat * b.toNat) = a * b := by
  rw [BitVec.ofNat_mul, BitVec.ofNat_toNat, BitVec.ofNat_toNat, BitVec.setWidth_eq, BitVec.setWidth_eq]

/-! ## Quotients and remainders (43_muldiv.md R240) -/

theorem divSigned_zero (a : Word) : divSigned a 0#32 = 0xFFFFFFFF#32 := rfl

theorem divUnsigned_zero (a : Word) : divUnsigned a 0#32 = 0xFFFFFFFF#32 := rfl

theorem remSigned_zero (a : Word) : remSigned a 0#32 = a := rfl

theorem remUnsigned_zero (a : Word) : remUnsigned a 0#32 = a := rfl

/-- Away from the two corner cases the exact quotient fits in a word. -/
theorem toInt_divSigned {a b : Word} (hb : b ≠ 0#32) (hover : ¬ (a = 0x80000000#32 ∧ b = 0xFFFFFFFF#32)) :
    (divSigned a b).toInt = a.toInt.tdiv b.toInt := by
  rw [divSigned, if_neg hb, if_neg hover, BitVec.toInt_ofInt, ← BitVec.toInt_sdiv]
  exact BitVec.toInt_sdiv_of_ne_or_ne a b (not_and_or.1 hover)

/-- The remainder is what the quotient leaves of the dividend, in both corner cases too. -/
theorem remSigned_eq_sub (a b : Word) : remSigned a b = a - b * divSigned a b := by
  unfold remSigned divSigned
  split
  case isTrue hb => simp [hb]
  case isFalse =>
    split
    case isTrue hover =>
      obtain ⟨rfl, rfl⟩ := hover
      rfl
    case isFalse =>
      rw [Int.sub_eq_add_neg, BitVec.ofInt_add, BitVec.ofInt_neg, BitVec.ofInt_mul, BitVec.ofInt_toInt,
        BitVec.ofInt_toInt, ← sub_eq_add_neg]

/-- The signed remainder is exact, in both corner cases too: over the integers a zero divisor leaves the dividend,
and -1 leaves nothing. -/
theorem toInt_remSigned (a b : Word) : (remSigned a b).toInt = a.toInt.tmod b.toInt := by
  unfold remSigned
  split
  case isTrue hb => simp [hb]
  case isFalse =>
    split
    case isTrue hover =>
      obtain ⟨rfl, rfl⟩ := hover
      rfl
    case isFalse => rw [← Int.tmod_def, ← BitVec.toInt_srem, BitVec.ofInt_toInt]

theorem toNat_divUnsigned {a b : Word} (hb : b ≠ 0#32) : (divUnsigned a b).toNat = a.toNat / b.toNat := by
  rw [divUnsigned, if_neg hb, BitVec.toNat_ofNat]
  exact Nat.mod_eq_of_lt ((Nat.div_le_self _ _).trans_lt a.isLt)

theorem toNat_remUnsigned (a b : Word) : (remUnsigned a b).toNat = a.toNat % b.toNat := by
  unfold remUnsigned
  split
  case isTrue hb => simp [hb]
  case isFalse => exact (BitVec.toNat_ofNat _ _).trans (Nat.mod_eq_of_lt ((Nat.mod_le _ _).trans_lt a.isLt))

theorem eq_mul_divSigned_add_remSigned (a b : Word) : a = b * divSigned a b + remSigned a b := by
  rw [remSigned_eq_sub, add_sub_cancel]

theorem eq_mul_divUnsigned_add_remUnsigned (a b : Word) : a = b * divUnsigned a b + remUnsigned a b := by
  by_cases hb : b = 0#32
  · simp [hb, remUnsigned_zero]
  · apply BitVec.eq_of_toNat_eq
    rw [BitVec.toNat_add, BitVec.toNat_mul, Nat.mod_add_mod, toNat_divUnsigned hb, toNat_remUnsigned,
      Nat.div_add_mod, Nat.mod_eq_of_lt a.isLt]

theorem remSigned_nonneg {a : Word} (b : Word) (ha : 0 ≤ a.toInt) : 0 ≤ (remSigned a b).toInt :=
  toInt_remSigned a b ▸ Int.tmod_nonneg _ ha

theorem remSigned_nonpos {a : Word} (b : Word) (ha : a.toInt ≤ 0) : (remSigned a b).toInt ≤ 0 := by
  have h := Int.tmod_nonneg b.toInt (Int.neg_nonneg.2 ha)
  rw [Int.neg_tmod, Int.neg_nonneg] at h
  exact toInt_remSigned a b ▸ h

theorem natAbs_remSigned_lt {b : Word} (a : Word) (hb : b ≠ 0#32) :
    (remSigned a b).toInt.natAbs < b.toInt.natAbs := by
  rw [toInt_remSigned, Int.natAbs_tmod]
  exact Nat.mod_lt _ (Int.natAbs_pos.2 (BitVec.toInt_ne.2 hb))

/-! ## The multiply and divide instructions (43_muldiv.md) -/

/-- Settles O26: the values are those of the model's own operations, and each law is a lemma about these above. -/
theorem multiplyDivideLaws : Obligations.MultiplyDivideLaws := by
  intro s rd rs1 rs2 n d
  refine ⟨n * d, productHigh (n.toInt * d.toInt), productHigh (n.toInt * (d.toNat : Int)),
    productHigh ((n.toNat : Int) * (d.toNat : Int)), divSigned n d, remSigned n d, divUnsigned n d, remUnsigned n d,
    retiresWith_of_exec rfl, retiresWith_of_exec rfl, retiresWith_of_exec rfl, retiresWith_of_exec rfl,
    retiresWith_of_exec rfl, retiresWith_of_exec rfl, retiresWith_of_exec rfl, retiresWith_of_exec rfl,
    ?signedProduct, ?mixedProduct, ?unsignedProduct, eq_mul_divSigned_add_remSigned n d,
    eq_mul_divUnsigned_add_remUnsigned n d, remSigned_nonneg d, remSigned_nonpos d, natAbs_remSigned_lt n,
    fun hd => ⟨toNat_divUnsigned hd, toNat_remUnsigned n d⟩, toInt_divSigned, ?zeroDivisor, ?overflow⟩
  case signedProduct => rw [← ofInt_toInt_mul_toInt, productHigh_append_ofInt]
  case mixedProduct => rw [← ofInt_toInt_mul_toNat, productHigh_append_ofInt]
  case unsignedProduct =>
    rw [← ofNat_toNat_mul_toNat, ← BitVec.ofInt_natCast, ← BitVec.ofInt_natCast, Nat.cast_mul,
      productHigh_append_ofInt]
  case zeroDivisor =>
    intro hd
    rw [hd]
    exact ⟨divSigned_zero n, divUnsigned_zero n, remSigned_zero n, remUnsigned_zero n⟩
  case overflow =>
    intro hn hd
    rw [hn, hd]
    exact ⟨rfl, rfl⟩

/-- Settles O24: each word is the R format's and its row reads the operands back; each execution retires with the low
or the high half of its product, written over the integers. -/
theorem multiplyResults : Obligations.MultiplyResults := by
  intro s rd rs1 rs2
  rw [ofNat_toNat_mul_toNat, ← productHigh_eq_ofInt_div, ← productHigh_eq_ofInt_div, ← productHigh_natCast]
  refine ⟨?mul, ?mulh, ?mulhsu, ?mulhu, retiresWith_of_exec rfl, retiresWith_of_exec rfl, retiresWith_of_exec rfl,
    retiresWith_of_exec rfl⟩
  case mul => exact encodedAs_encR "MUL" (by simp [rows, rowsMulDiv, encR]) rd rs1 rs2
  case mulh => exact encodedAs_encR "MULH" (by simp [rows, rowsMulDiv, encR]) rd rs1 rs2
  case mulhsu => exact encodedAs_encR "MULHSU" (by simp [rows, rowsMulDiv, encR]) rd rs1 rs2
  case mulhu => exact encodedAs_encR "MULHU" (by simp [rows, rowsMulDiv, encR]) rd rs1 rs2

/-- Settles O25: as for O24; the model's four operations are the rules' case distinctions. -/
theorem divideResults : Obligations.DivideResults := by
  intro s rd rs1 rs2
  refine ⟨?div, ?divu, ?rem, ?remu, retiresWith_of_exec rfl, retiresWith_of_exec rfl, retiresWith_of_exec rfl,
    retiresWith_of_exec rfl⟩
  case div => exact encodedAs_encR "DIV" (by simp [rows, rowsMulDiv, encR]) rd rs1 rs2
  case divu => exact encodedAs_encR "DIVU" (by simp [rows, rowsMulDiv, encR]) rd rs1 rs2
  case rem => exact encodedAs_encR "REM" (by simp [rows, rowsMulDiv, encR]) rd rs1 rs2
  case remu => exact encodedAs_encR "REMU" (by simp [rows, rowsMulDiv, encR]) rd rs1 rs2

end Sys2Proof.Machine

namespace Sys2Proof.Machine

/-! ## ECALL (45_system_csr.md) -/

/-- The cause of an exception has bit 31 clear, unlike that of an interrupt (60_exceptions.md R332). -/
theorem Exception.code_bit31 (e : Exception) : e.code.getLsbD 31 = false := by
  cases e <;> rfl

/-- An exception enters at the base of the trap vector in both modes of `mtvec` (60_exceptions.md R337). -/
theorem trapVector_code (mtvec : Word) (e : Exception) : trapVector mtvec e.code = mtvec &&& 0xFFFFFFFC#32 := by
  have hsync : ¬ (mtvec &&& 3#32 = 1#32 ∧ e.code.getLsbD 31 = true) :=
    fun h => Bool.false_ne_true (e.code_bit31.symm.trans h.2)
  rw [trapVector_eq, if_neg hsync]

/-- Apart from the fields of trap entry and the end of the call, a raise leaves the state alone (60_exceptions.md R336,
R329). -/
theorem raise_frame (e : Exception) (tval : Word) (s : State) :
    raise e tval s =
      { s with
        mepc := s.pc, mcause := e.code, mtval := tval, mstatus := mstatusTrapEntry s.mstatus, resvValid := false,
        pc := trapVector s.mtvec e.code, call := none, result := some .trap } := rfl

theorem exec_ecall (s : State) : exec .ecall s = .next (raise .ecallM 0#32 s) := rfl

/-- Settles O35: the word is the pattern of ECALL's row, and the execution raises `EcallM`, whose vector is the base
since its cause is an exception's. -/
theorem ecallTraps : Obligations.EcallTraps := by
  refine ⟨?encoding, fun s => ⟨_, exec_ecall s, raise_mcause .., raise_mtval .., raise_mepc .., ?vector,
    raise_call .., raise_result .., raise_frame ..⟩⟩
  case encoding =>
    have hrow : ⟨"ECALL", 0xFFFFFFFF#32, 0x00000073#32, fun _ => .ecall⟩ ∈ rows := by simp [rows, rowsSystem]
    exact encodedAs_of_row hrow rfl rfl
  case vector => rw [raise_pc, trapVector_code]

end Sys2Proof.Machine

namespace Sys2Proof.Machine

open Host (Outcome)

/-! ## Precise traps (60_exceptions.md R338) -/

/-- Trap entry with the end of the call is `TrapTaken`, for every cause (60_exceptions.md R336, R337, R329). -/
theorem trapTaken_takeTrap (s : State) (cause epc tval : Word) :
    TrapTaken s ((takeTrap cause epc tval s).endCall .trap) cause epc tval := by
  refine ⟨rfl, rfl, rfl, fun k _ => ?stacking, rfl, trapVector_eq s.mtvec cause, rfl, rfl, rfl⟩
  rw [endCall_mstatus, takeTrap_mstatus, getLsbD_mstatusTrapEntry]
  by_cases hmpie : k = 7 <;> simp [hmpie, ite_or]

theorem trapTaken_raise (s : State) (e : Exception) (tval : Word) : TrapTaken s (raise e tval s) e.code s.pc tval :=
  trapTaken_takeTrap s e.code s.pc tval

/-- The interrupt taken after the timer sampling of a slot: the slot's state without its count of the counter, since
trap entry ends the call and no slot was begun (60_exceptions.md R325, R327). -/
theorem takeInterrupt_sampleTimer (s : State) (b : Word) :
    takeInterrupt (sampleTimer s) = takeInterrupt { slotState s b with counter := s.counter } := by
  rw [← beginSlot_sampleTimer, sampleTimer_frame]
  rfl

/-- A step of a call in flight takes the interrupt, or executes one slot and settles the call. -/
theorem step_inFlight_cases {s t : State} {b : Word} (hinv : s.Inv) (hcall : s.call = some b) (hstep : step s = .next t) :
    t = takeInterrupt (sampleTimer s) ∨ ∃ u, executeOne (slotState s b) = .next u ∧ t = settle u := by
  have hbudget : b ≠ 0#32 := fun h => hinv.slotLeft (h ▸ hcall)
  cases hint : interruptTaken (sampleTimer s) with
  | true =>
    rw [step_of_inFlight hinv.legal hcall, slot, if_neg hbudget, if_pos hint] at hstep
    exact .inl (Outcome.next.inj hstep).symm
  | false =>
    rw [interruptTaken_sampleTimer] at hint
    obtain ⟨u, hexec, -⟩ := executeOne_kept (slotState s b)
    rw [step_of_slotStarts ⟨hinv.legal, hcall, hbudget, hint⟩, hexec] at hstep
    exact .inr ⟨u, hexec, (Outcome.next.inj hstep).symm⟩

/-- Settling never makes a trap: the code it gives is `continue`. -/
theorem settle_eq_self_of_trap {u : State} (h : (settle u).result = some .trap) : settle u = u := by
  unfold settle at h ⊢
  split
  · next hspent => simp [hspent] at h
  · rfl

/-- A slot that ends in a trap did nothing but raise. -/
theorem eq_raise_of_executeOne {s t : State} (hexec : executeOne s = .next t) (hs : s.result = none)
    (ht : t.result = some .trap) : ∃ e tval, t = raise e tval s := by
  obtain ⟨u, hu, hkept⟩ := executeOne_kept s
  obtain rfl : t = u := Outcome.next.inj (hexec.symm.trans hu)
  rcases hkept.call with ⟨-, hsame, -⟩ | ⟨-, hsyscon, -⟩ | hraise | ⟨-, hsleep, -⟩
  · simp [hsame, hs] at ht
  · simp [ht] at hsyscon
  · exact hraise
  · simp [hsleep] at ht

/-- Settles O46: every instruction has an effect that is a next state; a step that ends in a trap took the interrupt, or
its slot did nothing but raise, and both are trap entry on the slot's state. -/
theorem trapsArePrecise : Obligations.TrapsArePrecise := by
  refine ⟨fun i s => (exec_effect i s).imp fun _ h => h.1, fun s t b hinv hcall hstep htrap => ?_⟩
  rcases step_inFlight_cases hinv hcall hstep with rfl | ⟨u, hexec, rfl⟩
  · rw [takeInterrupt_sampleTimer s b]
    exact .inl (trapTaken_takeTrap _ timerCause s.pc 0#32)
  · have hsettle := settle_eq_self_of_trap htrap
    rw [hsettle] at htrap ⊢
    have hpending : (slotState s b).result = none := hinv.noResult (by simp [hcall])
    obtain ⟨e, tval, rfl⟩ := eq_raise_of_executeOne hexec hpending htrap
    exact .inr ⟨e, tval, trapTaken_raise (slotState s b) e tval⟩

end Sys2Proof.Machine

namespace Sys2Proof

/-! ## Words of the formats S, I-csr, I-fence and R-atomic decode (30_encoding.md R121, R128 to R130) -/

open Machine (EncodedAs)

theorem encodedAs_encS (mnemonic : String) {mk : Reg → Reg → BitVec 12 → Instr} {f3 : BitVec 3} {op : BitVec 7}
    (hr : ⟨mnemonic, 0x0000707F#32, encS 0 0 0 f3 op, fun w => mk (rs1Of w) (rs2Of w) (immSOf w)⟩ ∈ rows)
    (rs1 rs2 : Reg) (imm : BitVec 12) : EncodedAs (encS imm rs2 rs1 f3 op) (mk rs1 rs2 imm) :=
  encodedAs_of_row hr (encS_and_mask imm rs2 rs1 f3 op) (by simp)

/-- The source of a CSR word is read by its row as a register or as an immediate: `read`. -/
theorem encodedAs_encCsr (mnemonic : String) {α : Type} {mk : Reg → α → CsrNum → Instr} {read : Word → α}
    {f3 : BitVec 3}
    (hr : ⟨mnemonic, 0x0000707F#32, encCsr 0 0 f3 0, fun w => mk (rdOf w) (read w) (csrOf w)⟩ ∈ rows)
    (rd : Reg) (csr : CsrNum) {src : BitVec 5} {x : α} (hread : read (encCsr csr src f3 rd) = x) :
    EncodedAs (encCsr csr src f3 rd) (mk rd x csr) :=
  encodedAs_of_row hr (encCsr_and_mask csr src f3 rd) (by simp [hread])

theorem encodedAs_encFence (fm pred succ : BitVec 4) (rd rs1 : Reg) :
    EncodedAs (encFence fm pred succ rs1 rd) (.fence fm pred succ rd rs1) :=
  encodedAs_of_row
    (r := ⟨"FENCE", 0x0000707F#32, 0x0000000F#32, fun w => .fence (fmOf w) (predOf w) (succOf w) (rdOf w) (rs1Of w)⟩)
    (by simp [rows, rowsFence]) (encFence_and_mask fm pred succ rs1 rd) (by simp)

theorem encodedAs_encAtomic (mnemonic : String) {mk : Bool → Bool → Reg → Reg → Reg → Instr} {f5 : BitVec 5}
    (hr : ⟨mnemonic, 0xF800707F#32, encAtomic f5 false false 0 0 0,
      fun w => mk (aqOf w) (rlOf w) (rdOf w) (rs1Of w) (rs2Of w)⟩ ∈ rows)
    (aq rl : Bool) (rd rs1 rs2 : Reg) : EncodedAs (encAtomic f5 aq rl rs2 rs1 rd) (mk aq rl rd rs1 rs2) :=
  encodedAs_of_row hr (encAtomic_and_mask f5 aq rl rs2 rs1 rd) (by simp)

/-- LR.W pins `rs2` to 0 besides what the other atomics pin. -/
theorem encAtomic_zero_and_lrMask (f5 : BitVec 5) (aq rl : Bool) (rs1 rd : Reg) :
    encAtomic f5 aq rl 0 rs1 rd &&& 0xF9F0707F#32 = encAtomic f5 false false 0 0 0 := by
  apply BitVec.eq_of_getLsbD_eq
  intro i hi
  unfold encAtomic
  simp only [BitVec.getLsbD_and, BitVec.getLsbD_append]
  interval_cases i <;> simp

theorem encodedAs_lrW (aq rl : Bool) (rd rs1 : Reg) :
    EncodedAs (encAtomic 0b00010#5 aq rl 0 rs1 rd) (.lrW aq rl rd rs1) :=
  encodedAs_of_row
    (r := ⟨"LR.W", 0xF9F0707F#32, 0x1000202F#32, fun w => .lrW (aqOf w) (rlOf w) (rdOf w) (rs1Of w)⟩)
    (by simp [rows, rowsAtomic]) (encAtomic_zero_and_lrMask _ aq rl rs1 rd) (by simp)

/-- Settles O1: the word of each instruction is a word of the format of its row, and the row reads the operands back;
the words of ECALL, EBREAK, MRET and WFI are their rows' patterns. -/
theorem encodeThenDecode : Obligations.EncodeThenDecode := by
  intro i hwf
  cases i with
  | lui rd imm => exact encodedAs_encU "LUI" (by simp [rows, rowsUpperAndJumps, encU]) rd imm
  | auipc rd imm => exact encodedAs_encU "AUIPC" (by simp [rows, rowsUpperAndJumps, encU]) rd imm
  | jal rd off => exact encodedAs_encJ "JAL" (by simp [rows, rowsUpperAndJumps, encJ]) rd ((Bool.not_eq_true' _).mp hwf)
  | jalr rd rs1 imm => exact encodedAs_encI "JALR" (by simp [rows, rowsUpperAndJumps, encI]) rd rs1 imm
  | beq rs1 rs2 off => exact encodedAs_encB "BEQ" (by simp [rows, rowsBranch, encB]) rs1 rs2 ((Bool.not_eq_true' _).mp hwf)
  | bne rs1 rs2 off => exact encodedAs_encB "BNE" (by simp [rows, rowsBranch, encB]) rs1 rs2 ((Bool.not_eq_true' _).mp hwf)
  | blt rs1 rs2 off => exact encodedAs_encB "BLT" (by simp [rows, rowsBranch, encB]) rs1 rs2 ((Bool.not_eq_true' _).mp hwf)
  | bge rs1 rs2 off => exact encodedAs_encB "BGE" (by simp [rows, rowsBranch, encB]) rs1 rs2 ((Bool.not_eq_true' _).mp hwf)
  | bltu rs1 rs2 off =>
    exact encodedAs_encB "BLTU" (by simp [rows, rowsBranch, encB]) rs1 rs2 ((Bool.not_eq_true' _).mp hwf)
  | bgeu rs1 rs2 off =>
    exact encodedAs_encB "BGEU" (by simp [rows, rowsBranch, encB]) rs1 rs2 ((Bool.not_eq_true' _).mp hwf)
  | lb rd rs1 imm => exact encodedAs_encI "LB" (by simp [rows, rowsLoadStore, encI]) rd rs1 imm
  | lh rd rs1 imm => exact encodedAs_encI "LH" (by simp [rows, rowsLoadStore, encI]) rd rs1 imm
  | lw rd rs1 imm => exact encodedAs_encI "LW" (by simp [rows, rowsLoadStore, encI]) rd rs1 imm
  | lbu rd rs1 imm => exact encodedAs_encI "LBU" (by simp [rows, rowsLoadStore, encI]) rd rs1 imm
  | lhu rd rs1 imm => exact encodedAs_encI "LHU" (by simp [rows, rowsLoadStore, encI]) rd rs1 imm
  | sb rs1 rs2 imm => exact encodedAs_encS "SB" (by simp [rows, rowsLoadStore, encS]) rs1 rs2 imm
  | sh rs1 rs2 imm => exact encodedAs_encS "SH" (by simp [rows, rowsLoadStore, encS]) rs1 rs2 imm
  | sw rs1 rs2 imm => exact encodedAs_encS "SW" (by simp [rows, rowsLoadStore, encS]) rs1 rs2 imm
  | addi rd rs1 imm => exact encodedAs_encI "ADDI" (by simp [rows, rowsOpImm, encI]) rd rs1 imm
  | slti rd rs1 imm => exact encodedAs_encI "SLTI" (by simp [rows, rowsOpImm, encI]) rd rs1 imm
  | sltiu rd rs1 imm => exact encodedAs_encI "SLTIU" (by simp [rows, rowsOpImm, encI]) rd rs1 imm
  | xori rd rs1 imm => exact encodedAs_encI "XORI" (by simp [rows, rowsOpImm, encI]) rd rs1 imm
  | ori rd rs1 imm => exact encodedAs_encI "ORI" (by simp [rows, rowsOpImm, encI]) rd rs1 imm
  | andi rd rs1 imm => exact encodedAs_encI "ANDI" (by simp [rows, rowsOpImm, encI]) rd rs1 imm
  | slli rd rs1 shamt => exact encodedAs_encShift "SLLI" (by simp [rows, rowsOpImm, encShift]) rd rs1 shamt
  | srli rd rs1 shamt => exact encodedAs_encShift "SRLI" (by simp [rows, rowsOpImm, encShift]) rd rs1 shamt
  | srai rd rs1 shamt => exact encodedAs_encShift "SRAI" (by simp [rows, rowsOpImm, encShift]) rd rs1 shamt
  | add rd rs1 rs2 => exact encodedAs_encR "ADD" (by simp [rows, rowsOp, encR]) rd rs1 rs2
  | sub rd rs1 rs2 => exact encodedAs_encR "SUB" (by simp [rows, rowsOp, encR]) rd rs1 rs2
  | sll rd rs1 rs2 => exact encodedAs_encR "SLL" (by simp [rows, rowsOp, encR]) rd rs1 rs2
  | slt rd rs1 rs2 => exact encodedAs_encR "SLT" (by simp [rows, rowsOp, encR]) rd rs1 rs2
  | sltu rd rs1 rs2 => exact encodedAs_encR "SLTU" (by simp [rows, rowsOp, encR]) rd rs1 rs2
  | xor rd rs1 rs2 => exact encodedAs_encR "XOR" (by simp [rows, rowsOp, encR]) rd rs1 rs2
  | srl rd rs1 rs2 => exact encodedAs_encR "SRL" (by simp [rows, rowsOp, encR]) rd rs1 rs2
  | sra rd rs1 rs2 => exact encodedAs_encR "SRA" (by simp [rows, rowsOp, encR]) rd rs1 rs2
  | or rd rs1 rs2 => exact encodedAs_encR "OR" (by simp [rows, rowsOp, encR]) rd rs1 rs2
  | and rd rs1 rs2 => exact encodedAs_encR "AND" (by simp [rows, rowsOp, encR]) rd rs1 rs2
  | fence fm pred succ rd rs1 => exact encodedAs_encFence fm pred succ rd rs1
  | fenceI imm rd rs1 =>
    exact encodedAs_encI "FENCE.I" (mk := fun rd rs1 imm => .fenceI imm rd rs1) (by simp [rows, rowsFence, encI]) rd rs1 imm
  | ecall => rfl
  | ebreak => rfl
  | mul rd rs1 rs2 => exact encodedAs_encR "MUL" (by simp [rows, rowsMulDiv, encR]) rd rs1 rs2
  | mulh rd rs1 rs2 => exact encodedAs_encR "MULH" (by simp [rows, rowsMulDiv, encR]) rd rs1 rs2
  | mulhsu rd rs1 rs2 => exact encodedAs_encR "MULHSU" (by simp [rows, rowsMulDiv, encR]) rd rs1 rs2
  | mulhu rd rs1 rs2 => exact encodedAs_encR "MULHU" (by simp [rows, rowsMulDiv, encR]) rd rs1 rs2
  | div rd rs1 rs2 => exact encodedAs_encR "DIV" (by simp [rows, rowsMulDiv, encR]) rd rs1 rs2
  | divu rd rs1 rs2 => exact encodedAs_encR "DIVU" (by simp [rows, rowsMulDiv, encR]) rd rs1 rs2
  | rem rd rs1 rs2 => exact encodedAs_encR "REM" (by simp [rows, rowsMulDiv, encR]) rd rs1 rs2
  | remu rd rs1 rs2 => exact encodedAs_encR "REMU" (by simp [rows, rowsMulDiv, encR]) rd rs1 rs2
  | lrW aq rl rd rs1 => exact encodedAs_lrW aq rl rd rs1
  | scW aq rl rd rs1 rs2 => exact encodedAs_encAtomic "SC.W" (by simp [rows, rowsAtomic, encAtomic]) aq rl rd rs1 rs2
  | amoswapW aq rl rd rs1 rs2 =>
    exact encodedAs_encAtomic "AMOSWAP.W" (by simp [rows, rowsAtomic, encAtomic]) aq rl rd rs1 rs2
  | amoaddW aq rl rd rs1 rs2 =>
    exact encodedAs_encAtomic "AMOADD.W" (by simp [rows, rowsAtomic, encAtomic]) aq rl rd rs1 rs2
  | amoxorW aq rl rd rs1 rs2 =>
    exact encodedAs_encAtomic "AMOXOR.W" (by simp [rows, rowsAtomic, encAtomic]) aq rl rd rs1 rs2
  | amoandW aq rl rd rs1 rs2 =>
    exact encodedAs_encAtomic "AMOAND.W" (by simp [rows, rowsAtomic, encAtomic]) aq rl rd rs1 rs2
  | amoorW aq rl rd rs1 rs2 =>
    exact encodedAs_encAtomic "AMOOR.W" (by simp [rows, rowsAtomic, encAtomic]) aq rl rd rs1 rs2
  | amominW aq rl rd rs1 rs2 =>
    exact encodedAs_encAtomic "AMOMIN.W" (by simp [rows, rowsAtomic, encAtomic]) aq rl rd rs1 rs2
  | amomaxW aq rl rd rs1 rs2 =>
    exact encodedAs_encAtomic "AMOMAX.W" (by simp [rows, rowsAtomic, encAtomic]) aq rl rd rs1 rs2
  | amominuW aq rl rd rs1 rs2 =>
    exact encodedAs_encAtomic "AMOMINU.W" (by simp [rows, rowsAtomic, encAtomic]) aq rl rd rs1 rs2
  | amomaxuW aq rl rd rs1 rs2 =>
    exact encodedAs_encAtomic "AMOMAXU.W" (by simp [rows, rowsAtomic, encAtomic]) aq rl rd rs1 rs2
  | csrrw rd rs1 csr => exact encodedAs_encCsr "CSRRW" (by simp [rows, rowsSystem, encCsr]) rd csr (rs1Of_encCsr ..)
  | csrrs rd rs1 csr => exact encodedAs_encCsr "CSRRS" (by simp [rows, rowsSystem, encCsr]) rd csr (rs1Of_encCsr ..)
  | csrrc rd rs1 csr => exact encodedAs_encCsr "CSRRC" (by simp [rows, rowsSystem, encCsr]) rd csr (rs1Of_encCsr ..)
  | csrrwi rd uimm csr => exact encodedAs_encCsr "CSRRWI" (by simp [rows, rowsSystem, encCsr]) rd csr (uimmOf_encCsr ..)
  | csrrsi rd uimm csr => exact encodedAs_encCsr "CSRRSI" (by simp [rows, rowsSystem, encCsr]) rd csr (uimmOf_encCsr ..)
  | csrrci rd uimm csr => exact encodedAs_encCsr "CSRRCI" (by simp [rows, rowsSystem, encCsr]) rd csr (uimmOf_encCsr ..)
  | mret => rfl
  | wfi => rfl

/-- Settles O5: each word is the encoding of the instruction beside it. -/
theorem sampleWordsDecode : Obligations.SampleWordsDecode :=
  ⟨encodeThenDecode (.lui 5 0x12345#20) rfl, encodeThenDecode (.addi 5 6 0xFFF#12) rfl,
    encodeThenDecode (.srai 5 6 31#5) rfl, encodeThenDecode (.sub 5 6 7) rfl, encodeThenDecode (.jal 1 8#21) rfl,
    encodeThenDecode (.jalr 1 6 4#12) rfl, encodeThenDecode (.bne 6 7 0x1FF8#13) rfl,
    encodeThenDecode (.lb 5 6 0xFFF#12) rfl, encodeThenDecode (.sw 6 7 0xFFC#12) rfl,
    encodeThenDecode (.fence 0 0xF#4 0xF#4 0 0) rfl, encodeThenDecode (.mulh 5 6 7) rfl,
    encodeThenDecode (.scW false false 5 6 7) rfl, encodeThenDecode (.csrrw 5 6 0x340#12) rfl,
    encodeThenDecode .mret rfl⟩

end Sys2Proof

namespace Sys2Proof

/-! ## A word is the word of its format with the fields read from it (30_encoding.md R121 to R130)

Under a row's mask the word has the pinned fields of the row; every other bit is a bit of an operand field. -/

@[simp] theorem ofFin_rdOf (w : Word) : (BitVec.ofFin (rdOf w) : BitVec 5) = w.extractLsb' 7 5 := rfl
@[simp] theorem ofFin_rs1Of (w : Word) : (BitVec.ofFin (rs1Of w) : BitVec 5) = w.extractLsb' 15 5 := rfl
@[simp] theorem ofFin_rs2Of (w : Word) : (BitVec.ofFin (rs2Of w) : BitVec 5) = w.extractLsb' 20 5 := rfl

theorem encU_fields {w : Word} {op : BitVec 7}
    (h : w &&& 0x0000007F#32 = encU 0 0 op) :
    encU (immUOf w) (rdOf w) op = w := by
  apply BitVec.eq_of_getLsbD_eq
  intro i hi
  have hbit := congrArg (·.getLsbD i) h
  simp only [encU, immUOf, ofFin_rdOf, BitVec.getLsbD_and, BitVec.getLsbD_append]
    at hbit ⊢
  interval_cases i <;> simp_all

theorem encJ_fields {w : Word} {op : BitVec 7}
    (h : w &&& 0x0000007F#32 = encJ 0 0 op) :
    encJ (offJOf w) (rdOf w) op = w := by
  apply BitVec.eq_of_getLsbD_eq
  intro i hi
  have hbit := congrArg (·.getLsbD i) h
  simp only [encJ, offJOf, ofFin_rdOf, BitVec.getLsbD_and, BitVec.getLsbD_append, BitVec.getLsbD_extractLsb']
    at hbit ⊢
  interval_cases i <;> simp_all

theorem encI_fields {w : Word} {f3 : BitVec 3} {op : BitVec 7}
    (h : w &&& 0x0000707F#32 = encI 0 0 f3 0 op) :
    encI (immIOf w) (rs1Of w) f3 (rdOf w) op = w := by
  apply BitVec.eq_of_getLsbD_eq
  intro i hi
  have hbit := congrArg (·.getLsbD i) h
  simp only [encI, immIOf, ofFin_rs1Of, ofFin_rdOf, BitVec.getLsbD_and, BitVec.getLsbD_append]
    at hbit ⊢
  interval_cases i <;> simp_all

theorem encS_fields {w : Word} {f3 : BitVec 3} {op : BitVec 7}
    (h : w &&& 0x0000707F#32 = encS 0 0 0 f3 op) :
    encS (immSOf w) (rs2Of w) (rs1Of w) f3 op = w := by
  apply BitVec.eq_of_getLsbD_eq
  intro i hi
  have hbit := congrArg (·.getLsbD i) h
  simp only [encS, immSOf, ofFin_rs2Of, ofFin_rs1Of, BitVec.getLsbD_and, BitVec.getLsbD_append, BitVec.getLsbD_extractLsb']
    at hbit ⊢
  interval_cases i <;> simp_all

theorem encB_fields {w : Word} {f3 : BitVec 3} {op : BitVec 7}
    (h : w &&& 0x0000707F#32 = encB 0 0 0 f3 op) :
    encB (offBOf w) (rs2Of w) (rs1Of w) f3 op = w := by
  apply BitVec.eq_of_getLsbD_eq
  intro i hi
  have hbit := congrArg (·.getLsbD i) h
  simp only [encB, offBOf, ofFin_rs2Of, ofFin_rs1Of, BitVec.getLsbD_and, BitVec.getLsbD_append, BitVec.getLsbD_extractLsb']
    at hbit ⊢
  interval_cases i <;> simp_all

theorem encR_fields {w : Word} {f7 : BitVec 7} {f3 : BitVec 3} {op : BitVec 7}
    (h : w &&& 0xFE00707F#32 = encR f7 0 0 f3 0 op) :
    encR f7 (rs2Of w) (rs1Of w) f3 (rdOf w) op = w := by
  apply BitVec.eq_of_getLsbD_eq
  intro i hi
  have hbit := congrArg (·.getLsbD i) h
  simp only [encR, ofFin_rs2Of, ofFin_rs1Of, ofFin_rdOf, BitVec.getLsbD_and, BitVec.getLsbD_append]
    at hbit ⊢
  interval_cases i <;> simp_all

theorem encShift_fields {w : Word} {f7 : BitVec 7} {f3 : BitVec 3}
    (h : w &&& 0xFE00707F#32 = encShift f7 0 0 f3 0) :
    encShift f7 (shamtOf w) (rs1Of w) f3 (rdOf w) = w := by
  apply BitVec.eq_of_getLsbD_eq
  intro i hi
  have hbit := congrArg (·.getLsbD i) h
  simp only [encShift, shamtOf, ofFin_rs1Of, ofFin_rdOf, BitVec.getLsbD_and, BitVec.getLsbD_append]
    at hbit ⊢
  interval_cases i <;> simp_all

theorem encAtomic_fields {w : Word} {f5 : BitVec 5}
    (h : w &&& 0xF800707F#32 = encAtomic f5 false false 0 0 0) :
    encAtomic f5 (aqOf w) (rlOf w) (rs2Of w) (rs1Of w) (rdOf w) = w := by
  apply BitVec.eq_of_getLsbD_eq
  intro i hi
  have hbit := congrArg (·.getLsbD i) h
  simp only [encAtomic, aqOf, rlOf, ofFin_rs2Of, ofFin_rs1Of, ofFin_rdOf, BitVec.getLsbD_and, BitVec.getLsbD_append]
    at hbit ⊢
  interval_cases i <;> simp_all

theorem encAtomic_zero_fields {w : Word} {f5 : BitVec 5}
    (h : w &&& 0xF9F0707F#32 = encAtomic f5 false false 0 0 0) :
    encAtomic f5 (aqOf w) (rlOf w) 0 (rs1Of w) (rdOf w) = w := by
  apply BitVec.eq_of_getLsbD_eq
  intro i hi
  have hbit := congrArg (·.getLsbD i) h
  simp only [encAtomic, aqOf, rlOf, ofFin_rs1Of, ofFin_rdOf, BitVec.getLsbD_and, BitVec.getLsbD_append]
    at hbit ⊢
  interval_cases i <;> simp_all

theorem encCsr_fields {w : Word} {f3 : BitVec 3}
    (h : w &&& 0x0000707F#32 = encCsr 0 0 f3 0) :
    encCsr (csrOf w) (uimmOf w) f3 (rdOf w) = w := by
  apply BitVec.eq_of_getLsbD_eq
  intro i hi
  have hbit := congrArg (·.getLsbD i) h
  simp only [encCsr, csrOf, uimmOf, ofFin_rdOf, BitVec.getLsbD_and, BitVec.getLsbD_append]
    at hbit ⊢
  interval_cases i <;> simp_all

theorem encFence_fields {w : Word}
    (h : w &&& 0x0000707F#32 = encFence 0 0 0 0 0) :
    encFence (fmOf w) (predOf w) (succOf w) (rs1Of w) (rdOf w) = w := by
  apply BitVec.eq_of_getLsbD_eq
  intro i hi
  have hbit := congrArg (·.getLsbD i) h
  simp only [encFence, fmOf, predOf, succOf, ofFin_rs1Of, ofFin_rdOf, BitVec.getLsbD_and, BitVec.getLsbD_append]
    at hbit ⊢
  interval_cases i <;> simp_all

/-- The offsets read from a word are even. -/
theorem offBOf_even (w : Word) : (!(offBOf w).getLsbD 0) = true := by
  rw [offBOf, BitVec.getLsbD_append]; rfl

theorem offJOf_even (w : Word) : (!(offJOf w).getLsbD 0) = true := by
  rw [offJOf, BitVec.getLsbD_append]; rfl

/-! ## No row loses a bit -/

/-- What a row reads from a word it selects is well-formed, and encodes to that word. -/
def Row.Faithful (r : Row) : Prop :=
  ∀ w : Word, w &&& r.mask = r.pat → (r.operands w).wf = true ∧ encode (r.operands w) = w

theorem rowsUpperAndJumps_faithful : ∀ r ∈ rowsUpperAndJumps, r.Faithful := by
  simp only [rowsUpperAndJumps, List.forall_mem_cons, List.not_mem_nil, IsEmpty.forall_iff, implies_true, and_true]
  exact ⟨fun _ h => ⟨rfl, encU_fields h⟩, fun _ h => ⟨rfl, encU_fields h⟩, fun w h => ⟨offJOf_even w, encJ_fields h⟩,
    fun _ h => ⟨rfl, encI_fields h⟩⟩

theorem rowsBranch_faithful : ∀ r ∈ rowsBranch, r.Faithful := by
  simp only [rowsBranch, List.forall_mem_cons, List.not_mem_nil, IsEmpty.forall_iff, implies_true, and_true]
  refine ⟨?_, ?_, ?_, ?_, ?_, ?_⟩ <;> exact fun w h => ⟨offBOf_even w, encB_fields h⟩

theorem rowsLoadStore_faithful : ∀ r ∈ rowsLoadStore, r.Faithful := by
  simp only [rowsLoadStore, List.forall_mem_cons, List.not_mem_nil, IsEmpty.forall_iff, implies_true, and_true]
  exact ⟨fun _ h => ⟨rfl, encI_fields h⟩, fun _ h => ⟨rfl, encI_fields h⟩, fun _ h => ⟨rfl, encI_fields h⟩,
    fun _ h => ⟨rfl, encI_fields h⟩, fun _ h => ⟨rfl, encI_fields h⟩, fun _ h => ⟨rfl, encS_fields h⟩,
    fun _ h => ⟨rfl, encS_fields h⟩, fun _ h => ⟨rfl, encS_fields h⟩⟩

theorem rowsOpImm_faithful : ∀ r ∈ rowsOpImm, r.Faithful := by
  simp only [rowsOpImm, List.forall_mem_cons, List.not_mem_nil, IsEmpty.forall_iff, implies_true, and_true]
  exact ⟨fun _ h => ⟨rfl, encI_fields h⟩, fun _ h => ⟨rfl, encI_fields h⟩, fun _ h => ⟨rfl, encI_fields h⟩,
    fun _ h => ⟨rfl, encI_fields h⟩, fun _ h => ⟨rfl, encI_fields h⟩, fun _ h => ⟨rfl, encI_fields h⟩,
    fun _ h => ⟨rfl, encShift_fields h⟩, fun _ h => ⟨rfl, encShift_fields h⟩, fun _ h => ⟨rfl, encShift_fields h⟩⟩

theorem rowsOp_faithful : ∀ r ∈ rowsOp, r.Faithful := by
  simp only [rowsOp, List.forall_mem_cons, List.not_mem_nil, IsEmpty.forall_iff, implies_true, and_true]
  refine ⟨?_, ?_, ?_, ?_, ?_, ?_, ?_, ?_, ?_, ?_⟩ <;> exact fun w h => ⟨rfl, encR_fields h⟩

theorem rowsFence_faithful : ∀ r ∈ rowsFence, r.Faithful := by
  simp only [rowsFence, List.forall_mem_cons, List.not_mem_nil, IsEmpty.forall_iff, implies_true, and_true]
  exact ⟨fun _ h => ⟨rfl, encFence_fields h⟩, fun _ h => ⟨rfl, encI_fields h⟩⟩

theorem rowsMulDiv_faithful : ∀ r ∈ rowsMulDiv, r.Faithful := by
  simp only [rowsMulDiv, List.forall_mem_cons, List.not_mem_nil, IsEmpty.forall_iff, implies_true, and_true]
  refine ⟨?_, ?_, ?_, ?_, ?_, ?_, ?_, ?_⟩ <;> exact fun w h => ⟨rfl, encR_fields h⟩

theorem rowsAtomic_faithful : ∀ r ∈ rowsAtomic, r.Faithful := by
  simp only [rowsAtomic, List.forall_mem_cons, List.not_mem_nil, IsEmpty.forall_iff, implies_true, and_true]
  refine ⟨fun _ h => ⟨rfl, encAtomic_zero_fields h⟩, ?_, ?_, ?_, ?_, ?_, ?_, ?_, ?_, ?_, ?_⟩ <;>
    exact fun w h => ⟨rfl, encAtomic_fields h⟩

/-- A mask that pins every bit selects its pattern alone. -/
theorem eq_of_and_allOnes {w pat : Word} (h : w &&& 0xFFFFFFFF#32 = pat) : pat = w :=
  h.symm.trans BitVec.and_allOnes

theorem rowsSystem_faithful : ∀ r ∈ rowsSystem, r.Faithful := by
  simp only [rowsSystem, List.forall_mem_cons, List.not_mem_nil, IsEmpty.forall_iff, implies_true, and_true]
  exact ⟨fun _ h => ⟨rfl, eq_of_and_allOnes h⟩, fun _ h => ⟨rfl, eq_of_and_allOnes h⟩,
    fun _ h => ⟨rfl, encCsr_fields h⟩, fun _ h => ⟨rfl, encCsr_fields h⟩, fun _ h => ⟨rfl, encCsr_fields h⟩,
    fun _ h => ⟨rfl, encCsr_fields h⟩, fun _ h => ⟨rfl, encCsr_fields h⟩, fun _ h => ⟨rfl, encCsr_fields h⟩,
    fun _ h => ⟨rfl, eq_of_and_allOnes h⟩, fun _ h => ⟨rfl, eq_of_and_allOnes h⟩⟩

/-- What holds of the rows of each part of the table holds of every row. -/
theorem forall_mem_rows {P : Row → Prop} (hUpper : ∀ r ∈ rowsUpperAndJumps, P r) (hBranch : ∀ r ∈ rowsBranch, P r)
    (hLoadStore : ∀ r ∈ rowsLoadStore, P r) (hOpImm : ∀ r ∈ rowsOpImm, P r) (hOp : ∀ r ∈ rowsOp, P r)
    (hFence : ∀ r ∈ rowsFence, P r) (hMulDiv : ∀ r ∈ rowsMulDiv, P r) (hAtomic : ∀ r ∈ rowsAtomic, P r)
    (hSystem : ∀ r ∈ rowsSystem, P r) : ∀ r ∈ rows, P r := by
  simp only [rows, List.forall_mem_append]
  exact ⟨⟨⟨⟨⟨⟨⟨⟨hUpper, hBranch⟩, hLoadStore⟩, hOpImm⟩, hOp⟩, hFence⟩, hMulDiv⟩, hAtomic⟩, hSystem⟩

theorem rows_faithful : ∀ r ∈ rows, r.Faithful :=
  forall_mem_rows rowsUpperAndJumps_faithful rowsBranch_faithful rowsLoadStore_faithful rowsOpImm_faithful
    rowsOp_faithful rowsFence_faithful rowsMulDiv_faithful rowsAtomic_faithful rowsSystem_faithful

/-- Settles O2: a word that decodes is selected by a row, and no row loses a bit of a word it selects. -/
theorem decodeThenEncode : Obligations.DecodeThenEncode := by
  intro w i hi
  obtain ⟨r, hr, hw, rfl⟩ := decodeWord_eq_ok_iff.1 hi
  exact rows_faithful r hr w hw

end Sys2Proof

namespace Sys2Proof

/-! ## The masks of the table select by fields (30_encoding.md R121, R133) -/

/-- The mask of the field `w[start + len - 1 : start]`. -/
def fieldMask (start len : Nat) : Word := (BitVec.allOnes len).setWidth 32 <<< start

theorem getLsbD_fieldMask {start len i : Nat} (hi : i < 32) :
    (fieldMask start len).getLsbD i = decide (start ≤ i ∧ i < start + len) := by
  rw [fieldMask, BitVec.getLsbD_shiftLeft, BitVec.getLsbD_setWidth, BitVec.getLsbD_allOnes, Bool.eq_iff_iff]
  simp only [Bool.and_eq_true, Bool.not_eq_true', decide_eq_true_eq, decide_eq_false_iff_not]
  omega

/-- Two words agree under the mask of a field exactly when they have the same field. -/
theorem and_fieldMask_eq_iff {w p : Word} {start len : Nat} (hlen : start + len ≤ 32) :
    w &&& fieldMask start len = p &&& fieldMask start len ↔ w.extractLsb' start len = p.extractLsb' start len := by
  constructor
  · intro h
    apply BitVec.eq_of_getLsbD_eq
    intro i hi
    have hbit := congrArg (·.getLsbD (start + i)) h
    simpa [getLsbD_fieldMask (show start + i < 32 by omega), hi] using hbit
  · intro h
    apply BitVec.eq_of_getLsbD_eq
    intro i hi
    simp only [BitVec.getLsbD_and, getLsbD_fieldMask hi]
    by_cases hin : start ≤ i ∧ i < start + len
    · have hbit := congrArg (·.getLsbD (i - start)) h
      simpa [hin, show i - start < len by omega] using hbit
    · simp [hin]

/-- Two words agree under the union of two masks exactly when they agree under both. -/
theorem and_or_eq_iff {w p m m' : Word} :
    w &&& (m ||| m') = p &&& (m ||| m') ↔ w &&& m = p &&& m ∧ w &&& m' = p &&& m' := by
  have hbool : ∀ a b c d : Bool, (a && (c || d)) = (b && (c || d)) ↔ (a && c) = (b && c) ∧ (a && d) = (b && d) := by
    decide
  simp only [BitVec.eq_of_getLsbD_eq_iff, BitVec.getLsbD_and, BitVec.getLsbD_or, hbool, imp_and, forall_and]

/-! A word selects a row when it has the row's pinned fields. -/

theorem and_opcodeMask_eq_iff {w pat : Word} (hpat : pat &&& 0x0000007F#32 = pat) :
    w &&& 0x0000007F#32 = pat ↔ w.extractLsb' 0 7 = pat.extractLsb' 0 7 := by
  rw [← and_fieldMask_eq_iff (show 0 + 7 ≤ 32 by omega)]
  exact iff_of_eq (congrArg (w &&& 0x0000007F#32 = ·) hpat.symm)

theorem and_funct3Mask_eq_iff {w pat : Word} (hpat : pat &&& 0x0000707F#32 = pat) :
    w &&& 0x0000707F#32 = pat ↔
      w.extractLsb' 0 7 = pat.extractLsb' 0 7 ∧ w.extractLsb' 12 3 = pat.extractLsb' 12 3 := by
  rw [← and_fieldMask_eq_iff (show 0 + 7 ≤ 32 by omega), ← and_fieldMask_eq_iff (show 12 + 3 ≤ 32 by omega),
    ← and_or_eq_iff]
  exact iff_of_eq (congrArg (w &&& 0x0000707F#32 = ·) hpat.symm)

theorem and_funct7Mask_eq_iff {w pat : Word} (hpat : pat &&& 0xFE00707F#32 = pat) :
    w &&& 0xFE00707F#32 = pat ↔
      (w.extractLsb' 0 7 = pat.extractLsb' 0 7 ∧ w.extractLsb' 12 3 = pat.extractLsb' 12 3) ∧
        w.extractLsb' 25 7 = pat.extractLsb' 25 7 := by
  rw [← and_fieldMask_eq_iff (show 0 + 7 ≤ 32 by omega), ← and_fieldMask_eq_iff (show 12 + 3 ≤ 32 by omega),
    ← and_fieldMask_eq_iff (show 25 + 7 ≤ 32 by omega), ← and_or_eq_iff, ← and_or_eq_iff]
  exact iff_of_eq (congrArg (w &&& 0xFE00707F#32 = ·) hpat.symm)

theorem and_funct5Mask_eq_iff {w pat : Word} (hpat : pat &&& 0xF800707F#32 = pat) :
    w &&& 0xF800707F#32 = pat ↔
      (w.extractLsb' 0 7 = pat.extractLsb' 0 7 ∧ w.extractLsb' 12 3 = pat.extractLsb' 12 3) ∧
        w.extractLsb' 27 5 = pat.extractLsb' 27 5 := by
  rw [← and_fieldMask_eq_iff (show 0 + 7 ≤ 32 by omega), ← and_fieldMask_eq_iff (show 12 + 3 ≤ 32 by omega),
    ← and_fieldMask_eq_iff (show 27 + 5 ≤ 32 by omega), ← and_or_eq_iff, ← and_or_eq_iff]
  exact iff_of_eq (congrArg (w &&& 0xF800707F#32 = ·) hpat.symm)

theorem and_lrMask_eq_iff {w pat : Word} (hpat : pat &&& 0xF9F0707F#32 = pat) :
    w &&& 0xF9F0707F#32 = pat ↔
      ((w.extractLsb' 0 7 = pat.extractLsb' 0 7 ∧ w.extractLsb' 12 3 = pat.extractLsb' 12 3) ∧
        w.extractLsb' 27 5 = pat.extractLsb' 27 5) ∧ w.extractLsb' 20 5 = pat.extractLsb' 20 5 := by
  rw [← and_fieldMask_eq_iff (show 0 + 7 ≤ 32 by omega), ← and_fieldMask_eq_iff (show 12 + 3 ≤ 32 by omega),
    ← and_fieldMask_eq_iff (show 27 + 5 ≤ 32 by omega), ← and_fieldMask_eq_iff (show 20 + 5 ≤ 32 by omega),
    ← and_or_eq_iff, ← and_or_eq_iff, ← and_or_eq_iff]
  exact iff_of_eq (congrArg (w &&& 0xF9F0707F#32 = ·) hpat.symm)

theorem and_allOnesMask_eq_iff {w pat : Word} : w &&& 0xFFFFFFFF#32 = pat ↔ w = pat := by
  rw [show w &&& 0xFFFFFFFF#32 = w from BitVec.and_allOnes]

/-! ## The words each part of the table selects (30_encoding.md R133) -/

/-- A row of the list selects the word. -/
def Selected (l : List Row) (w : Word) : Prop := ∃ r ∈ l, w &&& r.mask = r.pat

theorem selected_cons {r : Row} {l : List Row} {w : Word} :
    Selected (r :: l) w ↔ w &&& r.mask = r.pat ∨ Selected l w := by
  simp [Selected]

theorem not_selected_nil {w : Word} : ¬ Selected [] w := by simp [Selected]

theorem selected_append {l l' : List Row} {w : Word} : Selected (l ++ l') w ↔ Selected l w ∨ Selected l' w := by
  simp [Selected, or_and_right, exists_or]

theorem funct3_cases (f3 : BitVec 3) :
    f3 = 0#3 ∨ f3 = 1#3 ∨ f3 = 2#3 ∨ f3 = 3#3 ∨ f3 = 4#3 ∨ f3 = 5#3 ∨ f3 = 6#3 ∨ f3 = 7#3 := by
  revert f3; decide

theorem selected_rowsUpperAndJumps_iff {w : Word} :
    Selected rowsUpperAndJumps w ↔
      w.extractLsb' 0 7 = 0x37#7 ∨ w.extractLsb' 0 7 = 0x17#7 ∨ w.extractLsb' 0 7 = 0x6F#7 ∨
        w.extractLsb' 0 7 = 0x67#7 ∧ w.extractLsb' 12 3 = 0b000#3 := by
  simp [rowsUpperAndJumps, selected_cons, not_selected_nil, and_opcodeMask_eq_iff, and_funct3Mask_eq_iff]

theorem selected_rowsBranch_iff {w : Word} :
    Selected rowsBranch w ↔
      w.extractLsb' 0 7 = 0x63#7 ∧ w.extractLsb' 12 3 ≠ 0b010#3 ∧ w.extractLsb' 12 3 ≠ 0b011#3 := by
  rcases funct3_cases (w.extractLsb' 12 3) with h | h | h | h | h | h | h | h <;>
    simp [rowsBranch, selected_cons, not_selected_nil, and_funct3Mask_eq_iff, h]

theorem selected_rowsLoadStore_iff {w : Word} :
    Selected rowsLoadStore w ↔
      w.extractLsb' 0 7 = 0x03#7 ∧ w.extractLsb' 12 3 ≠ 0b011#3 ∧ w.extractLsb' 12 3 ≠ 0b110#3 ∧
          w.extractLsb' 12 3 ≠ 0b111#3 ∨
        w.extractLsb' 0 7 = 0x23#7 ∧ w.extractLsb' 12 3 ≠ 0b011#3 ∧ (w.extractLsb' 12 3).toNat < 4 := by
  rcases funct3_cases (w.extractLsb' 12 3) with h | h | h | h | h | h | h | h <;>
    simp [rowsLoadStore, selected_cons, not_selected_nil, and_funct3Mask_eq_iff, h, -BitVec.extractLsb'_toNat]

theorem selected_rowsOpImm_iff {w : Word} :
    Selected rowsOpImm w ↔
      w.extractLsb' 0 7 = 0x13#7 ∧ (w.extractLsb' 12 3 = 0b001#3 → w.extractLsb' 25 7 = 0b0000000#7) ∧
        (w.extractLsb' 12 3 = 0b101#3 → w.extractLsb' 25 7 = 0b0000000#7 ∨ w.extractLsb' 25 7 = 0b0100000#7) := by
  rcases funct3_cases (w.extractLsb' 12 3) with h | h | h | h | h | h | h | h <;>
    simp [rowsOpImm, selected_cons, not_selected_nil, and_funct3Mask_eq_iff, and_funct7Mask_eq_iff, h, ← and_or_left]

theorem selected_rowsOp_iff {w : Word} :
    Selected rowsOp w ↔
      w.extractLsb' 0 7 = 0x33#7 ∧ (w.extractLsb' 25 7 = 0b0000000#7 ∨
        w.extractLsb' 25 7 = 0b0100000#7 ∧ (w.extractLsb' 12 3 = 0b000#3 ∨ w.extractLsb' 12 3 = 0b101#3)) := by
  rcases funct3_cases (w.extractLsb' 12 3) with h | h | h | h | h | h | h | h <;>
    simp [rowsOp, selected_cons, not_selected_nil, and_funct7Mask_eq_iff, h, ← and_or_left]

theorem selected_rowsFence_iff {w : Word} :
    Selected rowsFence w ↔
      w.extractLsb' 0 7 = 0x0F#7 ∧ (w.extractLsb' 12 3 = 0b000#3 ∨ w.extractLsb' 12 3 = 0b001#3) := by
  simp [rowsFence, selected_cons, not_selected_nil, and_funct3Mask_eq_iff, and_or_left]

theorem selected_rowsMulDiv_iff {w : Word} :
    Selected rowsMulDiv w ↔ w.extractLsb' 0 7 = 0x33#7 ∧ w.extractLsb' 25 7 = 0b0000001#7 := by
  rcases funct3_cases (w.extractLsb' 12 3) with h | h | h | h | h | h | h | h <;>
    simp [rowsMulDiv, selected_cons, not_selected_nil, and_funct7Mask_eq_iff, h]

theorem selected_rowsAtomic_iff {w : Word} :
    Selected rowsAtomic w ↔
      w.extractLsb' 0 7 = 0x2F#7 ∧ w.extractLsb' 12 3 = 0b010#3 ∧
        (w.extractLsb' 27 5 = 0b00010#5 → w.extractLsb' 20 5 = 0b00000#5) ∧
        w.extractLsb' 27 5 ∈ [0b00000#5, 0b00001#5, 0b00010#5, 0b00011#5, 0b00100#5, 0b01000#5, 0b01100#5, 0b10000#5,
          0b10100#5, 0b11000#5, 0b11100#5] := by
  by_cases hlr : w.extractLsb' 27 5 = 0b00010#5
  · simp [rowsAtomic, selected_cons, not_selected_nil, and_lrMask_eq_iff, and_funct5Mask_eq_iff, hlr, and_assoc]
  · simp [rowsAtomic, selected_cons, not_selected_nil, and_lrMask_eq_iff, and_funct5Mask_eq_iff, hlr, and_assoc,
      ← and_or_left]
    tauto

theorem selected_rowsSystem_iff {w : Word} :
    Selected rowsSystem w ↔
      w.extractLsb' 0 7 = 0x73#7 ∧ w.extractLsb' 12 3 ≠ 0b100#3 ∧
        (w.extractLsb' 12 3 = 0b000#3 → w ∈ [0x00000073#32, 0x00100073#32, 0x10500073#32, 0x30200073#32]) := by
  by_cases hw : w ∈ [0x00000073#32, 0x00100073#32, 0x10500073#32, 0x30200073#32]
  · simp only [List.mem_cons, List.not_mem_nil, or_false] at hw
    rcases hw with rfl | rfl | rfl | rfl <;> simp [rowsSystem, selected_cons]
  · have hno : w ≠ 0x00000073#32 ∧ w ≠ 0x00100073#32 ∧ w ≠ 0x10500073#32 ∧ w ≠ 0x30200073#32 := by simpa using hw
    rcases funct3_cases (w.extractLsb' 12 3) with h | h | h | h | h | h | h | h <;>
      simp [rowsSystem, selected_cons, not_selected_nil, and_funct3Mask_eq_iff, and_allOnesMask_eq_iff, h, hno]

theorem decodeWord_eq_illegal_iff {w : Word} : decodeWord w = .error .illegal ↔ ¬ Selected rows w := by
  constructor
  · rintro herr ⟨r, hr, hw⟩
    exact nomatch herr.symm.trans (decodeWord_of_selects hr (Row.selects_iff.2 hw))
  · exact fun hno => decodeWord_of_no_row fun r hr hw => hno ⟨r, hr, hw⟩

/-- Settles O4: the words the nine parts of the table select are, opcode by opcode, those no clause of the list rejects. -/
theorem illegalWordsAreTheOnesListed : Obligations.IllegalWordsAreTheOnesListed := by
  intro w
  rw [decodeWord_eq_illegal_iff, rows]
  simp only [selected_append, selected_rowsUpperAndJumps_iff, selected_rowsBranch_iff, selected_rowsLoadStore_iff,
    selected_rowsOpImm_iff, selected_rowsOp_iff, selected_rowsFence_iff, selected_rowsMulDiv_iff,
    selected_rowsAtomic_iff, selected_rowsSystem_iff, Machine.IllegalWord, List.mem_cons, List.not_mem_nil, or_false]
  generalize w.extractLsb' 0 7 = opcode, w.extractLsb' 12 3 = funct3, w.extractLsb' 25 7 = funct7,
    w.extractLsb' 27 5 = funct5
  by_cases hop : opcode = 0x37#7 ∨ opcode = 0x17#7 ∨ opcode = 0x6F#7 ∨ opcode = 0x67#7 ∨ opcode = 0x63#7 ∨
      opcode = 0x03#7 ∨ opcode = 0x23#7 ∨ opcode = 0x13#7 ∨ opcode = 0x33#7 ∨ opcode = 0x0F#7 ∨ opcode = 0x2F#7 ∨
      opcode = 0x73#7
  · rcases hop with rfl | rfl | rfl | rfl | rfl | rfl | rfl | rfl | rfl | rfl | rfl | rfl
    case inr.inr.inr.inr.inr.inr.inr.inr.inr.inr.inl =>
      by_cases hlr : funct5 = 0b00010#5 <;> simp [hlr, imp_iff_not_or]
    all_goals grind
  · simp only [not_or] at hop
    simp [hop]

end Sys2Proof

namespace Sys2Proof.Machine

open Host (Outcome)

/-! ## One turn of the driver's loop (60_exceptions.md R323 to R331) -/

theorem settle_of_spent {s : State} (h : s.call = some 0#32) : settle s = s.endCall .continue := if_pos h

theorem settle_of_not_spent {s : State} (h : s.call ≠ some 0#32) : settle s = s := if_neg h

theorem settle_of_ended {s : State} (h : s.call = none) : settle s = s := settle_of_not_spent (by simp [h])

theorem slot_zero (s : State) : slot 0#32 s = .next (s.endCall .continue) := rfl

theorem slot_of_interrupt {b : Word} {s : State} (hb : b ≠ 0#32) (hint : interruptTaken (sampleTimer s) = true) :
    slot b s = .next (takeInterrupt (sampleTimer s)) := by
  rw [slot, if_neg hb, if_pos hint]

theorem slot_of_no_interrupt {b : Word} {s u : State} (hb : b ≠ 0#32) (hint : interruptTaken (sampleTimer s) = false)
    (hexec : executeOne (slotState s b) = .next u) : slot b s = .next (settle u) := by
  rw [slot, if_neg hb, if_neg (by simp [hint]), beginSlot_sampleTimer, hexec]

/-- A turn with a slot left takes the interrupt, or executes one slot and settles the call. -/
theorem slot_cases {b : Word} {s t : State} (hb : b ≠ 0#32) (hslot : slot b s = .next t) :
    (interruptTaken (sampleTimer s) = true ∧ t = takeInterrupt (sampleTimer s)) ∨
      (interruptTaken (sampleTimer s) = false ∧
        ∃ u, executeOne (slotState s b) = .next u ∧ Kept (slotState s b) u ∧ t = settle u) := by
  cases hint : interruptTaken (sampleTimer s) with
  | true => exact .inl ⟨rfl, Outcome.next.inj (hslot.symm.trans (slot_of_interrupt hb hint))⟩
  | false =>
    obtain ⟨u, hexec, hkept⟩ := executeOne_kept (slotState s b)
    exact .inr ⟨rfl, u, hexec, hkept, Outcome.next.inj (hslot.symm.trans (slot_of_no_interrupt hb hint hexec))⟩

/-! ## What a step call does when it opens (60_exceptions.md R321, R322, R330) -/

/-- The state in which a call has accounted the elapsed time and sampled the timer. -/
def openedState (s : State) (a : StepArgs) : State :=
  sampleTimer { s.addCounter a.elapsed with result := none }

theorem openCall_eq (a : StepArgs) (s : State) :
    openCall a s =
      if (openedState s a).wfi then ((openedState s a).addCounter a.maxInstructions).endCall .sleep
      else { openedState s a with call := some a.maxInstructions } := rfl

theorem openCall_of_waiting {a : StepArgs} {s : State} (h : (openedState s a).wfi = true) :
    openCall a s = ((openedState s a).addCounter a.maxInstructions).endCall .sleep := by
  rw [openCall_eq, if_pos h]

theorem openCall_of_awake {a : StepArgs} {s : State} (h : (openedState s a).wfi = false) :
    openCall a s = { openedState s a with call := some a.maxInstructions } := by
  rw [openCall_eq, if_neg (by simp [h])]

/-- Opening a call writes the counter, the pending bit, the wait flag and the result. -/
theorem openedState_frame (s : State) (a : StepArgs) :
    openedState s a = { s with
      counter := s.counter + a.elapsed.zeroExtend 64, mip := (openedState s a).mip, wfi := (openedState s a).wfi,
      result := none } := by
  rw [openedState, sampleTimer_frame]
  rfl

/-! ## The invariant (Sys2Proof/Safety.lean) -/

/-- The part of the invariant that does not speak of the call in flight. -/
structure State.Sound (s : State) : Prop where
  legal : s.params.legal = true
  memWf : Memory.wf s.mem = true
  memWithin : Memory.within s.params s.mem = true
  zeroStored : s.regs[0] = 0#32

theorem State.Inv.sound {s : State} (h : s.Inv) : s.Sound := ⟨h.legal, h.memWf, h.memWithin, h.zeroStored⟩

/-- Between calls there is nothing else to meet. -/
theorem State.Inv.of_idle {s : State} (h : s.Sound) (hcall : s.call = none) : s.Inv :=
  ⟨h.legal, h.memWf, h.memWithin, h.zeroStored, by simp [hcall], fun _ => hcall, fun hc => absurd hcall hc⟩

theorem State.Sound.of_eq {s t : State} (h : s.Sound) (hparams : t.params = s.params) (hmem : t.mem = s.mem)
    (hregs : t.regs = s.regs) : t.Sound :=
  ⟨hparams ▸ h.legal, hmem ▸ h.memWf, by rw [hparams, hmem]; exact h.memWithin, by rw [hregs]; exact h.zeroStored⟩

theorem State.Sound.of_kept {s t : State} (h : s.Sound) (hk : Kept s t) : t.Sound :=
  ⟨hk.params ▸ h.legal, hk.memWf h.memWf, hk.params ▸ hk.memWithin h.memWithin, hk.zeroStored.trans h.zeroStored⟩

theorem inv_of_interrupt {s : State} (hs : s.Sound) : (takeInterrupt (sampleTimer s)).Inv := by
  rw [sampleTimer_frame]
  exact .of_idle (hs.of_eq rfl rfl rfl) rfl

/-- The call of a slot's state, settled after an instruction that left it in flight, ended it, or raised. -/
theorem inv_of_settle {s u : State} (hs : s.Sound) (hawake : s.wfi = false) (hpending : s.result = none)
    (hk : Kept s u) : (settle u).Inv := by
  have hu := hs.of_kept hk
  rcases hk.call with ⟨-, hres, hwfi, -⟩ | ⟨hended, -⟩ | ⟨e, tval, rfl⟩ | ⟨hended, -⟩
  · by_cases hspent : u.call = some 0#32
    · rw [settle_of_spent hspent]
      exact .of_idle (hu.of_eq rfl rfl rfl) rfl
    · rw [settle_of_not_spent hspent]
      exact ⟨hu.legal, hu.memWf, hu.memWithin, hu.zeroStored, hspent, by simp [hwfi, hawake],
        fun _ => hres.trans hpending⟩
  · rw [settle_of_ended hended]
    exact .of_idle hu hended
  · rw [settle_raise]
    exact .of_idle hu rfl
  · rw [settle_of_ended hended]
    exact .of_idle hu hended

theorem inv_of_slot {b : Word} {s t : State} (hs : s.Sound) (hawake : s.wfi = false) (hpending : s.result = none)
    (hb : b ≠ 0#32) (hslot : slot b s = .next t) : t.Inv := by
  rcases slot_cases hb hslot with ⟨-, rfl⟩ | ⟨-, u, -, hk, rfl⟩
  · exact inv_of_interrupt hs
  · refine inv_of_settle (s := slotState s b) (.of_eq hs rfl rfl rfl) ?awake hpending hk
    simp [slotState, hawake]

theorem inv_of_openedCall {a : StepArgs} {s t : State} (hs : s.Sound)
    (hstep : continueCall (openCall a s) = .next t) : t.Inv := by
  have hopened : (openedState s a).Sound := by
    rw [openedState_frame]
    exact hs.of_eq rfl rfl rfl
  cases hwait : (openedState s a).wfi with
  | true =>
    rw [openCall_of_waiting hwait] at hstep
    cases hstep
    exact .of_idle (hopened.of_eq rfl rfl rfl) rfl
  | false =>
    rw [openCall_of_awake hwait] at hstep
    by_cases hb : a.maxInstructions = 0#32
    · rw [hb] at hstep
      cases hstep
      exact .of_idle (hopened.of_eq rfl rfl rfl) rfl
    · have hpending : (openedState s a).result = none := by rw [openedState_frame]
      exact inv_of_slot (s := { openedState s a with call := some a.maxInstructions }) (.of_eq hopened rfl rfl rfl) hwait
        hpending hb hstep

theorem sound_coreWrite {s : State} (hs : s.Sound) (w : CoreWrite) : (coreWrite w s).Sound := by
  cases w with
  | reg r v => exact ⟨by simpa [coreWrite] using hs.legal, by simpa [coreWrite] using hs.memWf,
      by simpa [coreWrite] using hs.memWithin, (setX_regs_zero s r v).trans hs.zeroStored⟩
  | _ => exact hs.of_eq rfl rfl rfl

theorem coreWrite_call (w : CoreWrite) (s : State) : (coreWrite w s).call = s.call := by
  cases w with
  | reg r v => exact setX_call s r v
  | _ => rfl

theorem sound_hostReset {s : State} (hs : s.Sound) : (hostReset s).Sound :=
  ⟨by simpa using hs.legal, by simpa using hs.memWf, by simpa using hs.memWithin, by simp [hostResetRegs]⟩

theorem inv_of_hostAct {c : HostCmd} {s t : State} (hs : s.Sound) (hcall : s.call = none)
    (hstep : hostAct c s = .next t) : t.Inv := by
  cases c with
  | stepCall a => exact inv_of_openedCall hs hstep
  | reset =>
    obtain rfl := Outcome.next.inj hstep
    exact .of_idle (sound_hostReset hs) (by simpa using hcall)
  | feedInput bs =>
    cases hstep
    exact .of_idle (hs.of_eq rfl rfl rfl) hcall
  | writeRam a b =>
    simp only [hostAct] at hstep
    split at hstep
    next hin =>
      cases hstep
      exact State.Inv.of_idle ⟨hs.legal, Memory.wf_writeLE hs.memWf a.toNat (b.zeroExtend 32) .byte,
        Memory.within_writeLE hs.memWithin a (b.zeroExtend 32) .byte hin, hs.zeroStored⟩ hcall
    next => cases hstep
  | writeCore w =>
    cases hstep
    exact .of_idle (sound_coreWrite hs w) ((coreWrite_call w s).trans hcall)

theorem step_of_idle {s : State} (hl : s.params.legal = true) (hcall : s.call = none) : step s = hostMove s := by
  simp [step, hl, hcall]

/-- Settles O44: a turn of the call in flight, the opening of a call, and each other command of the host keep it. -/
theorem stepKeepsTheInvariant : Obligations.StepKeepsTheInvariant := by
  intro s t hs hstep
  cases hcall : s.call with
  | some b =>
    rw [step_of_inFlight hs.legal hcall] at hstep
    have hawake : s.wfi = false := Bool.eq_false_iff.2 fun hw => by simp [hs.waiting hw] at hcall
    exact inv_of_slot hs.sound hawake (hs.noResult (by simp [hcall])) (fun hb => hs.slotLeft (hb ▸ hcall)) hstep
  | none =>
    rw [step_of_idle hs.legal hcall, hostMove] at hstep
    split at hstep
    next => exact inv_of_hostAct hs.sound hcall hstep
    next rest _ =>
      exact inv_of_hostAct (s := { s with hostQueue := rest }) (.of_eq hs.sound rfl rfl rfl) hcall hstep

/-- Settles O43: the reset memory is empty and no call is in flight. -/
theorem resetMeetsTheInvariant : Obligations.ResetMeetsTheInvariant :=
  State.Inv.of_idle ⟨rfl, rfl, rfl, rfl⟩ rfl

/-! ## Every step answers a next state -/

theorem continueCall_next (s : State) : ∃ t, continueCall s = .next t := by
  unfold continueCall
  split
  · exact ⟨_, rfl⟩
  · exact slot_next _ _

theorem hostAct_next (c : HostCmd) (s : State) (hram : ∀ a b, c = .writeRam a b → InRamRange s a 1) :
    ∃ t, hostAct c s = .next t := by
  cases c with
  | stepCall a => exact continueCall_next _
  | reset => exact ⟨_, rfl⟩
  | feedInput bs => exact ⟨_, rfl⟩
  | writeRam a b => exact ⟨_, if_pos ((inRam_iff_range s a .byte).2 (hram a b rfl))⟩
  | writeCore w => exact ⟨_, rfl⟩

/-- Settles O45: a turn of the loop always answers, and so does every command but a write outside RAM. -/
theorem stepNeverStops : Obligations.StepNeverStops := by
  intro s hl hram
  cases hcall : s.call with
  | some b => exact step_of_inFlight hl hcall ▸ slot_next b s
  | none =>
    rw [step_of_idle hl hcall, hostMove]
    split
    next => exact continueCall_next _
    next c rest hq => exact hostAct_next c _ fun a b hc => hram hcall a b rest (hc ▸ hq)

end Sys2Proof.Machine

namespace Sys2Proof.Machine

open Host (Outcome)

/-! ## The step in the terms of the claims (60_exceptions.md R320 to R331) -/

/-- Four bytes decode to the instruction of their word (20_memory.md R74). -/
theorem decodeWord_of_decode {b0 b1 b2 b3 : Byte} {i : Instr} (h : decode [b0, b1, b2, b3] = .ok (i, [])) :
    decodeWord (wordOfBytes b0 b1 b2 b3) = .ok i := by
  rw [decode] at h
  cases hd : decodeWord (wordOfBytes b0 b1 b2 b3) with
  | ok j =>
    rw [hd] at h
    cases h
    rfl
  | error e =>
    rw [hd] at h
    cases h

/-- Settles O8: the fetched word is the four bytes', so the slot executes the instruction, and settling is the end of a
call whose last slot this was. -/
theorem stepRunsTheDecodedInstruction : Obligations.StepRunsTheDecodedInstruction := by
  intro s b i hs hdecode
  have hword : decodeWord (wordAt s s.pc) = .ok i := decodeWord_of_decode hdecode
  obtain ⟨t, hexec, -⟩ := exec_effect i (slotState s b)
  have hone : executeOne (slotState s b) = .next t := by
    rw [executeOne_of_executes hs, hword]
    exact hexec
  rw [step_of_slotStarts hs.toSlotStarts, hone, hexec]
  rfl

/-- A slot whose instruction raises ends the step in that trap. -/
theorem step_of_raise {s : State} {b : Word} {e : Exception} {tval : Word} (hs : SlotStarts s b)
    (hexec : executeOne (slotState s b) = .next (raise e tval (slotState s b))) :
    ∃ t, step s = .next t ∧ TrapTaken (slotState s b) t e.code s.pc tval := by
  refine ⟨_, ?_, trapTaken_raise (slotState s b) e tval⟩
  rw [step_of_slotStarts hs, hexec]
  exact congrArg Outcome.next (settle_raise _ _ _)

theorem executeOne_of_fetch_error {s : State} {e : Exception} (h : fetch s = .error e) :
    executeOne s = .next (raise e s.pc s) := by
  rw [executeOne, h]

theorem fetch_misaligned {s : State} (h : s.pc.toNat % 4 ≠ 0) : fetch s = .error .instrAddrMisaligned := by
  have halign : Width.word.aligned s.pc = false := Bool.eq_false_iff.2 fun ha => h ((aligned_iff .word s.pc).1 ha)
  simp [fetch, halign]

theorem fetch_outside {s : State} (h : s.pc.toNat % 4 = 0) (hr : ¬ InRamRange s s.pc 4) :
    fetch s = .error .instrAccessFault := by
  have hram : s.inRam s.pc .word = false := Bool.eq_false_iff.2 fun ha => hr ((inRam_iff_range s s.pc .word).1 ha)
  simp [fetch, (aligned_iff .word s.pc).2 h, hram]

/-- Settles O9: the fetch tests alignment before the bounds of RAM; an illegal word is one the decoder rejects (O4). -/
theorem slotThatCannotExecuteTraps : Obligations.SlotThatCannotExecuteTraps := by
  refine fun s b => ⟨fun hs hpc => ?misaligned, fun hs hpc hr => ?outside, fun hs hw => ?illegal⟩
  case misaligned =>
    have hf : fetch (slotState s b) = .error .instrAddrMisaligned := fetch_misaligned hpc
    exact step_of_raise hs (executeOne_of_fetch_error hf)
  case outside =>
    have hf : fetch (slotState s b) = .error .instrAccessFault := fetch_outside hpc hr
    exact step_of_raise hs (executeOne_of_fetch_error hf)
  case illegal =>
    exact ⟨_, step_of_undecodable hs ((illegalWordsAreTheOnesListed _).2 hw), trapTaken_raise (slotState s b) _ _⟩

/-- Settles O10: with the timer pending and both enables set the interrupt is taken from the sampled state. -/
theorem timerInterruptIsTakenBetweenInstructions : Obligations.TimerInterruptIsTakenBetweenInstructions := by
  intro s b hl hcall hb htimer hmie hmstatus
  have hint : interruptTaken (sampleTimer s) = true := by
    rw [interruptTaken_sampleTimer, hmie, hmstatus]
    simp [htimer]
  have hsample : sampleTimer s = { s with mip := s.mip ||| 0x00000080#32, wfi := false } := if_pos htimer
  have hstep : step s = .next (takeInterrupt (sampleTimer s)) :=
    (step_of_inFlight hl hcall).trans (slot_of_interrupt hb hint)
  rw [hsample] at hstep
  exact ⟨_, hstep, trapTaken_takeTrap _ timerCause s.pc 0#32⟩

/-! ## Opening a call -/

/-- The host's next call is made by the very next step. -/
theorem step_of_nextCall {s : State} {a : StepArgs} {rest : List HostCmd} (hl : s.params.legal = true)
    (hnext : NextCall s a rest) : step s = continueCall (openCall a { s with hostQueue := rest }) := by
  obtain ⟨hcall, hq | ⟨hq, rfl, rfl⟩⟩ := hnext
  · rw [step_of_idle hl hcall, hostMove, hq]
    rfl
  · have hs : { s with hostQueue := [] } = s := by rw [← hq]
    rw [step_of_idle hl hcall, hostMove, hq, hs]
    rfl

theorem continueCall_of_inFlight {s : State} {b : Word} (hl : s.params.legal = true) (hcall : s.call = some b) :
    continueCall s = step s := by
  rw [step_of_inFlight hl hcall, continueCall, hcall]

/-- Settles O11: the sampled state answers for a waiting hart; otherwise the call's first turn is made in it. -/
theorem openingAStepCall : Obligations.OpeningAStepCall := by
  intro s a rest hl hnext c pending u
  have hopened : openedState { s with hostQueue := rest } a = u := by
    rw [openedState, sampleTimer_frame]
    simp only [mipSampled_eq]
    rfl
  have hcall : u.call = none := hnext.1
  have hend (r : ResultCode) (n : DWord) :
      { u with counter := n, result := some r } = { u with counter := n, call := none, result := some r } := by
    rw [← hcall]
  rw [step_of_nextCall hl hnext]
  refine ⟨fun hwait => ?waiting, fun hawake hmax => ?noSlot, fun hawake hmax => ?firstSlot⟩
  case waiting =>
    rw [openCall_of_waiting (by rw [hopened]; exact hwait), hopened, hend]
    rfl
  case noSlot =>
    rw [openCall_of_awake (by rw [hopened]; exact hawake), hopened, hmax]
    exact congrArg Outcome.next (hend .continue u.counter).symm
  case firstSlot =>
    rw [openCall_of_awake (by rw [hopened]; exact hawake), hopened]
    exact continueCall_of_inFlight hl rfl

/-! ## The counter (60_exceptions.md R325, R330; decision D15) -/

/-- How one turn with `b` slots left ends, with what it adds to the counter. -/
inductive TurnEnd (b : Word) (s t : State) : Prop where
  /-- The interrupt is taken, no slot counted. -/
  | interrupted (hint : interruptTaken (sampleTimer s) = true) (hcall : t.call = none) (hres : t.result = some .trap)
      (hcounter : t.counter = s.counter)
  /-- The call goes on, one slot less. -/
  | running (hint : interruptTaken (sampleTimer s) = false) (hleft : b - 1#32 ≠ 0#32) (hcall : t.call = some (b - 1#32))
      (hres : t.result = s.result) (hcounter : t.counter = s.counter + 1#64)
  /-- The last slot was used up. -/
  | spent (hint : interruptTaken (sampleTimer s) = false) (hlast : b = 1#32) (hcall : t.call = none)
      (hres : t.result = some .continue) (hcounter : t.counter = s.counter + 1#64)
  /-- WFI ends the call and credits the slots left. -/
  | slept (hint : interruptTaken (sampleTimer s) = false) (hcall : t.call = none) (hres : t.result = some .sleep)
      (hcounter : t.counter = s.counter + b.zeroExtend 64)
  /-- A trap or a syscon request ends the call. -/
  | stopped (hint : interruptTaken (sampleTimer s) = false) (hcall : t.call = none)
      (hres : t.result = some .trap ∨ t.result = some .restart ∨ t.result = some .poweroff)
      (hcounter : t.counter = s.counter + 1#64)

/-- A slot and the credit of the slots left are together the whole budget. -/
theorem one_add_zeroExtend_pred {b : Word} (hb : b ≠ 0#32) :
    1#64 + (b - 1#32).zeroExtend 64 = b.zeroExtend 64 := by
  bv_omega

theorem turnEnd_of_slot {b : Word} {s t : State} (hb : b ≠ 0#32) (hslot : slot b s = .next t) :
    t.params = s.params ∧ TurnEnd b s t := by
  rcases slot_cases hb hslot with ⟨hint, rfl⟩ | ⟨hint, u, -, hk, rfl⟩
  · rw [sampleTimer_frame s]
    exact ⟨rfl, .interrupted hint rfl rfl rfl⟩
  · have hparams : u.params = s.params := hk.params
    rcases hk.call with ⟨hcall, hres, -, hcounter⟩ | ⟨hcall, hres, -, hcounter⟩ | ⟨e, tval, rfl⟩ |
      ⟨hcall, hres, -, hcounter⟩
    · by_cases hleft : b - 1#32 = 0#32
      · rw [settle_of_spent (hcall.trans (congrArg some hleft))]
        exact ⟨hparams, .spent hint (by bv_omega) rfl rfl hcounter⟩
      · rw [settle_of_not_spent fun h => hleft (Option.some.inj (hcall.symm.trans h))]
        exact ⟨hparams, .running hint hleft hcall hres hcounter⟩
    · rw [settle_of_ended hcall]
      exact ⟨hparams, .stopped hint hcall (.inr hres) hcounter⟩
    · rw [settle_raise]
      exact ⟨hparams, .stopped hint rfl (.inl rfl) rfl⟩
    · rw [settle_of_ended hcall]
      refine ⟨hparams, .slept hint hcall hres (hcounter.trans ?_)⟩
      rw [← one_add_zeroExtend_pred hb, ← BitVec.add_assoc]
      rfl

/-- Settles O52: the five ends of a turn, each with its amount. -/
theorem theCounterMovesOnlyByTime : Obligations.TheCounterMovesOnlyByTime := by
  intro s t b hs hcall hstep
  have hb : b ≠ 0#32 := fun hb => hs.slotLeft (hb ▸ hcall)
  have hpending : s.result = none := hs.noResult (by simp [hcall])
  rw [step_of_inFlight hs.legal hcall] at hstep
  cases (turnEnd_of_slot hb hstep).2 with
  | interrupted hint _ _ hcounter => simp [hint, hcounter]
  | running hint _ _ hres hcounter => simp [hint, hres, hpending, hcounter]
  | spent hint _ _ hres hcounter => simp [hint, hres, hcounter]
  | slept hint _ hres hcounter => simp [hint, hres, hcounter]
  | stopped hint _ hres hcounter => rcases hres with hres | hres | hres <;> simp [hint, hres, hcounter]

/-! ## The whole call (60_exceptions.md R346) -/

theorem runCall_of_ended (fuel : Nat) {s : State} (hcall : s.call = none) : runCall fuel s = .next s := by
  cases fuel with
  | zero => rfl
  | succ fuel => rw [runCall, hcall]

theorem runCall_succ {fuel : Nat} {s t : State} {b : Word} (hcall : s.call = some b) (hslot : slot b s = .next t) :
    runCall (fuel + 1) s = runCall fuel t := by
  rw [runCall, hcall]
  simp only [hslot]

/-- A call has returned, `n` slots or credits after `c`; codes 0 and 1 only with the whole budget `max`. -/
structure Returned (max : Nat) (c : DWord) (t : State) : Prop where
  ended : t.call = none
  answered : t.result ≠ none
  counted : ∃ n, n ≤ max ∧ t.counter = c + BitVec.ofNat 64 n ∧
    (t.result = some .continue ∨ t.result = some .sleep → n = max)

theorem toNat_pred {b : Word} (hb : b ≠ 0#32) : (b - 1#32).toNat + 1 = b.toNat := by bv_omega

/-- One slot before a call that returned. -/
theorem Returned.succ {max : Nat} {c : DWord} {t : State} (h : Returned max (c + 1#64) t) : Returned (max + 1) c t := by
  obtain ⟨n, hn, hcounter, hall⟩ := h.counted
  refine ⟨h.ended, h.answered, n + 1, by omega, ?_, fun hr => congrArg (· + 1) (hall hr)⟩
  rw [hcounter, BitVec.ofNat_add, BitVec.add_comm (BitVec.ofNat 64 n), BitVec.add_assoc]

/-- A turn that ends the call. -/
theorem Returned.of_turnEnd {b : Word} {s t : State} (hb : b ≠ 0#32) (h : TurnEnd b s t) (hcall : t.call = none) :
    Returned b.toNat s.counter t := by
  have hpos : 1 ≤ b.toNat := by bv_omega
  cases h with
  | interrupted _ _ hres hcounter => exact ⟨hcall, by simp [hres], 0, by omega, by simp [hcounter], by simp [hres]⟩
  | running _ _ hrun => simp [hcall] at hrun
  | spent _ hlast _ hres hcounter => exact ⟨hcall, by simp [hres], 1, hpos, hcounter, by simp [hlast]⟩
  | slept _ _ hres hcounter => exact ⟨hcall, by simp [hres], b.toNat, le_rfl, by simp [hcounter], fun _ => rfl⟩
  | stopped _ _ hres hcounter =>
    rcases hres with hres | hres | hres <;> exact ⟨hcall, by simp [hres], 1, hpos, hcounter, by simp [hres]⟩

/-- A call in flight returns within its slots, and each turn is a step of the machine. -/
theorem runCall_returns {fuel : Nat} {s : State} {b : Word} (hcall : s.call = some b) (hb : b ≠ 0#32)
    (hfuel : b.toNat ≤ fuel) :
    ∃ t, runCall fuel s = .next t ∧ Returned b.toNat s.counter t ∧
      (s.params.legal = true → ∃ k, k < b.toNat ∧ stepsTo (k + 1) s = some t) := by
  induction fuel generalizing s b with
  | zero => exact absurd (BitVec.eq_of_toNat_eq (y := 0#32) (Nat.le_zero.1 hfuel)) hb
  | succ fuel ih =>
    obtain ⟨u, hslot⟩ := slot_next b s
    obtain ⟨hparams, hend⟩ := turnEnd_of_slot hb hslot
    have hstep (hl : s.params.legal = true) (k : Nat) : stepsTo (k + 1) s = stepsTo k u := by
      rw [stepsTo, step_of_inFlight hl hcall, hslot]
    have hpred := toNat_pred hb
    rw [runCall_succ hcall hslot]
    by_cases hu : u.call = none
    · exact ⟨u, runCall_of_ended fuel hu, .of_turnEnd hb hend hu, fun hl => ⟨0, by omega, hstep hl 0⟩⟩
    · cases hend with
      | running _ hleft hcallU _ hcounter =>
        obtain ⟨t, hrun, hret, hsteps⟩ := ih hcallU hleft (by omega)
        rw [hcounter] at hret
        refine ⟨t, hrun, hpred ▸ hret.succ, fun hl => ?_⟩
        obtain ⟨k, hk, hkt⟩ := hsteps (hparams ▸ hl)
        exact ⟨k + 1, by omega, (hstep hl _).trans hkt⟩
      | interrupted _ h => exact absurd h hu
      | spent _ _ h => exact absurd h hu
      | slept _ h => exact absurd h hu
      | stopped _ h => exact absurd h hu

/-- The whole call on a state between calls: it returns, and its turns are steps of the machine from there, the first
made by the opening. -/
theorem stepCall_returns (a : StepArgs) {s : State} (hcall : s.call = none) :
    ∃ t, stepCall a s = .next t ∧ Returned a.maxInstructions.toNat (s.counter + a.elapsed.zeroExtend 64) t ∧
      (s.params.legal = true → continueCall (openCall a s) = .next t ∨
        ∃ k, k < a.maxInstructions.toNat ∧ continueCall (openCall a s) = step (openCall a s) ∧
          stepsTo (k + 1) (openCall a s) = some t) := by
  have hframe := openedState_frame s a
  have hcounter : (openedState s a).counter = s.counter + a.elapsed.zeroExtend 64 := by rw [hframe]
  have hidle : (openedState s a).call = none := by rw [hframe]; exact hcall
  have hparams : (openedState s a).params = s.params := by rw [hframe]
  unfold stepCall
  cases hwait : (openedState s a).wfi with
  | true =>
    rw [openCall_of_waiting hwait]
    refine ⟨_, runCall_of_ended _ rfl, ⟨rfl, by simp, a.maxInstructions.toNat, le_rfl, ?_, fun _ => rfl⟩, fun _ => .inl rfl⟩
    simp [hcounter]
  | false =>
    rw [openCall_of_awake hwait]
    by_cases hb : a.maxInstructions = 0#32
    · rw [hb]
      exact ⟨_, rfl, ⟨rfl, by simp, 0, le_rfl, by simp [hcounter], fun _ => rfl⟩, fun _ => .inl rfl⟩
    · obtain ⟨t, hrun, hret, hsteps⟩ := runCall_returns (s := { openedState s a with call := some a.maxInstructions })
        rfl hb (Nat.le_succ _)
      refine ⟨t, hrun, hcounter ▸ hret, fun hl => .inr ?_⟩
      have hlegal : (openedState s a).params.legal = true := hparams ▸ hl
      obtain ⟨k, hk, hkt⟩ := hsteps hlegal
      exact ⟨k, hk, continueCall_of_inFlight hlegal rfl, hkt⟩

/-- Settles O55: the amounts of the turns of a call, added up. -/
theorem stepCallCounterTotal : Obligations.StepCallCounterTotal := by
  intro s a hcall
  obtain ⟨t, hrun, ⟨hended, hanswered, n, hn, hcounter, hall⟩, -⟩ := stepCall_returns a hcall
  exact ⟨t, n, hrun, hended, hn, hcounter, hall, hanswered⟩

/-- Settles O54: the opening step makes the call's first turn, and each later turn is a step of its own. -/
theorem stepCallIsIteratedSteps : Obligations.StepCallIsIteratedSteps := by
  intro s a rest hs hnext
  have hopen : step s = continueCall (openCall a { s with hostQueue := rest }) := step_of_nextCall hs.legal hnext
  obtain ⟨t, hrun, hret, hsteps⟩ := stepCall_returns a (s := { s with hostQueue := rest }) hnext.1
  rcases hsteps hs.legal with hone | ⟨k, hk, hfirst, hkt⟩
  · refine ⟨1, t, le_rfl, le_max_left _ _, ?_, hrun, hret.ended, hret.answered⟩
    rw [stepsTo, hopen, hone]
    rfl
  · refine ⟨k + 1, t, by omega, by omega, ?_, hrun, hret.ended, hret.answered⟩
    rw [stepsTo, hopen, hfirst, ← hkt, stepsTo]

end Sys2Proof.Machine

namespace Sys2Proof.Machine

/-! ## What a CSR instruction does to the state, read and write together (10_state.md R44, R45) -/

theorem csr_cases (n : CsrNum) (v : Word) (s : State) :
    ∃ mstatus mie mtvec mscratch mepc mcause mtval mip es q,
      csrWrite n v (csrRead n s).2 =
          { s with consoleIn := q }.withCsrs mstatus mie mtvec mscratch mepc mcause mtval mip es ∧
        CsrChange n s mstatus mie mtvec mscratch mepc mcause mtval mip es ∧
        (q = s.consoleIn ∨ n = 0x140#12 ∧ ∃ b, s.consoleIn = b :: q) := by
  obtain ⟨mstatus, mie, mtvec, mscratch, mepc, mcause, mtval, mip, es, hw, hc⟩ := csrWrite_state n v (csrRead n s).2
  refine ⟨mstatus, mie, mtvec, mscratch, mepc, mcause, mtval, mip, es, (csrRead n s).2.consoleIn, ?_⟩
  rw [hw]
  rcases csrRead_state n s with hr | ⟨hn, b, bs, hq, hr⟩
  · rw [hr] at hc ⊢
    exact ⟨rfl, hc, .inl rfl⟩
  · rw [hr] at hc ⊢
    exact ⟨rfl, ⟨hc.mstatusBy, hc.mieBy, hc.mtvecBy, hc.mscratchBy, hc.mepcBy, hc.mcauseBy, hc.mtvalBy, hc.mipBy,
      hc.pendingKept, hc.outBy⟩, .inr ⟨hn, b, hq⟩⟩

/-! ## General registers -/

/-- An instruction writes no register, or its destination, and then it completes. -/
theorem registers_of_effect {i : Instr} {s t : State} (he : Effect i s t) :
    (∀ r, t.x r = s.x r) ∨ ∃ rd v, destination i = some rd ∧ RegWritten s t rd v ∧ t.result = s.result := by
  cases he with
  | trap e tval => exact .inl fun _ => rfl
  | write rd v npc hd => exact .inr ⟨rd, v, hd, fun r => x_setX s rd r v, setX_result s rd v⟩
  | goto npc => exact .inl fun _ => rfl
  | load rd a v q hd => exact .inr ⟨rd, v, hd, fun r => x_retire _ rd r v, retire_result _ rd v⟩
  | store w a v u ha hu =>
    rcases hu with rfl | ⟨-, tc, rfl⟩ | ⟨-, b, rfl⟩ | ⟨-, rfl⟩ <;> exact .inl fun _ => rfl
  | syscon r hr => exact .inl fun _ => rfl
  | loadReserved aq rl rd rs1 v hi =>
    exact .inr ⟨rd, v, hi ▸ rfl, fun r => x_retire s rd r v, retire_result s rd v⟩
  | scStored aq rl rd rs1 rs2 v hi =>
    exact .inr ⟨rd, 0#32, hi ▸ rfl, fun r => x_retire _ rd r _, retire_result _ rd _⟩
  | scFailed aq rl rd rs1 rs2 hi => exact .inr ⟨rd, 1#32, hi ▸ rfl, fun r => x_retire s rd r _, retire_result s rd _⟩
  | amo rd a new old hd => exact .inr ⟨rd, old, hd, fun r => x_retire _ rd r old, retire_result _ rd old⟩
  | csr rd n v hd hn =>
    obtain ⟨_, _, _, _, _, _, _, _, es, q, hw, -⟩ := csr_cases n v s
    rw [hw]
    exact .inr ⟨rd, _, hd, fun r => x_retire _ rd r _, retire_result _ rd _⟩
  | mret hi => exact .inl fun _ => rfl
  | wfi hi => exact .inl fun _ => rfl

theorem settle_x (s : State) (r : Reg) : (settle s).x r = s.x r := by
  unfold settle
  split <;> rfl

/-- Settles O47: the step executed an instruction, whose effect writes its destination and completes. -/
theorem onlyTheDestinationRegisterIsWritten : Obligations.OnlyTheDestinationRegisterIsWritten := by
  intro s t b r hs hcall hstep hne
  rcases step_inFlight_cases hs hcall hstep with rfl | ⟨u, hexec, rfl⟩
  · rw [sampleTimer_frame] at hne
    exact absurd rfl hne
  · rw [settle_x] at hne
    rcases executeOne_cases (slotState s b) with ⟨e, h⟩ | h | ⟨i, hdecode, h⟩
    · cases hexec.symm.trans h
      exact absurd rfl hne
    · cases hexec.symm.trans h
      exact absurd rfl hne
    · have he : Effect i (slotState s b) u := effect_of_exec (h.symm.trans hexec)
      rcases registers_of_effect he with hsame | ⟨rd, v, hd, hwritten, hres⟩
      · exact absurd (hsame r) hne
      · have hrd : r = rd ∧ rd ≠ 0 := by
          by_contra hno
          exact hne ((hwritten r).trans (if_neg hno))
        obtain ⟨rfl, hzero⟩ := hrd
        refine ⟨i, hdecode, hd, hzero, fun htrap => ?_⟩
        rw [settle_eq_self_of_trap htrap, hres] at htrap
        have hpending : (slotState s b).result = none := hs.noResult (by simp [hcall])
        simp [hpending] at htrap

/-! ## Memory -/

theorem storedRange_of_store {i : Instr} {s : State} {p : Word × Nat} (h : storeAddress i s = some p) :
    storedRange i s = some p := by
  cases i <;> simp_all [storedRange, storeAddress, atomicStoreAddress]

theorem storedRange_of_atomic {i : Instr} {s : State} {a : Word} (h : atomicStoreAddress i s = some a) :
    storedRange i s = some (a, 4) := by
  simp [storedRange, h]

/-- An instruction leaves memory alone, or writes its range, and then it completes. -/
theorem memory_of_effect {i : Instr} {s t : State} (he : Effect i s t) :
    t.mem = s.mem ∨ ∃ a w v, storedRange i s = some (a, Width.bytes w) ∧ t.mem = s.mem.writeLE a.toNat v w ∧
      t.result = s.result := by
  cases he with
  | trap e tval => exact .inl rfl
  | write rd v npc hd => exact .inl (setX_mem s rd v)
  | goto npc => exact .inl rfl
  | load rd a v q hd => exact .inl (retire_mem _ rd v)
  | store w a v u ha hu =>
    rcases hu with rfl | ⟨-, tc, rfl⟩ | ⟨-, b, rfl⟩ | ⟨-, rfl⟩
    · exact .inl rfl
    · exact .inl rfl
    · exact .inl rfl
    · exact .inr ⟨a, w, v, storedRange_of_store ha, rfl, rfl⟩
  | syscon r hr => exact .inl rfl
  | loadReserved aq rl rd rs1 v hi => exact .inl (retire_mem s rd v)
  | scStored aq rl rd rs1 rs2 v hi =>
    exact .inr ⟨s.x rs1, .word, v, storedRange_of_atomic (hi ▸ rfl), retire_mem _ rd _, retire_result _ rd _⟩
  | scFailed aq rl rd rs1 rs2 hi => exact .inl (retire_mem s rd _)
  | amo rd a new old hd ha =>
    exact .inr ⟨a, .word, new, storedRange_of_atomic ha, retire_mem _ rd _, retire_result _ rd _⟩
  | csr rd n v hd hn =>
    obtain ⟨_, _, _, _, _, _, _, _, es, q, hw, -⟩ := csr_cases n v s
    rw [hw]
    exact .inl (retire_mem _ rd _)
  | mret hi => exact .inl rfl
  | wfi hi => exact .inl rfl

/-- Settles O48: a write leaves every byte outside its range, and an instruction that writes does not trap. -/
theorem onlyStoredBytesChange : Obligations.OnlyStoredBytesChange := by
  intro i s t hwf hpending hexec
  rcases memory_of_effect (effect_of_exec hexec) with hmem | ⟨a, w, v, hrange, hmem, hres⟩
  · exact ⟨fun b _ => by rw [hmem], fun _ => hmem⟩
  · refine ⟨fun b hout => ?_, fun htrap => ?_⟩
    · rw [hmem]
      exact Memory.read_writeLE_of_outside hwf _ _ _ (hout a w.bytes hrange)
    · simp [hres, hpending] at htrap

/-! ## Special registers, the reservation, the console -/

/-- Settles O49: effect by effect; what a CSR instruction changes, it changes by its own number. -/
theorem specialRegistersHaveTheseWriters : Obligations.SpecialRegistersHaveTheseWriters := by
  intro i s t hpending hexec
  cases effect_of_exec hexec with
  | trap e tval => simp
  | write rd v npc hd => simp
  | goto npc => simp
  | load rd a v q hd => simp
  | store w a v u ha hu =>
    rcases hu with rfl | ⟨htc, tc, rfl⟩ | ⟨-, b, rfl⟩ | ⟨-, rfl⟩
    · simp
    · simpa using fun _ => ⟨a, ⟨w.bytes, ha⟩, htc⟩
    · simp
    · simp
  | syscon r hr => simp
  | loadReserved aq rl rd rs1 v hi => simp
  | scStored aq rl rd rs1 rs2 v hi => simp
  | scFailed aq rl rd rs1 rs2 hi => simp
  | amo rd a new old hd => simp
  | csr rd n v hd hn =>
    obtain ⟨_, _, _, _, _, _, _, _, es, q, hw, hc, -⟩ := csr_cases n v s
    rw [hw]
    simpa [State.withCsrs, hn, hpending] using
      ⟨hc.mieBy, hc.mtvecBy, hc.mscratchBy, hc.mepcBy, hc.mcauseBy, hc.mtvalBy, fun h => .inl (hc.mstatusBy h), hc.mipBy,
        hc.pendingKept⟩
  | mret hi => simp [hi]
  | wfi hi => simp [hi]

/-- An instruction keeps the reservation and the pending result's absence of a trap, or raises and drops it, or is LR.W,
or is SC.W and drops it. -/
theorem reservation_of_effect {i : Instr} {s t : State} (he : Effect i s t) (hpending : s.result = none) :
    (t.resvValid = s.resvValid ∧ t.resvAddr = s.resvAddr ∧ t.result ≠ some .trap) ∨
      (t.resvValid = false ∧ t.result = some .trap) ∨
      ((∃ aq rl rd rs1, i = .lrW aq rl rd rs1) ∧ t.result ≠ some .trap) ∨
      ((∃ aq rl rd rs1 rs2, i = .scW aq rl rd rs1 rs2) ∧ t.resvValid = false) := by
  cases he with
  | trap e tval => exact .inr (.inl ⟨rfl, rfl⟩)
  | write rd v npc hd => exact .inl (by simp [hpending])
  | goto npc => exact .inl (by simp [hpending])
  | load rd a v q hd => exact .inl (by simp [hpending])
  | store w a v u ha hu =>
    rcases hu with rfl | ⟨htc, tc, rfl⟩ | ⟨-, b, rfl⟩ | ⟨-, rfl⟩ <;> exact .inl (by simp [hpending])
  | syscon r hr => exact .inl (by rcases hr with rfl | rfl <;> simp)
  | loadReserved aq rl rd rs1 v hi => exact .inr (.inr (.inl ⟨⟨aq, rl, rd, rs1, hi⟩, by simp [hpending]⟩))
  | scStored aq rl rd rs1 rs2 v hi => exact .inr (.inr (.inr ⟨⟨aq, rl, rd, rs1, rs2, hi⟩, rfl⟩))
  | scFailed aq rl rd rs1 rs2 hi => exact .inr (.inr (.inr ⟨⟨aq, rl, rd, rs1, rs2, hi⟩, rfl⟩))
  | amo rd a new old hd => exact .inl (by simp [hpending])
  | csr rd n v hd hn =>
    obtain ⟨_, _, _, _, _, _, _, _, es, q, hw, -⟩ := csr_cases n v s
    rw [hw]
    exact .inl (by simp [State.withCsrs, hpending])
  | mret hi => exact .inl (by simp [hpending])
  | wfi hi => exact .inl (by simp)

/-- SC.W gives the reservation up, whether it stores, does not store, or raises (44_atomics.md R262). -/
theorem resvValid_of_scW {aq rl : Bool} {rd rs1 rs2 : Reg} {s t : State}
    (hexec : exec (.scW aq rl rd rs1 rs2) s = .next t) : t.resvValid = false := by
  simp only [exec, execScW] at hexec
  split at hexec
  · cases hexec; rfl
  · split at hexec
    · cases hexec; rfl
    · cases hexec; rfl

/-- Settles O50: the reservation is written by LR.W, SC.W and trap entry alone. -/
theorem theReservationHasTheseWriters : Obligations.TheReservationHasTheseWriters := by
  intro i s t hpending hexec
  have hsc : ∀ aq rl rd rs1 rs2, i = .scW aq rl rd rs1 rs2 → t.resvValid = false :=
    fun _ _ _ _ _ hi => resvValid_of_scW (hi ▸ hexec)
  rcases reservation_of_effect (effect_of_exec hexec) hpending with
    ⟨hvalid, haddr, hres⟩ | ⟨hvalid, hres⟩ | ⟨hlr, hres⟩ | ⟨⟨aq, rl, rd, rs1, rs2, hi⟩, hvalid⟩
  · exact ⟨fun _ _ _ => ⟨hvalid, haddr⟩, fun h => absurd h hres, hsc, fun ht hs => by simp [hvalid, hs] at ht⟩
  · exact ⟨fun _ _ h => absurd hres h, fun _ => hvalid, hsc, fun ht => by simp [hvalid] at ht⟩
  · obtain ⟨aq, rl, rd, rs1, hi⟩ := hlr
    exact ⟨fun h => absurd hi (h aq rl rd rs1), fun h => absurd h hres, hsc, fun _ _ => ⟨aq, rl, rd, rs1, hi⟩⟩
  · exact ⟨fun _ h => absurd hi (h aq rl rd rs1 rs2), fun _ => hvalid, hsc, fun ht => by simp [hvalid] at ht⟩

/-- Settles O51: effect by effect; a store to the UART data register and a CSR write emit, a load from it and a CSR read
consume. -/
theorem theConsoleHasTheseReadersAndWriters : Obligations.TheConsoleHasTheseReadersAndWriters := by
  intro i s t hexec
  cases effect_of_exec hexec with
  | trap e tval => exact ⟨⟨[], by simp⟩, .inl rfl⟩
  | write rd v npc hd => exact ⟨⟨[], by simp⟩, .inl (setX_consoleIn s rd v)⟩
  | goto npc => exact ⟨⟨[], by simp⟩, .inl rfl⟩
  | load rd a v q hd ha hq =>
    refine ⟨⟨[], by simp⟩, ?_⟩
    rw [retire_consoleIn]
    exact hq.imp id fun ⟨hdata, b, hb⟩ => ⟨b, hb, .inl (ha.trans (congrArg some hdata))⟩
  | store w a v u ha hu =>
    rcases hu with rfl | ⟨-, tc, rfl⟩ | ⟨hdata, b, rfl⟩ | ⟨-, rfl⟩
    · exact ⟨⟨[], by simp⟩, .inl rfl⟩
    · exact ⟨⟨[], by simp⟩, .inl rfl⟩
    · exact ⟨⟨[.outByte b], rfl, fun _ => .inl ⟨w.bytes, ha.trans (congrArg (fun x => some (x, w.bytes)) hdata)⟩⟩, .inl rfl⟩
    · exact ⟨⟨[], by simp⟩, .inl rfl⟩
  | syscon r hr => exact ⟨⟨[], by simp⟩, .inl rfl⟩
  | loadReserved aq rl rd rs1 v hi => exact ⟨⟨[], by simp⟩, .inl (retire_consoleIn s rd v)⟩
  | scStored aq rl rd rs1 rs2 v hi => exact ⟨⟨[], by simp⟩, .inl (retire_consoleIn _ rd _)⟩
  | scFailed aq rl rd rs1 rs2 hi => exact ⟨⟨[], by simp⟩, .inl (retire_consoleIn s rd _)⟩
  | amo rd a new old hd => exact ⟨⟨[], by simp⟩, .inl (retire_consoleIn _ rd _)⟩
  | csr rd n v hd hn =>
    obtain ⟨_, _, _, _, _, _, _, _, es, q, hw, hc, hq⟩ := csr_cases n v s
    rw [hw, retire_consoleOut, retire_consoleIn]
    exact ⟨⟨es, rfl, fun hes => .inr ⟨n, hc.outBy hes, hn⟩⟩,
      hq.imp id fun ⟨hin, b, hb⟩ => ⟨b, hb, .inr (hn.trans (congrArg some hin))⟩⟩
  | mret hi => exact ⟨⟨[], by simp⟩, .inl rfl⟩
  | wfi hi => exact ⟨⟨[], by simp⟩, .inl rfl⟩

end Sys2Proof.Machine

namespace Sys2Proof.Machine

open Host (Outcome)

/-! ## The stored word of `x0` (10_state.md R21)

Every operation an instruction is made of does the same whatever word is stored for `x0`, and keeps that word. -/

/-- `s` with `v` stored for `x0`. -/
def State.withZero (s : State) (v : Word) : State := { s with regs := s.regs.set 0 v }

/-- The value does not depend on the word stored for `x0`. -/
def ReadsNoZero {α : Type} (f : State → α) : Prop := ∀ s v, f (s.withZero v) = f s

/-- The operation does the same whatever is stored for `x0`, and keeps it. -/
def IgnoresZero (f : State → State) : Prop := ∀ s v, f (s.withZero v) = (f s).withZero v

@[simp] theorem x_withZero (s : State) (v : Word) (r : Reg) : (s.withZero v).x r = s.x r := by
  by_cases hr : r = 0
  · simp [State.x, hr]
  · have hne : (0 : Nat) ≠ r := fun h => hr (Fin.ext h.symm)
    simp [State.x, hr, State.withZero, hne]

theorem setX_withZero (s : State) (v : Word) (r : Reg) (y : Word) :
    (s.withZero v).setX r y = (s.setX r y).withZero v := by
  by_cases hr : r = 0
  · simp [State.setX, hr]
  · have hne : (r : Nat) ≠ 0 := fun h => hr (Fin.ext h)
    simp only [State.setX, hr, if_false, State.withZero]
    rw [Vector.set_comm _ _ hne.symm]

theorem retire_withZero (s : State) (v : Word) (rd : Reg) (y : Word) :
    (s.withZero v).retire rd y = (s.retire rd y).withZero v :=
  congrArg State.nextPc (setX_withZero s v rd y)

theorem ignoresZero_retire {f : State → Word} (hf : ReadsNoZero f) (rd : Reg) :
    IgnoresZero fun s => s.retire rd (f s) := by
  intro s v
  simp only [hf s v, retire_withZero]

theorem ignoresZero_jump {link target : State → Word} (hl : ReadsNoZero link) (ht : ReadsNoZero target) (rd : Reg) :
    IgnoresZero fun s => { s.setX rd (link s) with pc := target s } := by
  intro s v
  simp only [hl s v, ht s v, setX_withZero]
  rfl

theorem ignoresZero_branch {taken : State → Bool} (hf : ReadsNoZero taken) (off : BitVec 13) :
    IgnoresZero fun s => branch (taken s) off s := by
  intro s v
  simp only [hf s v, branch]
  split <;> rfl

theorem controlLoad_withZero (a : Word) (s : State) (v : Word) :
    controlLoad a (s.withZero v) = (controlLoad a s).map fun p => (p.1, p.2.withZero v) := by
  unfold controlLoad
  split
  · rfl
  · split
    · cases hq : s.consoleIn <;> simp [inputByte, State.withZero, hq]
    · rfl

@[simp] theorem withZero_params (s : State) (v : Word) : (s.withZero v).params = s.params := rfl

@[simp] theorem inRam_withZero (s : State) (v a : Word) (w : Width) : (s.withZero v).inRam a w = s.inRam a w := rfl

@[simp] theorem coreLoad_withZero (a : Word) (s : State) (v : Word) : coreLoad a (s.withZero v) = coreLoad a s := rfl

@[simp] theorem memRead_withZero (s : State) (v a : Word) (w : Width) :
    (s.withZero v).memRead a w = s.memRead a w := rfl

theorem ignoresZero_load {a : State → Word} (ha : ReadsNoZero a) (w : Width) (ext : Word → Word) (rd : Reg) :
    IgnoresZero fun s => loadInto w ext rd (a s) s := by
  intro s v
  simp only [ha s v, loadInto, load, coreLoad_withZero, controlLoad_withZero, inRam_withZero, memRead_withZero]
  cases coreLoad (a s) s with
  | some y => exact retire_withZero s v rd y
  | none =>
    cases controlLoad (a s) s with
    | some p => exact retire_withZero p.2 v rd p.1
    | none =>
      cases w.aligned (a s) with
      | false => rfl
      | true =>
        cases s.inRam (a s) w with
        | false => rfl
        | true => exact retire_withZero s v rd _

/-- The state a store's outcome carries, with `v` stored for `x0`. -/
def StoreOutcome.withZero (v : Word) : StoreOutcome → StoreOutcome
  | .done t => .done (t.withZero v)
  | .halt r t => .halt r (t.withZero v)
  | .raised e => .raised e

theorem coreStore_withZero (a x : Word) (s : State) (v : Word) :
    coreStore a x (s.withZero v) = (coreStore a x s).map (StoreOutcome.withZero v) := by
  simp only [coreStore, apply_ite (Option.map (StoreOutcome.withZero v))]
  rfl

theorem controlStore_withZero (a x : Word) (s : State) (v : Word) :
    controlStore a x (s.withZero v) = (controlStore a x s).map (·.withZero v) := by
  unfold controlStore
  split <;> rfl

theorem store_withZero (w : Width) (a x : Word) (s : State) (v : Word) :
    store w a x (s.withZero v) = (store w a x s).withZero v := by
  simp only [store, coreStore_withZero, controlStore_withZero, inRam_withZero]
  cases coreStore a x s with
  | some o => rfl
  | none =>
    cases controlStore a x s with
    | some t => rfl
    | none =>
      simp only [Option.map_none, apply_ite (StoreOutcome.withZero v)]
      rfl

theorem ignoresZero_store {a x : State → Word} (ha : ReadsNoZero a) (hx : ReadsNoZero x) (w : Width) :
    IgnoresZero fun s => storeFrom w (a s) (x s) s := by
  intro s v
  simp only [ha s v, hx s v, storeFrom, store_withZero]
  cases store w (a s) (x s) s <;> rfl

theorem atomicCheck_withZero (k : AtomicKind) (a : Word) (s : State) (v : Word) :
    atomicCheck k a (s.withZero v) = atomicCheck k a s := rfl

theorem ignoresZero_amo (f : Word → Word → Word) (rd rs1 rs2 : Reg) : IgnoresZero (amo f rd rs1 rs2) := by
  intro s v
  simp only [amo, x_withZero, atomicCheck_withZero, memRead_withZero]
  cases atomicCheck .store (s.x rs1) s with
  | some e => rfl
  | none => exact retire_withZero (s.memWrite _ _ .word) v rd _

theorem csrRead_withZero (n : CsrNum) (s : State) (v : Word) :
    csrRead n (s.withZero v) = ((csrRead n s).1, (csrRead n s).2.withZero v) := by
  have custom : customCsrRead n (s.withZero v) = ((customCsrRead n s).1, (customCsrRead n s).2.withZero v) := by
    unfold customCsrRead
    split
    · cases hq : s.consoleIn <;> simp [inputByte, State.withZero, hq]
    · rfl
  unfold csrRead
  split
  case h_13 => exact custom
  all_goals rfl

theorem csrWrite_withZero (n : CsrNum) (y : Word) (s : State) (v : Word) :
    csrWrite n y (s.withZero v) = (csrWrite n y s).withZero v := by
  have custom : customCsrWrite n y (s.withZero v) = (customCsrWrite n y s).withZero v := by
    unfold customCsrWrite
    split
    case h_3 =>
      simp only [printStr, apply_ite (State.withZero · v)]
      rfl
    all_goals rfl
  unfold csrWrite
  split
  case h_13 => exact custom
  all_goals rfl

theorem ignoresZero_csr {src : State → Word} (hsrc : ReadsNoZero src) (op : Word → Word → Word) (rd : Reg) (n : CsrNum) :
    IgnoresZero fun s => csrAccess op rd n (src s) s := by
  intro s v
  simp only [hsrc s v, csrAccess, csrRead_withZero, csrWrite_withZero]
  exact retire_withZero _ v rd _

/-! ## Instructions -/

/-- What `StoredWordOfX0IsNeverRead` says of an instruction. -/
def NeverReadsZero (i : Instr) : Prop :=
  ∀ (s : State) (v : Word), ∃ t, exec i s = .next t ∧ exec i (s.withZero v) = .next (t.withZero v)

theorem neverReadsZero_of {i : Instr} {f : State → State} (hi : ∀ s, exec i s = .next (f s)) (hf : IgnoresZero f) :
    NeverReadsZero i :=
  fun s v => ⟨f s, hi s, (hi _).trans (congrArg Outcome.next (hf s v))⟩

theorem readsNoZero_effAddr (rs1 : Reg) (imm : BitVec 12) : ReadsNoZero fun s => effAddr s rs1 imm :=
  fun s v => by simp only [effAddr, x_withZero]

theorem readsNoZero_x (r : Reg) : ReadsNoZero fun s => s.x r := fun s v => x_withZero s v r

theorem neverReadsZero_lrW (aq rl : Bool) (rd rs1 : Reg) : NeverReadsZero (.lrW aq rl rd rs1) := by
  intro s v
  simp only [exec, execLrW, x_withZero, atomicCheck_withZero, memRead_withZero]
  cases atomicCheck .load (s.x rs1) s with
  | some e => exact ⟨_, rfl, rfl⟩
  | none => exact ⟨_, rfl, by simp only [retire_withZero]; rfl⟩

theorem neverReadsZero_scW (aq rl : Bool) (rd rs1 rs2 : Reg) : NeverReadsZero (.scW aq rl rd rs1 rs2) := by
  intro s v
  simp only [exec, execScW, x_withZero, atomicCheck_withZero]
  cases atomicCheck .store (s.x rs1) s with
  | some e => exact ⟨_, rfl, rfl⟩
  | none =>
    by_cases hheld : s.resvValid = true ∧ s.resvAddr = s.x rs1
    · have hheld' : (s.withZero v).resvValid = true ∧ (s.withZero v).resvAddr = s.x rs1 := hheld
      simp only [if_pos hheld, if_pos hheld']
      exact ⟨_, rfl, congrArg (fun t : State => Outcome.next { t with resvValid := false })
        (retire_withZero (s.memWrite _ _ .word) v rd _)⟩
    · have hheld' : ¬ ((s.withZero v).resvValid = true ∧ (s.withZero v).resvAddr = s.x rs1) := hheld
      simp only [if_neg hheld, if_neg hheld']
      exact ⟨_, rfl, by simp only [retire_withZero]; rfl⟩

theorem neverReadsZero (i : Instr) : NeverReadsZero i := by
  cases i with
  | lui rd imm => exact neverReadsZero_of (fun _ => rfl) (ignoresZero_retire (fun _ _ => rfl) rd)
  | auipc rd imm => exact neverReadsZero_of (fun _ => rfl) (ignoresZero_retire (fun _ _ => rfl) rd)
  | jal rd off => exact neverReadsZero_of (fun _ => rfl) (ignoresZero_jump (fun _ _ => rfl) (fun _ _ => rfl) rd)
  | jalr rd rs1 imm =>
    exact neverReadsZero_of (fun _ => rfl) (ignoresZero_jump (fun _ _ => rfl)
      (fun s v => congrArg (· &&& 0xFFFFFFFE#32) (readsNoZero_effAddr rs1 imm s v)) rd)
  | beq rs1 rs2 off | bne rs1 rs2 off | blt rs1 rs2 off | bge rs1 rs2 off | bltu rs1 rs2 off | bgeu rs1 rs2 off =>
    exact neverReadsZero_of (fun _ => rfl) (ignoresZero_branch (fun _ _ => by simp only [x_withZero]) off)
  | lb rd rs1 imm | lh rd rs1 imm | lw rd rs1 imm | lbu rd rs1 imm | lhu rd rs1 imm =>
    exact neverReadsZero_of (fun _ => rfl) (ignoresZero_load (readsNoZero_effAddr rs1 imm) _ _ rd)
  | sb rs1 rs2 imm | sh rs1 rs2 imm | sw rs1 rs2 imm =>
    exact neverReadsZero_of (fun _ => rfl) (ignoresZero_store (readsNoZero_effAddr rs1 imm) (readsNoZero_x rs2) _)
  | addi rd rs1 _ | slti rd rs1 _ | sltiu rd rs1 _ | xori rd rs1 _ | ori rd rs1 _ | andi rd rs1 _ | slli rd rs1 _
  | srli rd rs1 _ | srai rd rs1 _ =>
    exact neverReadsZero_of (fun _ => rfl) (ignoresZero_retire (fun _ _ => by simp only [x_withZero]) rd)
  | add rd rs1 rs2 | sub rd rs1 rs2 | sll rd rs1 rs2 | slt rd rs1 rs2 | sltu rd rs1 rs2 | xor rd rs1 rs2
  | srl rd rs1 rs2 | sra rd rs1 rs2 | or rd rs1 rs2 | and rd rs1 rs2 | mul rd rs1 rs2 | mulh rd rs1 rs2
  | mulhsu rd rs1 rs2 | mulhu rd rs1 rs2 | div rd rs1 rs2 | divu rd rs1 rs2 | rem rd rs1 rs2 | remu rd rs1 rs2 =>
    exact neverReadsZero_of (fun _ => rfl) (ignoresZero_retire (fun _ _ => by simp only [x_withZero]) rd)
  | fence _ _ _ _ _ | fenceI _ _ _ | ecall | ebreak | mret | wfi =>
    exact neverReadsZero_of (fun _ => rfl) fun _ _ => rfl
  | lrW aq rl rd rs1 => exact neverReadsZero_lrW aq rl rd rs1
  | scW aq rl rd rs1 rs2 => exact neverReadsZero_scW aq rl rd rs1 rs2
  | amoswapW _ _ rd rs1 rs2 | amoaddW _ _ rd rs1 rs2 | amoxorW _ _ rd rs1 rs2 | amoandW _ _ rd rs1 rs2
  | amoorW _ _ rd rs1 rs2 | amominW _ _ rd rs1 rs2 | amomaxW _ _ rd rs1 rs2 | amominuW _ _ rd rs1 rs2
  | amomaxuW _ _ rd rs1 rs2 => exact neverReadsZero_of (fun _ => rfl) (ignoresZero_amo _ rd rs1 rs2)
  | csrrw rd rs1 n | csrrs rd rs1 n | csrrc rd rs1 n =>
    exact neverReadsZero_of (fun _ => rfl) (ignoresZero_csr (readsNoZero_x rs1) _ rd n)
  | csrrwi rd _ n | csrrsi rd _ n | csrrci rd _ n =>
    exact neverReadsZero_of (fun _ => rfl) (ignoresZero_csr (fun _ _ => rfl) _ rd n)

/-- Settles O53: each instruction is made of operations that ignore the word stored for `x0`. -/
theorem storedWordOfX0IsNeverRead : Obligations.StoredWordOfX0IsNeverRead := neverReadsZero

end Sys2Proof.Machine

namespace Sys2Proof.Machine

open Host (Outcome)

/-! ## RAM, read at every width after a word write (20_memory.md R72, R74) -/

/-- An access in RAM does not wrap. -/
theorem toNat_add_le_of_inRamRange {s : State} {a : Word} {n : Nat} (hl : s.params.legal = true)
    (hr : InRamRange s a n) : a.toNat + n ≤ 2 ^ 32 := by
  have hend := (legal_facts hl).1
  obtain ⟨hbase, hsize⟩ := hr
  omega

theorem byteOf_append_byteOf (v : Word) (k : Nat) : byteOf v (k + 1) ++ byteOf v k = v.extractLsb' (8 * k) 16 := by
  unfold byteOf
  rw [Nat.mul_add, BitVec.extractLsb'_append_extractLsb'_eq_extractLsb' rfl]

/-- Settles O7: each byte read is a byte written, and halves and words are bytes appended. -/
theorem ramReadsAreLittleEndian : Obligations.RamReadsAreLittleEndian := by
  intro s a v hl hwf hr t
  have hnowrap := toNat_add_le_of_inRamRange hl hr
  have hbyte (k : Nat) (hk : k < 4) : t.mem.read (a.toNat + k) = byteOf v k := Memory.read_writeLE hwf a.toNat v .word hk
  have h0 : t.mem.read a.toNat = byteOf v 0 := hbyte 0 (by omega)
  have ha1 : (a + 1).toNat = a.toNat + 1 := by bv_omega
  have ha2 : (a + 2).toNat = a.toNat + 2 := by bv_omega
  have ha3 : (a + 3).toNat = a.toNat + 3 := by bv_omega
  have h3 : t.mem.read (a.toNat + 2 + 1) = byteOf v 3 := hbyte 3 (by omega)
  refine ⟨Memory.readLE_writeLE_word hwf a.toNat v, ?_, ?_, ?_, ?_, ?_, ?_⟩ <;>
    simp only [State.memRead, Memory.readLE, ha1, ha2, ha3, h0, h3, hbyte 1 (by omega), hbyte 2 (by omega),
      byteOf_append_byteOf]
  all_goals rfl

/-! ## Loads (42_load_store.md R220, 20_memory.md R80) -/

theorem loadInto_ram {s : State} {a : Word} {w : Width} (hout : a ∉ s.params.window) (ha : a.toNat % w.bytes = 0)
    (hr : InRamRange s a w.bytes) (ext : Word → Word) (rd : Reg) :
    loadInto w ext rd a s = s.retire rd (ext (s.memRead a w)) := by
  simp [loadInto, load, coreLoad_eq_none hout, controlLoad_eq_none hout, (aligned_iff w a).2 ha,
    (inRam_iff_range s a w).2 hr]

theorem loadInto_misaligned {s : State} {a : Word} {w : Width} (hout : a ∉ s.params.window)
    (ha : a.toNat % w.bytes ≠ 0) (ext : Word → Word) (rd : Reg) :
    loadInto w ext rd a s = raise .loadAddrMisaligned a s := by
  have halign : w.aligned a = false := Bool.eq_false_iff.2 fun h => ha ((aligned_iff w a).1 h)
  simp [loadInto, load, coreLoad_eq_none hout, controlLoad_eq_none hout, halign]

theorem loadInto_outside {s : State} {a : Word} {w : Width} (hout : a ∉ s.params.window) (ha : a.toNat % w.bytes = 0)
    (hr : ¬ InRamRange s a w.bytes) (ext : Word → Word) (rd : Reg) :
    loadInto w ext rd a s = raise .loadAccessFault a s := by
  have hram : s.inRam a w = false := Bool.eq_false_iff.2 fun h => hr ((inRam_iff_range s a w).1 h)
  simp [loadInto, load, coreLoad_eq_none hout, controlLoad_eq_none hout, (aligned_iff w a).2 ha, hram]

theorem loadInto_of_coreLoad {s : State} {a v : Word} (h : coreLoad a s = some v) (w : Width) (ext : Word → Word)
    (rd : Reg) : loadInto w ext rd a s = s.retire rd v := by
  simp [loadInto, load, h]

theorem loadInto_of_controlLoad {s t : State} {a v : Word} (hcore : coreLoad a s = none)
    (h : controlLoad a s = some (v, t)) (w : Width) (ext : Word → Word) (rd : Reg) :
    loadInto w ext rd a s = t.retire rd v := by
  simp [loadInto, load, hcore, h]

/-- Settles O17: an address of RAM is not one of the window, so the load reads RAM. -/
theorem loadsFromRam : Obligations.LoadsFromRam := by
  intro s rd rs1 imm hl a
  have hbyte (b : Byte) : Width.byte.signExtend (b.zeroExtend 32) = b.signExtend 32 := by
    simp [Width.signExtend, Width.bits]
  have hhalf (h : BitVec 16) : Width.half.signExtend (h.zeroExtend 32) = h.signExtend 32 := by
    simp [Width.signExtend, Width.bits]
  have hubyte (b : Byte) : Width.byte.zeroExtend (b.zeroExtend 32) = b.zeroExtend 32 := by
    simp [Width.zeroExtend, Width.bits]
  have huhalf (h : BitVec 16) : Width.half.zeroExtend (h.zeroExtend 32) = h.zeroExtend 32 := by
    simp [Width.zeroExtend, Width.bits]
  have hram {i : Instr} {v : Word} (w : Width) {ext : Word → Word} (hv : ext (s.memRead a w) = v)
      (hi : exec i s = .next (loadInto w ext rd a s)) (hr : InRamRange s a w.bytes) (ha : a.toNat % w.bytes = 0) :
      RetiresWith i s rd v := by
    have hout : a ∉ s.params.window := not_mem_window hl (by cases w <;> decide) hr
    rw [loadInto_ram hout ha hr, hv] at hi
    exact retiresWith_of_exec hi
  exact ⟨fun hr => hram .byte (hbyte _) rfl hr (Nat.mod_one _), hram .half (hhalf _) rfl, hram .word rfl rfl,
    fun hr => hram .byte (hubyte _) rfl hr (Nat.mod_one _), hram .half (huhalf _) rfl⟩

theorem traps_of_raise {i : Instr} {s : State} {e : Exception} {tval : Word}
    (h : exec i s = .next (raise e tval s)) : Traps i s e.code tval :=
  ⟨_, h, trapTaken_raise s e tval⟩

/-- Settles O19: an address outside the window goes on to the tests of alignment and then of bounds. -/
theorem loadsOutsideRamAndWindowTrap : Obligations.LoadsOutsideRamAndWindowTrap := by
  intro s rd rs1 imm a hout
  have hmis {i : Instr} (w : Width) (ext : Word → Word) (hi : exec i s = .next (loadInto w ext rd a s))
      (ha : a.toNat % w.bytes ≠ 0) : Traps i s 4#32 a :=
    traps_of_raise (hi.trans (congrArg Outcome.next (loadInto_misaligned hout ha ext rd)))
  have hfault {i : Instr} (w : Width) (ext : Word → Word) (hi : exec i s = .next (loadInto w ext rd a s))
      (ha : a.toNat % w.bytes = 0) (hr : ¬ InRamRange s a w.bytes) : Traps i s 5#32 a :=
    traps_of_raise (hi.trans (congrArg Outcome.next (loadInto_outside hout ha hr ext rd)))
  exact ⟨fun ha => ⟨hmis .half _ rfl ha, hmis .half _ rfl ha⟩, hmis .word id rfl,
    fun hr => ⟨hfault .byte _ rfl (Nat.mod_one _) hr, hfault .byte _ rfl (Nat.mod_one _) hr⟩,
    fun ha hr => ⟨hfault .half _ rfl ha hr, hfault .half _ rfl ha hr⟩, hfault .word id rfl⟩

/-- The window's addresses are different, so each reads its own register (20_memory.md R83). -/
theorem coreLoad_window {s : State} (hl : s.params.legal = true) :
    coreLoad s.params.timerCmpLo s = some (s.timerCompare.extractLsb' 0 32) ∧
      coreLoad s.params.timerCmpHi s = some (s.timerCompare.extractLsb' 32 32) ∧
      coreLoad s.params.counterLo s = some (s.counter.extractLsb' 0 32) ∧
      coreLoad s.params.counterHi s = some (s.counter.extractLsb' 32 32) ∧ coreLoad s.params.syscon s = some 0#32 ∧
      coreLoad Config.uartLsr s = none ∧ coreLoad Config.uartData s = none := by
  have hdistinct := (legal_facts hl).2.1
  simp only [Params.window, List.nodup_cons, List.mem_cons, List.not_mem_nil, or_false, not_or] at hdistinct
  obtain ⟨⟨-, hd1, hd2, hd3, hd4, hd5⟩, ⟨hl1, hl2, hl3, hl4, hl5⟩, ⟨h12, h13, h14, h15⟩, ⟨h23, h24, h25⟩, ⟨h34, h35⟩,
    h45, -⟩ := hdistinct
  simp [coreLoad, cycleLow, cycleHigh, *, Ne.symm]

/-- Each of the five loads is the load path at its address, and retires or raises as that says. -/
theorem exec_load {i : Instr} {rd rs1 : Reg} {imm : BitVec 12} (hi : i ∈ loadsOf rd rs1 imm) :
    ∃ w ext, ∀ s, exec i s = .next (loadInto w ext rd (s.x rs1 + imm.signExtend 32) s) := by
  simp only [loadsOf, List.mem_cons, List.not_mem_nil, or_false] at hi
  rcases hi with rfl | rfl | rfl | rfl | rfl <;> exact ⟨_, _, fun _ => rfl⟩

/-- What an instruction that retires from `u`, with the registers and `pc` of `s`, does to `s`. -/
theorem completes_of_retire {i : Instr} {s u : State} {rd : Reg} {v : Word} (h : exec i s = .next (u.retire rd v))
    (hregs : u.regs = s.regs) (hpc : u.pc = s.pc) :
    ∃ t, exec i s = .next t ∧ RegWritten s t rd v ∧ t = { u with regs := t.regs, pc := s.pc + 4 } := by
  refine ⟨_, h, fun r => ?_, ?_⟩
  · rw [x_retire, x_congr s hregs]
  · rw [← hpc]
    exact retire_frame u rd v

/-- Settles O18: the core's registers answer first, the UART's then; reading the UART data register consumes a byte. -/
theorem loadsFromTheRegisterWindow : Obligations.LoadsFromTheRegisterWindow := by
  intro s rd rs1 imm hl i hi a
  obtain ⟨w, ext, hexec⟩ := exec_load hi
  have hi : exec i s = .next (loadInto w ext rd a s) := hexec s
  obtain ⟨hcmpLo, hcmpHi, hcntLo, hcntHi, hsyscon, hlsr, hdata⟩ := coreLoad_window hl
  have hcore {v : Word} (h : coreLoad a s = some v) : RetiresWith i s rd v :=
    retiresWith_of_exec (loadInto_of_coreLoad h w ext rd ▸ hi)
  have hcontrol {v : Word} {t : State} (h : coreLoad a s = none) (hc : controlLoad a s = some (v, t)) :
      exec i s = .next (t.retire rd v) := loadInto_of_controlLoad h hc w ext rd ▸ hi
  refine ⟨fun ha => hcore (ha ▸ hcmpLo), fun ha => hcore (ha ▸ hcmpHi), fun ha => hcore (ha ▸ hcntLo),
    fun ha => hcore (ha ▸ hcntHi), fun ha => hcore (ha ▸ hsyscon), fun ha => ?lineStatus, fun ha hq => ?empty,
    fun b bs ha hq => ?consumed⟩
  case lineStatus =>
    refine retiresWith_of_exec (hcontrol (ha ▸ hlsr) ?_)
    cases hq : s.consoleIn <;> simp [controlLoad, Config.uartLsr, ha, State.inputReady, truthWord, hq]
  case empty =>
    refine retiresWith_of_exec (hcontrol (ha ▸ hdata) ?_)
    simp [controlLoad, Config.uartLsr, Config.uartData, ha, inputByte, hq]
  case consumed =>
    have hin : controlLoad a s = some (b.zeroExtend 32, { s with consoleIn := bs }) := by
      simp [controlLoad, Config.uartLsr, Config.uartData, ha, inputByte, hq]
    obtain ⟨t, ht, hw, hframe⟩ := completes_of_retire (hcontrol (ha ▸ hdata) hin) rfl rfl
    exact ⟨t, ht, hw, by rw [hframe], by rw [hframe]⟩

end Sys2Proof.Machine

namespace Sys2Proof.Machine

open Host (Outcome)

/-! ## Stores (42_load_store.md R220, 20_memory.md R81) -/

/-- The window's addresses that answer a store: all but the UART line status. -/
theorem not_mem_storeWindow_iff {p : Params} {a : Word} :
    a ∉ p.window.erase 0x10000005#32 ↔ a ≠ 0x10000000#32 ∧ a ≠ p.timerCmpLo ∧ a ≠ p.timerCmpHi ∧
      a ≠ p.counterLo ∧ a ≠ p.counterHi ∧ a ≠ p.syscon := by
  have herase : p.window.erase 0x10000005#32 =
      [0x10000000#32, p.timerCmpLo, p.timerCmpHi, p.counterLo, p.counterHi, p.syscon] := rfl
  simp [herase]

theorem coreStore_eq_none {s : State} {a : Word} (h : a ∉ s.params.window.erase 0x10000005#32) (v : Word) :
    coreStore a v s = none := by
  simp [coreStore, not_mem_storeWindow_iff.1 h]

theorem controlStore_eq_none {s : State} {a : Word} (h : a ∉ s.params.window.erase 0x10000005#32) (v : Word) :
    controlStore a v s = none := by
  simp [controlStore, Config.uartData, not_mem_storeWindow_iff.1 h]

theorem storeFrom_ram {s : State} {a : Word} {w : Width} (hout : a ∉ s.params.window.erase 0x10000005#32)
    (ha : a.toNat % w.bytes = 0) (hr : InRamRange s a w.bytes) (v : Word) :
    storeFrom w a v s = (s.memWrite a v w).nextPc := by
  simp [storeFrom, store, coreStore_eq_none hout, controlStore_eq_none hout, (aligned_iff w a).2 ha,
    (inRam_iff_range s a w).2 hr]

theorem storeFrom_misaligned {s : State} {a : Word} {w : Width} (hout : a ∉ s.params.window.erase 0x10000005#32)
    (ha : a.toNat % w.bytes ≠ 0) (v : Word) : storeFrom w a v s = raise .storeAddrMisaligned a s := by
  have halign : w.aligned a = false := Bool.eq_false_iff.2 fun h => ha ((aligned_iff w a).1 h)
  simp [storeFrom, store, coreStore_eq_none hout, controlStore_eq_none hout, halign]

theorem storeFrom_outside {s : State} {a : Word} {w : Width} (hout : a ∉ s.params.window.erase 0x10000005#32)
    (ha : a.toNat % w.bytes = 0) (hr : ¬ InRamRange s a w.bytes) (v : Word) :
    storeFrom w a v s = raise .storeAccessFault a s := by
  have hram : s.inRam a w = false := Bool.eq_false_iff.2 fun h => hr ((inRam_iff_range s a w).1 h)
  simp [storeFrom, store, coreStore_eq_none hout, controlStore_eq_none hout, (aligned_iff w a).2 ha, hram]

/-- Each of the three stores is the store path at its address and width. -/
theorem exec_store {i : Instr} {rs1 rs2 : Reg} {imm : BitVec 12} (hi : i ∈ storesOf rs1 rs2 imm) :
    ∃ w : Width, ∀ s, exec i s = .next (storeFrom w (s.x rs1 + imm.signExtend 32) (s.x rs2) s) ∧
      storeAddress i s = some (s.x rs1 + imm.signExtend 32, w.bytes) := by
  simp only [storesOf, List.mem_cons, List.not_mem_nil, or_false] at hi
  rcases hi with rfl | rfl | rfl <;> exact ⟨_, fun _ => ⟨rfl, rfl⟩⟩

theorem exec_store_at {i : Instr} {s : State} {rs1 rs2 : Reg} {imm : BitVec 12} {a : Word} {n : Nat}
    (hi : i ∈ storesOf rs1 rs2 imm) (ha : storeAddress i s = some (a, n)) :
    ∃ w : Width, n = w.bytes ∧ exec i s = .next (storeFrom w a (s.x rs2) s) := by
  obtain ⟨w, hw⟩ := exec_store hi
  obtain ⟨hexec, haddr⟩ := hw s
  obtain ⟨rfl, rfl⟩ := Prod.mk.inj (Option.some.inj (ha.symm.trans haddr))
  exact ⟨w, rfl, hexec⟩

theorem Width.one_le_bytes (w : Width) : 1 ≤ w.bytes := by cases w <;> decide

/-- Settles O20: an address of RAM is not one of the window, so the store writes RAM. -/
theorem storesToRam : Obligations.StoresToRam := by
  intro s rs1 rs2 imm hl hwf i hi a n haddr ha hr
  obtain ⟨w, rfl, hexec⟩ := exec_store_at hi haddr
  have hout : a ∉ s.params.window.erase 0x10000005#32 :=
    fun h => not_mem_window hl w.one_le_bytes hr (List.mem_of_mem_erase h)
  rw [storeFrom_ram hout ha hr] at hexec
  exact ⟨_, hexec, bytesStored_memWrite hwf a (s.x rs2) w, rfl, rfl⟩

/-- Settles O22: an address no store of the window claims goes on to the tests of alignment and then of bounds. -/
theorem storesOutsideRamAndWindowTrap : Obligations.StoresOutsideRamAndWindowTrap := by
  intro s rs1 rs2 imm i hi a n haddr hout
  obtain ⟨w, rfl, hexec⟩ := exec_store_at hi haddr
  refine ⟨fun ha => ?misaligned, fun ha hr => ?outside⟩
  case misaligned =>
    rw [storeFrom_misaligned hout ha] at hexec
    exact traps_of_raise hexec
  case outside =>
    rw [storeFrom_outside hout ha hr] at hexec
    exact traps_of_raise hexec

theorem storeFrom_of_coreDone {s t : State} {a v : Word} (h : coreStore a v s = some (.done t)) (w : Width) :
    storeFrom w a v s = t.nextPc := by simp [storeFrom, store, h]

theorem storeFrom_of_coreHalt {s t : State} {a v : Word} {r : ResultCode} (h : coreStore a v s = some (.halt r t))
    (w : Width) : storeFrom w a v s = t.nextPc.endCall r := by simp [storeFrom, store, h]

theorem storeFrom_of_controlStore {s t : State} {a v : Word} (hcore : coreStore a v s = none)
    (h : controlStore a v s = some t) (w : Width) : storeFrom w a v s = t.nextPc := by
  simp [storeFrom, store, hcore, h]

/-- The window's addresses are different, so each takes its own register's store (20_memory.md R83). -/
theorem coreStore_window {s : State} (hl : s.params.legal = true) (v : Word) :
    coreStore s.params.timerCmpLo v s = some (.done { s with timerCompare := s.timerCompare.extractLsb' 32 32 ++ v }) ∧
      coreStore s.params.timerCmpHi v s = some (.done { s with timerCompare := v ++ s.timerCompare.extractLsb' 0 32 }) ∧
      coreStore s.params.counterLo v s = some (.done s) ∧ coreStore s.params.counterHi v s = some (.done s) ∧
      coreStore s.params.syscon v s =
        some (if v = Config.restartCode then .halt .restart s else if v = Config.poweroffCode then .halt .poweroff s
          else .done s) ∧
      coreStore 0x10000000#32 v s = none := by
  have hdistinct := (legal_facts hl).2.1
  simp only [Params.window, Config.uartData, List.nodup_cons, List.mem_cons, List.not_mem_nil, or_false, not_or] at hdistinct
  obtain ⟨⟨-, hd1, hd2, hd3, hd4, hd5⟩, -, ⟨h12, h13, h14, h15⟩, ⟨h23, h24, h25⟩, ⟨h34, h35⟩, h45, -⟩ := hdistinct
  refine ⟨?_, ?_, ?_, ?_, ?_, ?_⟩ <;>
    simp [coreStore, apply_ite some, *, Ne.symm]

/-- Settles O21: the core's registers take the store first, the UART data register then. -/
theorem storesToTheRegisterWindow : Obligations.StoresToTheRegisterWindow := by
  intro s rs1 rs2 imm hl i hi a
  obtain ⟨w, hw⟩ := exec_store hi
  have hexec : exec i s = .next (storeFrom w a (s.x rs2) s) := (hw s).1
  obtain ⟨hcmpLo, hcmpHi, hcntLo, hcntHi, hsyscon, hdata⟩ := coreStore_window hl (s.x rs2)
  have hdone {b : Word} {t : State} (ha : a = b) (h : coreStore b (s.x rs2) s = some (.done t)) :
      exec i s = .next t.nextPc := hexec.trans (congrArg Outcome.next (storeFrom_of_coreDone (ha ▸ h) w))
  have hhalt {r : ResultCode} (ha : a = s.params.syscon)
      (h : coreStore s.params.syscon (s.x rs2) s = some (.halt r s)) : exec i s = .next (s.nextPc.endCall r) :=
    hexec.trans (congrArg Outcome.next (storeFrom_of_coreHalt (ha ▸ h) w))
  refine ⟨fun ha => (hdone ha hcmpLo :), fun ha => (hdone ha hcmpHi :), fun ha => ?counter, fun ha => ?uart,
    fun ha hv => ?restart, fun ha hv => ?poweroff, fun ha hv hv' => ?ignored⟩
  case counter =>
    rcases ha with ha | ha
    · exact hdone ha hcntLo
    · exact hdone ha hcntHi
  case uart =>
    have hemit : controlStore a (s.x rs2) s = some (s.emit (.outByte (byteOf (s.x rs2) 0))) := if_pos ha
    exact hexec.trans (congrArg Outcome.next (storeFrom_of_controlStore (ha ▸ hdata) hemit w))
  case restart => exact hhalt ha (hsyscon.trans (by simp [hv, Config.restartCode]))
  case poweroff => exact hhalt ha (hsyscon.trans (by simp [hv, Config.restartCode, Config.poweroffCode]))
  case ignored => exact hdone ha (hsyscon.trans (by simp [hv, hv', Config.restartCode, Config.poweroffCode]))

/-! ## Atomics (44_atomics.md R260 to R272) -/

theorem atomicCheck_ok {s : State} {a : Word} (ha : a.toNat % 4 = 0) (hr : InRamRange s a 4) (k : AtomicKind) :
    atomicCheck k a s = none :=
  atomicCheck_eq_none.2 ⟨(aligned_iff .word a).2 ha, (inRam_iff_range s a .word).2 hr⟩

theorem atomicCheck_misaligned {s : State} {a : Word} (ha : a.toNat % 4 ≠ 0) :
    atomicCheck .load a s = some .loadAddrMisaligned ∧ atomicCheck .store a s = some .storeAddrMisaligned := by
  have halign : Width.word.aligned a = false := Bool.eq_false_iff.2 fun h => ha ((aligned_iff .word a).1 h)
  simp [atomicCheck, halign]

theorem atomicCheck_outside {s : State} {a : Word} (ha : a.toNat % 4 = 0) (hr : ¬ InRamRange s a 4) :
    atomicCheck .load a s = some .loadAccessFault ∧ atomicCheck .store a s = some .storeAccessFault := by
  have halign : Width.word.aligned a = true := (aligned_iff .word a).2 ha
  have hram : s.inRam a .word = false := Bool.eq_false_iff.2 fun h => hr ((inRam_iff_range s a .word).1 h)
  simp [atomicCheck, halign, hram]

theorem exec_lrW_of_raised {s : State} {rs1 : Reg} {e : Exception} (h : atomicCheck .load (s.x rs1) s = some e)
    (aq rl : Bool) (rd : Reg) : exec (.lrW aq rl rd rs1) s = .next (raise e (s.x rs1) s) := by
  simp [exec, execLrW, h]

theorem exec_scW_of_raised {s : State} {rs1 : Reg} {e : Exception} (h : atomicCheck .store (s.x rs1) s = some e)
    (aq rl : Bool) (rd rs2 : Reg) : exec (.scW aq rl rd rs1 rs2) s = .next (raise e (s.x rs1) s) := by
  simp [exec, execScW, h]

theorem exec_lrW {s : State} {rs1 : Reg} (h : atomicCheck .load (s.x rs1) s = none) (aq rl : Bool) (rd : Reg) :
    exec (.lrW aq rl rd rs1) s =
      .next { s.retire rd (wordAt s (s.x rs1)) with resvValid := true, resvAddr := s.x rs1 } := by
  simp only [exec, execLrW, h]
  rfl

theorem exec_scW {s : State} {rs1 : Reg} (h : atomicCheck .store (s.x rs1) s = none) (aq rl : Bool) (rd rs2 : Reg) :
    exec (.scW aq rl rd rs1 rs2) s =
      .next (if s.resvValid = true ∧ s.resvAddr = s.x rs1 then
          { (s.memWrite (s.x rs1) (s.x rs2) .word).retire rd 0#32 with resvValid := false }
        else { s.retire rd 1#32 with resvValid := false }) := by
  simp only [exec, execScW, h, apply_ite Outcome.next]

/-- The signed and unsigned comparisons of the AMOs are those of the values the words stand for. -/
theorem exec_amo {p : Instr × (Word → Word → Word)} {aq rl : Bool} {rd rs1 rs2 : Reg}
    (hp : p ∈ amosOf aq rl rd rs1 rs2) (s : State) : exec p.1 s = .next (amo p.2 rd rs1 rs2 s) := by
  have hmin : minSigned = fun t v => if t.toInt < v.toInt then t else v := by
    funext t v; simp [minSigned, BitVec.slt]
  have hmax : maxSigned = fun t v => if t.toInt < v.toInt then v else t := by
    funext t v; simp [maxSigned, BitVec.slt]
  have hminu : minUnsigned = fun t v => if t.toNat < v.toNat then t else v := by
    funext t v; simp [minUnsigned, BitVec.ult]
  have hmaxu : maxUnsigned = fun t v => if t.toNat < v.toNat then v else t := by
    funext t v; simp [maxUnsigned, BitVec.ult]
  simp only [amosOf, ← hmin, ← hmax, ← hminu, ← hmaxu, List.mem_cons, List.not_mem_nil, or_false] at hp
  rcases hp with rfl | rfl | rfl | rfl | rfl | rfl | rfl | rfl | rfl <;> rfl

theorem amo_of_raised {s : State} {rs1 : Reg} {e : Exception} (h : atomicCheck .store (s.x rs1) s = some e)
    (f : Word → Word → Word) (rd rs2 : Reg) : amo f rd rs1 rs2 s = raise e (s.x rs1) s := by
  simp [amo, h]

theorem amo_of_ok {s : State} {rs1 : Reg} (h : atomicCheck .store (s.x rs1) s = none) (f : Word → Word → Word)
    (rd rs2 : Reg) : amo f rd rs1 rs2 s =
      (s.memWrite (s.x rs1) (f (wordAt s (s.x rs1)) (s.x rs2)) .word).retire rd (wordAt s (s.x rs1)) := by
  simp only [amo, h]
  rfl

/-- A retired write of `rd` in a state with the registers of `s`, whatever else the state has changed. -/
theorem regWritten_of_retire {s t : State} (u : State) {rd : Reg} {v : Word} (hu : u.regs = s.regs)
    (ht : t.regs = (u.retire rd v).regs) : RegWritten s t rd v := fun r => by
  rw [x_congr _ ht, x_retire, x_congr s hu]

/-- Settles O27: the check passes, and LR.W is a retire that also sets the reservation. -/
theorem loadReservedTakesTheReservation : Obligations.LoadReservedTakesTheReservation := by
  intro s aq rl rd rs1 ha hr
  refine ⟨_, exec_lrW (atomicCheck_ok ha hr .load) aq rl rd, regWritten_of_retire s rfl rfl, retire_pc .., ?frame⟩
  rw [retire_frame]

/-- Settles O28: the check passes, and the two branches of SC.W are the two cases of the reservation. -/
theorem storeConditionalSucceedsOnItsReservation : Obligations.StoreConditionalSucceedsOnItsReservation := by
  intro s aq rl rd rs1 rs2 hwf ha hr
  refine ⟨_, exec_scW (atomicCheck_ok ha hr .store) aq rl rd rs2, ?_⟩
  by_cases hheld : s.resvValid = true ∧ s.resvAddr = s.x rs1
  · rw [if_pos hheld]
    have hstored : BytesStored s (s.memWrite (s.x rs1) (s.x rs2) .word) (s.x rs1) 4 (s.x rs2) :=
      bytesStored_memWrite hwf _ _ .word
    refine ⟨retire_pc .., rfl, fun _ => ⟨regWritten_of_retire (s.memWrite (s.x rs1) (s.x rs2) .word) rfl rfl, ?bytes⟩,
      absurd hheld, ?heldFrame⟩
    case bytes => simpa only [BytesStored, retire_mem] using hstored
    case heldFrame => rw [retire_frame]; rfl
  · rw [if_neg hheld]
    refine ⟨retire_pc .., rfl, fun h => absurd h hheld, fun _ => ⟨regWritten_of_retire s rfl rfl, retire_mem ..⟩,
      ?freeFrame⟩
    rw [retire_frame]

/-- Settles O29: the check passes, and the AMO retires from the state with the word written. -/
theorem amosReadModifyWrite : Obligations.AmosReadModifyWrite := by
  intro s aq rl rd rs1 rs2 hwf ha hr p hp
  have hexec := exec_amo hp s
  rw [amo_of_ok (atomicCheck_ok ha hr .store)] at hexec
  obtain ⟨t, ht, hw, hframe⟩ := completes_of_retire hexec rfl rfl
  refine ⟨t, ht, hw, ?bytes, by rw [hframe], by rw [hframe]; rfl⟩
  rw [hframe]
  exact bytesStored_memWrite hwf _ _ .word

/-- Settles O30: what the address check raises is all the atomic does. -/
theorem atomicsAtBadAddressesTrap : Obligations.AtomicsAtBadAddressesTrap := by
  intro s aq rl rd rs1 rs2
  have htraps {el es : Exception} (h : atomicCheck .load (s.x rs1) s = some el ∧ atomicCheck .store (s.x rs1) s = some es) :
      Traps (.lrW aq rl rd rs1) s el.code (s.x rs1) ∧ Traps (.scW aq rl rd rs1 rs2) s es.code (s.x rs1) ∧
        ∀ p ∈ amosOf aq rl rd rs1 rs2, Traps p.1 s es.code (s.x rs1) :=
    ⟨traps_of_raise (exec_lrW_of_raised h.1 aq rl rd), traps_of_raise (exec_scW_of_raised h.2 aq rl rd rs2),
      fun p hp => traps_of_raise ((exec_amo hp s).trans (congrArg Outcome.next (amo_of_raised h.2 p.2 rd rs2)))⟩
  exact ⟨fun ha => htraps (atomicCheck_misaligned ha), fun ha hr => htraps (atomicCheck_outside ha hr)⟩

end Sys2Proof.Machine

namespace Sys2Proof.Machine

open Host (Outcome)

/-! ## CSR instructions (45_system_csr.md R290, 10_state.md R44, R45) -/

/-- Each of the six forms reads the CSR, writes the value of the form, and retires with the value read. -/
theorem exec_csrForm {p : Instr × (Word → Word)} {s : State} {rd rs1 : Reg} {uimm : BitVec 5} {n : CsrNum}
    (hp : p ∈ csrForms s rd rs1 uimm n) :
    exec p.1 s = .next ((csrWrite n (p.2 (csrRead n s).1) (csrRead n s).2).retire rd (csrRead n s).1) := by
  simp only [csrForms, List.mem_cons, List.not_mem_nil, or_false] at hp
  rcases hp with rfl | rfl | rfl | rfl | rfl | rfl <;> rfl

/-- The effect of a CSR instruction, from what the read answers and what the write does. -/
theorem completes_of_csr {p : Instr × (Word → Word)} {s u : State} {rd rs1 : Reg} {uimm : BitVec 5} {n : CsrNum}
    {old : Word} {r : State} (hp : p ∈ csrForms s rd rs1 uimm n) (hread : csrRead n s = (old, r))
    (hwrite : csrWrite n (p.2 old) r = u) (hregs : u.regs = s.regs) (hpc : u.pc = s.pc) :
    ∃ t, exec p.1 s = .next t ∧ RegWritten s t rd old ∧ t = { u with regs := t.regs, pc := s.pc + 4 } := by
  have hexec := exec_csrForm hp
  rw [hread] at hexec
  exact completes_of_retire (hwrite ▸ hexec) hregs hpc

/-- A CSR whose read and write change nothing. -/
theorem retiresWith_of_csr {p : Instr × (Word → Word)} {s : State} {rd rs1 : Reg} {uimm : BitVec 5} {n : CsrNum}
    {old : Word} (hp : p ∈ csrForms s rd rs1 uimm n) (hread : csrRead n s = (old, s))
    (hwrite : ∀ v, csrWrite n v s = s) : RetiresWith p.1 s rd old := by
  have hexec := exec_csrForm hp
  rw [hread] at hexec
  simp only [hwrite] at hexec
  exact retiresWith_of_exec hexec

/-- Settles O31: each storage CSR is one field of the state, read and written; the write of `mip` keeps bit 7. -/
theorem csrAccessToStorageCsrs : Obligations.CsrAccessToStorageCsrs := by
  intro s rd rs1 uimm n p hp
  refine ⟨?_, ?_, ?_, ?_, ?_, ?_, ?_, ?mip⟩
  case mip =>
    rintro rfl
    obtain ⟨t, ht, hw, hframe⟩ := completes_of_csr hp rfl rfl rfl rfl
    have hmip : t.mip = mipCsrWrite s.mip (p.2 s.mip) := by rw [hframe]; rfl
    refine ⟨t, ht, hw, fun k => ?_, ?_⟩
    · rw [hmip, getLsbD_mipCsrWrite]
    · rw [hmip]
      exact hframe
  all_goals
    rintro rfl
    exact completes_of_csr hp rfl rfl rfl rfl

/-- A number outside the table reads as 0, with no effect (10_state.md R44). -/
theorem csrRead_of_unrecognised {n : CsrNum} (hn : n ∉ recognisedCsrs) (s : State) : csrRead n s = (0#32, s) := by
  simp only [recognisedCsrs, List.mem_cons, List.not_mem_nil, or_false, not_or] at hn
  have hcustom : customCsrRead n s = (0#32, s) := by simp [customCsrRead, hn]
  unfold csrRead
  split <;> simp_all

/-- A write to a number outside the table is dropped (10_state.md R45). -/
theorem csrWrite_of_unrecognised {n : CsrNum} (hn : n ∉ recognisedCsrs) (v : Word) (s : State) : csrWrite n v s = s := by
  simp only [recognisedCsrs, List.mem_cons, List.not_mem_nil, or_false, not_or] at hn
  have hcustom : customCsrWrite n v s = s := by
    unfold customCsrWrite
    split <;> simp_all
  unfold csrWrite
  split <;> simp_all

/-- Settles O32: reading and writing these CSRs changes no state. -/
theorem csrAccessToConstantCsrs : Obligations.CsrAccessToConstantCsrs := by
  intro s rd rs1 uimm n p hp
  refine ⟨?_, ?_, ?_, ?_, fun hn => ?unrecognised⟩
  case unrecognised => exact retiresWith_of_csr hp (csrRead_of_unrecognised hn s) fun v => csrWrite_of_unrecognised hn v s
  all_goals
    rintro rfl
    exact retiresWith_of_csr hp rfl fun _ => rfl

/-- The read of the input CSR (60_exceptions.md R351). -/
theorem csrRead_input (s : State) : csrRead 0x140#12 s = (inputByte s).getD (0xFFFFFFFF#32, s) := rfl

/-- Settles O33: a print CSR reads as 0 and its write emits one event; the input CSR's read consumes a byte when there is
one. -/
theorem debugCsrsPrintAndPoll : Obligations.DebugCsrsPrintAndPoll := by
  intro s rd rs1 uimm n p hp
  refine ⟨?_, ?_, ?_, fun hn hq => ?empty, fun b bs hn hq => ?consumed⟩
  case empty =>
    subst hn
    exact retiresWith_of_csr hp (by simp [csrRead_input, inputByte, hq]) fun _ => rfl
  case consumed =>
    subst hn
    have hread : csrRead 0x140#12 s = (b.zeroExtend 32, { s with consoleIn := bs }) := by
      simp [csrRead_input, inputByte, hq]
    exact completes_of_csr hp hread rfl rfl rfl
  all_goals
    rintro rfl
    exact completes_of_csr hp rfl rfl rfl rfl

/-! ## The string print (60_exceptions.md R355) -/

/-- The scan emits the bytes before the first zero, or all that it may look at. -/
theorem stringBytes_spec (m : Memory) (fuel a : Nat) :
    ∃ k ≤ fuel, stringBytes m fuel a = (List.range k).map (fun j => m.read (a + j)) ∧
      (∀ j < k, m.read (a + j) ≠ 0#8) ∧ (k < fuel → m.read (a + k) = 0#8) := by
  induction fuel generalizing a with
  | zero => exact ⟨0, le_rfl, rfl, by simp, by simp⟩
  | succ fuel ih =>
    by_cases hz : m.read a = 0#8
    · exact ⟨0, by omega, by simp [stringBytes, hz], by simp, fun _ => hz⟩
    · obtain ⟨k, hk, hbytes, hnonzero, hend⟩ := ih (a + 1)
      have hshift (j : Nat) : a + 1 + j = a + (j + 1) := by omega
      refine ⟨k + 1, by omega, ?_, fun j hj => ?_, fun h => ?_⟩
      · simp [stringBytes, hz, hbytes, List.range_succ_eq_map, Function.comp_def, hshift]
      · cases j with
        | zero => exact hz
        | succ j => exact hshift j ▸ hnonzero j (by omega)
      · exact hshift k ▸ hend (by omega)

/-- What a string print appends to the output log. -/
theorem printStr_spec (v : Word) (s : State) :
    ∃ k, printStr v s =
        { s with
          consoleOut := s.consoleOut ++ (List.range k).map (fun j => OutEvent.outByte (s.mem.read (v.toNat + j))) } ∧
      (v.toNat < s.params.ramBase.toNat → k = 0) ∧
      (∀ j, j < k → v.toNat + j < s.params.ramBase.toNat + s.params.ramSize ∧ s.mem.read (v.toNat + j) ≠ 0#8) ∧
      (s.params.ramBase.toNat ≤ v.toNat → v.toNat + k < s.params.ramBase.toNat + s.params.ramSize →
        s.mem.read (v.toNat + k) = 0#8) := by
  by_cases hlow : v.toNat < s.params.ramBase.toNat
  · exact ⟨0, by simp [printStr, hlow], fun _ => rfl, by simp, fun h => absurd h (by omega)⟩
  · obtain ⟨k, hk, hbytes, hnonzero, hend⟩ :=
      stringBytes_spec s.mem (s.params.ramSize - (v.toNat - s.params.ramBase.toNat)) v.toNat
    refine ⟨k, ?_, fun h => absurd h hlow, fun j hj => ⟨by omega, hnonzero j hj⟩, fun _ h => hend (by omega)⟩
    simp [printStr, hlow, hbytes, Function.comp_def]

/-- Settles O34: CSR 0x138 reads as 0, and its write is the string print. -/
theorem stringPrintStopsAtZeroOrTheEndOfRam : Obligations.StringPrintStopsAtZeroOrTheEndOfRam := by
  intro s rd rs1 uimm p hp v
  obtain ⟨k, hprint, hspec⟩ := printStr_spec (p.2 0#32) s
  obtain ⟨t, ht, hw, hframe⟩ := completes_of_csr (n := 0x138#12) hp rfl hprint rfl rfl
  exact ⟨t, k, ht, hw, hframe, hspec⟩

/-! ## Fences, EBREAK, trap entry, MRET and WFI -/

/-- Settles O23: the execution of both is `nextPc` whatever the fields hold. -/
theorem fencesOnlyAdvancePc : Obligations.FencesOnlyAdvancePc := fun _ _ _ _ _ _ _ => ⟨rfl, rfl⟩

theorem exec_ebreak (s : State) : exec .ebreak s = .next (raise .breakpoint 0#32 s) := rfl

/-- Settles O36: the execution only raises. -/
theorem ebreakTraps : Obligations.EbreakTraps := fun s => traps_of_raise (exec_ebreak s)

/-- In vectored mode the timer interrupt enters at `base + 28` (60_exceptions.md R337). -/
theorem trapVector_timer {mtvec : Word} (h : mtvec &&& 3#32 = 1#32) :
    trapVector mtvec timerCause = (mtvec &&& 0xFFFFFFFC#32) + 28#32 := by
  rw [trapVector_eq, if_pos ⟨h, rfl⟩]
  rfl

/-- Settles O37: raising and taking the interrupt are both trap entry with the end of the call. -/
theorem trapEntryFollowsTheTable : Obligations.TrapEntryFollowsTheTable := by
  intro s tval
  have hraise (e : Exception) := trapTaken_raise s e tval
  exact ⟨hraise _, hraise _, hraise _, hraise _, hraise _, hraise _, hraise _, hraise _, hraise _,
    trapTaken_takeTrap s timerCause s.pc 0#32, trapVector_timer⟩

/-- Settles O38: MRET is the trap return, whose status word is known bit by bit. -/
theorem mretReturns : Obligations.MretReturns := by
  intro s
  refine ⟨trapReturn s, rfl, rfl, fun k _ => ?_, rfl⟩
  rw [trapReturn_mstatus, getLsbD_mstatusReturn]
  simp [ite_or]

/-- Settles O39: the execution of WFI is this update, the credit being that of the call in flight. -/
theorem wfiSleeps : Obligations.WfiSleeps := fun _ => rfl

/-! ## Reset (70_reset_and_hazards.md R400, 10_state.md R56) -/

/-- Settles O40: `State.reset` is one concrete state; HOST.Reset gives each field its value, whatever the state was. -/
theorem resetBootContract : Obligations.ResetBootContract := by
  intro u t ht
  simp only [List.mem_cons, List.not_mem_nil, or_false] at ht
  rcases ht with rfl | rfl
  · decide
  · simp [State.extraflags, Priv.bits]

/-- Settles O41: as for the boot contract, field by field. -/
theorem resetClearsTheRest : Obligations.ResetClearsTheRest := by
  intro u t ht
  simp only [List.mem_cons, List.not_mem_nil, or_false] at ht
  rcases ht with rfl | rfl
  · decide
  · simp

/-- Settles O42: between calls the step takes the command off the queue, and HOST.Reset is the reset. -/
theorem hostResetLeavesRamAndConsoleAlone : Obligations.HostResetLeavesRamAndConsoleAlone := by
  intro s rest hl hcall hqueue
  have hstep : step s = .next (hostReset { s with hostQueue := rest }) := by
    simp [step_of_idle hl hcall, hostMove, hqueue, hostAct]
  refine ⟨_, hstep, rfl, ?_⟩
  simp [hcall, Priv.bits]

end Sys2Proof.Machine
